-- ==== Sys2Proof/Word.lean ====
section
/-! DEFINITION. The word types of the 1-wire_bus_controller (00_scope.md R8: command word and read-port
word 32 bits, temperature result 64 bits, bytes 8 bits) and nothing else. -/

namespace Sys2Proof

/-- A byte: 8 bits (00_scope.md R9). -/
abbrev Byte := BitVec 8

/-- A command word or a read-port word: 32 bits (00_scope.md R8). -/
abbrev Word := BitVec 32

/-- The temperature result: the 64 bits of a binary64 (00_scope.md R8). -/
abbrev Double := BitVec 64

end Sys2Proof
end

