-- ==== Sys2Proof/Machine/SeqTypes.lean ====
section
/-! DEFINITION. The types of the hidden sequencer state (10_state.md R25): the phases of a slot, the steps
of a command's sequence, and the hidden registers whose values between operations the spec leaves open. -/

namespace Sys2Proof.Machine

/-- `SEQ`: the phase of the current slot, `idle` between operations (R25, R140). -/
inductive Phase where
  | idle | rstLow | rstWait | rstRec | wLow | wHold | wRec | rLow | rWait | rPad
deriving DecidableEq, Repr, Inhabited

/-- `STEP`: which part of the command's sequence is running (R25, R140). -/
inductive SeqStep where
  | sReset | sRomCmd | sRomData | sFunc | sData
deriving DecidableEq, Repr, Inhabited

/-- The hidden registers of R25 other than `SEQ`, each with the range the rule gives it. R28 leaves them
unspecified after reset and R25 says their values between operations never matter. -/
structure Hidden where
  /-- `STEP`. -/
  step : SeqStep
  /-- `TMR`, 0..479: ticks left in the current phase, minus one. -/
  tmr : Fin 480
  /-- `BYTE_I`, 0..8: index of the byte being transferred in the current step. -/
  byteI : Fin 9
  /-- `BIT_I`, 0..7: index of the bit being transferred in the current byte. -/
  bitI : Fin 8
  /-- `SHR`: the byte being sent or assembled. -/
  shr : Byte
  /-- `STG[0..8]`: the bytes received in the current operation. -/
  stg : Vector Byte 9
  /-- `PRES_T`: presence result of the current operation's reset slot. -/
  presT : Bool
deriving DecidableEq, Repr, Inhabited

end Sys2Proof.Machine
end

