-- ==== Sys2Proof/Config.lean ====
section
/-! DEFINITION. What an implementation of the block fixes, and the free values: the timing constants
(00_scope.md R6, normative), the parameters (R7, R8: arguments of the model, with their defaults), and the
two opaque constants that stand for what the spec leaves open. -/

namespace Sys2Proof

namespace Config

/-- `T_RSTL`: reset, line driven low (R6). -/
def tRSTL : Nat := 480
/-- `T_PDS`: reset, release to presence sample (R6). -/
def tPDS : Nat := 60
/-- `T_RSTR`: reset, sample to end of slot (R6). -/
def tRSTR : Nat := 420
/-- `T_WL`: write slot, initial low (R6). -/
def tWL : Nat := 1
/-- `T_WH`: write slot, hold to the end of the 60-tick slot (R6). -/
def tWH : Nat := 59
/-- `T_WREC`: write slot, recovery gap (R6). -/
def tWREC : Nat := 1
/-- `T_RL`: read slot, initial low (R6). -/
def tRL : Nat := 1
/-- `T_RS`: read slot, release to sample (R6, conflict C1). -/
def tRS : Nat := 15
/-- `T_RP`: read slot, sample to end of slot (R6, conflict C1). -/
def tRP : Nat := 45

end Config

/-- The named parameters a model takes as arguments (00_scope.md R7, R8; U8, U9). They ride in the state as
`State.cfg`, which no step changes (log entry 1). -/
structure Params where
  cmdReadRom : Byte
  cmdMatchRom : Byte
  cmdConvertT : Byte
  cmdWriteScratchpad : Byte
  cmdReadScratchpad : Byte
  cmdCopyScratchpad : Byte
  /-- Named by the source; no command sends it (R51). -/
  cmdRecallE2 : Byte
  /-- Named by the source; no command sends it (R51). -/
  cmdReadPowerSupply : Byte
  familyCode : Byte
  /-- `DECODE_SIGNED` (R8): `false` is the reference behaviour. -/
  decodeSigned : Bool
deriving DecidableEq, Repr

/-- The defaults of R7 and R8. PRESUMED, safe for every statement over `State.cfg`: the nine bytes are general
knowledge of the DS18B20 family (G1 to G9), not in the source (log entry 1). -/
def Config.defaults : Params where
  cmdReadRom := 0x33#8
  cmdMatchRom := 0x55#8
  cmdConvertT := 0x44#8
  cmdWriteScratchpad := 0x4E#8
  cmdReadScratchpad := 0xBE#8
  cmdCopyScratchpad := 0x48#8
  cmdRecallE2 := 0xB8#8
  cmdReadPowerSupply := 0xB4#8
  familyCode := 0x28#8
  decodeSigned := false

/-- FREE VALUE: the level the environment puts on the line at a tick for which the state's list of levels says
nothing (20_memory.md R37: "every sampled value is a free input of the model"; U14; log entry 4). -/
opaque Config.owIn : Nat → Bool

/-- FREE VALUE: the hidden registers at a tick that follows a completed operation or a `rst`, by the number of that tick
(10_state.md R25, R28; U2: `any value`; log entry 3). -/
opaque Config.freeHidden : Nat → Machine.Hidden

end Sys2Proof
end

