-- ==== Sys2Proof/Machine/State.lean ====
section
/-! DEFINITION. The state of the block (10_state.md R10), the host's and the environment's inputs still to come, the
record of what the pin has done, the reasons a step can stop, and the state right after reset (R28). Plain data. -/

namespace Sys2Proof.Machine

/-- `ERR`: the status code of the most recently accepted command (10_state.md R16, 60_exceptions.md R110). -/
inductive ErrCode where
  /-- 0 `OK`. -/
  | ok
  /-- 1 `NO_DEVICE`. -/
  | noDevice
  /-- 2 `DEVICE_MISMATCH`. -/
  | deviceMismatch
  /-- 3 `ILLEGAL_CMD`. -/
  | illegalCmd
deriving DecidableEq, Repr

/-- What the host puts on the block's input ports during one tick (10_state.md R26). -/
structure PortIn where
  rst : Bool
  cmdValid : Bool
  /-- Meaningful only when `cmdValid`. -/
  cmdWord : Word
  raddr : BitVec 4
deriving DecidableEq, Repr

/-- A run of ticks during which `ow_oe` had one value. -/
structure Run where
  /-- `ow_oe`: `true` = the block pulls the line low. -/
  low : Bool
  ticks : Nat
deriving DecidableEq, Repr

/-- One `Sample()` taken: its tick and the level read, `true` = high (00_scope.md R9). -/
structure SampleAt where
  tick : Nat
  level : Bool
deriving DecidableEq, Repr

structure State where
  /-- The parameters of 00_scope.md R7, R8; no step changes them. -/
  cfg : Params
  /-- `BUSY` (R11). -/
  busy : Bool
  /-- `PRESENT` (R12). -/
  present : Bool
  /-- `ROM_VALID` (R13). -/
  romValid : Bool
  /-- `SCR_VALID` (R14). -/
  scrValid : Bool
  /-- `TEMP_VALID` (R15). -/
  tempValid : Bool
  /-- `ERR` (R16). -/
  err : ErrCode
  /-- `RXDATA` (R17). -/
  rxdata : Byte
  /-- `RBUF[0..7]` (R18). -/
  rbuf : Vector Byte 8
  /-- `ROM[0..7]`, the `rom_code_register` (R19). -/
  rom : Vector Byte 8
  /-- `SCR[0..8]`, the `scratchpad_buffer` (R20). -/
  scr : Vector Byte 9
  /-- `TEMP` (R21). -/
  temp : Double
  /-- `CMDR` (R22). -/
  cmdr : Word
  /-- `ow_oe` (R24): `true` = the block pulls the line low. -/
  owOe : Bool
  /-- `SEQ` (R25). -/
  seq : Phase
  /-- The other hidden registers (R25). -/
  hid : Hidden
  /-- The host's inputs, the current tick first; past the end the host presents nothing (log entry 5). -/
  inputs : List PortIn
  /-- The levels the environment supplies at the coming `Sample()`s (R37, R72; log entry 4). -/
  lineIn : List Bool
  /-- The current tick (R5; log entry 7). -/
  now : Nat
  /-- `ow_oe` over all past ticks, newest run first (R142; log entry 7). -/
  wave : List Run
  /-- The samples taken, newest first (R72; log entry 7). -/
  sampled : List SampleAt
deriving DecidableEq, Repr

/-- Faults: none. 70_reset_and_hazards.md R141 "A run cannot hang: every command has a fixed finite duration", and what
the source calls errors are codes in `ERR` (R110), taken as next states. A type with no constructor says so. Safe. -/
inductive Fault where
deriving DecidableEq, Repr

/-- Refusals. -/
inductive Refusal where
  /-- Raised by `exec` for an instruction that has no meaning yet; no arm of `exec` raises it. Safe. -/
  | notModelled (mnemonic : String)
deriving DecidableEq, Repr

/-- Hidden registers at `State.reset`. DESIGN CHOICE, unsafe: R28 leaves them unspecified (log entry 2); no operation
reads one of them before writing it (R25). -/
def Hidden.atReset : Hidden where
  step := .sReset
  tmr := 0
  byteI := 0
  bitI := 0
  shr := 0#8
  stg := #v[0#8, 0#8, 0#8, 0#8, 0#8, 0#8, 0#8, 0#8, 0#8]
  presT := false

/-- The machine right after reset (R28), the parameters at their defaults (R7, R8), the host and the line silent, no
tick recorded. -/
def State.reset : State where
  cfg := Config.defaults
  busy := false
  present := false
  romValid := false
  scrValid := false
  tempValid := false
  err := .ok
  rxdata := 0#8
  rbuf := #v[0#8, 0#8, 0#8, 0#8, 0#8, 0#8, 0#8, 0#8]
  rom := #v[0#8, 0#8, 0#8, 0#8, 0#8, 0#8, 0#8, 0#8]
  scr := #v[0#8, 0#8, 0#8, 0#8, 0#8, 0#8, 0#8, 0#8, 0#8]
  temp := 0#64
  cmdr := 0#32
  owOe := false
  seq := .idle
  hid := Hidden.atReset
  inputs := []
  lineIn := []
  now := 0
  wave := []
  sampled := []

end Sys2Proof.Machine
end

