-- ==== Sys2Proof/Machine/Flags.lean ====
section
/-! DEFINITION. The status flags as the host sees them: the 2-bit code of `ERR` (60_exceptions.md R110) and the
`STATUS` word (20_memory.md R31). -/

namespace Sys2Proof.Machine

/-- The code of `ERR` (R16, R110). -/
def ErrCode.code : ErrCode → BitVec 2
  | .ok => 0#2
  | .noDevice => 1#2
  | .deviceMismatch => 2#2
  | .illegalCmd => 3#2

/-- The `STATUS` word (R31): [0] `BUSY`, [1] `PRESENT`, [2] `ROM_VALID`, [3] `SCR_VALID`, [4] `TEMP_VALID`, [7:5] 0,
[9:8] `ERR`, [31:10] 0. -/
def State.statusWord (s : State) : Word :=
  0#22 ++ s.err.code ++ 0#3 ++ BitVec.ofBool s.tempValid ++ BitVec.ofBool s.scrValid ++
    BitVec.ofBool s.romValid ++ BitVec.ofBool s.present ++ BitVec.ofBool s.busy

/-- The output port `cmd_ready = ¬BUSY` (R11, R26). -/
def State.cmdReady (s : State) : Bool := !s.busy

end Sys2Proof.Machine
end

