-- ==== Sys2Proof/Syntax.lean ====
section
/-! DEFINITION. The 13 commands of the block (30_encoding.md R45), one constructor per row of
spec/opcode_table.json, and the lines of an assembler listing (30_encoding.md R53, R54). -/

namespace Sys2Proof

/-- The commands of 30_encoding.md R45, with the operands that R47 assembles from the word: the ignored
bits of a word are no part of the command (they stay visible in `CMDR`). -/
inductive Instr where
  /-- `RESET_BUS`, OP 0x1, format N (R65). -/
  | resetBus
  /-- `WRITE_BIT bit`, OP 0x2, format B1 (R66). -/
  | writeBit (bit : Bool)
  /-- `READ_BIT`, OP 0x3, format N (R67). -/
  | readBit
  /-- `WRITE_BYTE byte`, OP 0x4, format B8 (R68). -/
  | writeByte (byte : Byte)
  /-- `READ_BYTE`, OP 0x5, format N (R69). -/
  | readByte
  /-- `READ_ROM`, OP 0x6, format N (R77). -/
  | readRom
  /-- `MATCH_ROM`, OP 0x7, format N (R78). -/
  | matchRom
  /-- `INIT`, OP 0x8, format N (R80). -/
  | init
  /-- `START_CONVERSION`, OP 0x9, format N (R81). -/
  | startConversion
  /-- `WRITE_SCRATCHPAD highAlarm, lowAlarm, config`, OP 0xA, format B24 (R83). -/
  | writeScratchpad (highAlarm lowAlarm config : Byte)
  /-- `COPY_SCRATCHPAD`, OP 0xB, format N (R84). -/
  | copyScratchpad
  /-- `READ_SCRATCHPAD`, OP 0xC, format N (R86). -/
  | readScratchpad
  /-- `READ_TEMPERATURE`, OP 0xD, format N (R87). -/
  | readTemperature
deriving DecidableEq, Repr

/-- The mnemonics of 30_encoding.md R45: the closed enumeration of command variants. -/
inductive Mnemonic where
  | RESET_BUS | WRITE_BIT | READ_BIT | WRITE_BYTE | READ_BYTE | READ_ROM | MATCH_ROM | INIT
  | START_CONVERSION | WRITE_SCRATCHPAD | COPY_SCRATCHPAD | READ_SCRATCHPAD | READ_TEMPERATURE
deriving DecidableEq, Repr

/-- One line of a listing (30_encoding.md R53, R54), its operands still plain numbers as written. -/
inductive SourceLine where
  /-- A mnemonic with its operands, separated by commas in the text. -/
  | command (mnemonic : Mnemonic) (operands : List Nat)
  /-- The pseudo-instruction `SEND_FUNCTION byte` (R54). -/
  | sendFunction (operands : List Nat)
  /-- The directive `WAIT n` (R54). -/
  | wait (operands : List Nat)
deriving DecidableEq, Repr

end Sys2Proof
end

