-- ==== Sys2Proof/WellFormed.lean ====
section
/-! DEFINITION. What a well-formed listing line is (30_encoding.md R53, R54): the number of operands and
the range of each. A term of `Instr` needs no check: the widths of R47 are in its types, so every term of
it is a command of the block. -/

namespace Sys2Proof

/-- The exclusive upper bound of each operand of a mnemonic, in order (R53): `WRITE_BIT bit` (0 or 1),
`WRITE_BYTE byte` (0..255), `WRITE_SCRATCHPAD highAlarm, lowAlarm, config` (0..255 each), every other
mnemonic none. -/
def Mnemonic.operandBounds : Mnemonic → List Nat
  | .WRITE_BIT => [2]
  | .WRITE_BYTE => [256]
  | .WRITE_SCRATCHPAD => [256, 256, 256]
  | .RESET_BUS | .READ_BIT | .READ_BYTE | .READ_ROM | .MATCH_ROM | .INIT | .START_CONVERSION
  | .COPY_SCRATCHPAD | .READ_SCRATCHPAD | .READ_TEMPERATURE => []

/-- As many operands as bounds, each below its bound. -/
def withinBounds : List Nat → List Nat → Bool
  | [], [] => true
  | v :: vs, b :: bs => decide (v < b) && withinBounds vs bs
  | [], _ :: _ => false
  | _ :: _, [] => false

/-- A line that assembles (R53: "An operand out of range is an assembly error, not a truncation"; R54). -/
def SourceLine.wellFormed : SourceLine → Bool
  | .command m operands => withinBounds operands m.operandBounds
  | .sendFunction operands => withinBounds operands [256]
  | .wait operands => operands.length == 1

end Sys2Proof
end

