-- ==== Sys2Proof/Decode.lean ====
section
/-! DEFINITION. The command word (30_encoding.md R46 to R48, R55): its fields, the decoder, which is total and
rejects an illegal word by name, the encoder written from the same table, and the host's view of the decoder. -/

namespace Sys2Proof

/-- Field `OP`, bits [31:28] (R46). -/
def opField (w : Word) : BitVec 4 := w.extractLsb' 28 4
/-- Field `RSV`, bits [27:24] (R46). -/
def rsvField (w : Word) : BitVec 4 := w.extractLsb' 24 4
/-- Operand byte `A2`, bits [23:16] (R46). -/
def a2Field (w : Word) : Byte := w.extractLsb' 16 8
/-- Operand byte `A1`, bits [15:8] (R46). -/
def a1Field (w : Word) : Byte := w.extractLsb' 8 8
/-- Operand byte `A0`, bits [7:0] (R46). -/
def a0Field (w : Word) : Byte := w.extractLsb' 0 8

/-- Why a word is illegal (R48). -/
inductive DecodeError where
  /-- `RSV` is not 0, whatever `OP` is. -/
  | reservedBits
  /-- `OP` is 0x0, 0xE or 0xF. -/
  | reservedOpcode
deriving DecidableEq, Repr

/-- The command of an opcode, with the operands of its format (R45, R47). Operands are unsigned; nothing is
extended, scaled or shifted. -/
def decodeOp (op : BitVec 4) (a2 a1 a0 : Byte) : Except DecodeError Instr :=
  match op.toNat with
  | 0x1 => .ok .resetBus
  | 0x2 => .ok (.writeBit (a0.getLsbD 0))
  | 0x3 => .ok .readBit
  | 0x4 => .ok (.writeByte a0)
  | 0x5 => .ok .readByte
  | 0x6 => .ok .readRom
  | 0x7 => .ok .matchRom
  | 0x8 => .ok .init
  | 0x9 => .ok .startConversion
  | 0xA => .ok (.writeScratchpad a0 a1 a2)
  | 0xB => .ok .copyScratchpad
  | 0xC => .ok .readScratchpad
  | 0xD => .ok .readTemperature
  | _ => .error .reservedOpcode

/-- The decoder (R46, R48): every word is one of the 13 commands or illegal. -/
def decode (w : Word) : Except DecodeError Instr :=
  if rsvField w = 0#4 then decodeOp (opField w) (a2Field w) (a1Field w) (a0Field w)
  else .error .reservedBits

/-- A word from its fields, `RSV` = 0 (R46). -/
def wordOf (op : BitVec 4) (a2 a1 a0 : Byte) : Word := op ++ 0#4 ++ a2 ++ a1 ++ a0

/-- The opcode of a command (R45). -/
def opcode : Instr → BitVec 4
  | .resetBus => 0x1#4
  | .writeBit _ => 0x2#4
  | .readBit => 0x3#4
  | .writeByte _ => 0x4#4
  | .readByte => 0x5#4
  | .readRom => 0x6#4
  | .matchRom => 0x7#4
  | .init => 0x8#4
  | .startConversion => 0x9#4
  | .writeScratchpad _ _ _ => 0xA#4
  | .copyScratchpad => 0xB#4
  | .readScratchpad => 0xC#4
  | .readTemperature => 0xD#4

/-- The canonical word of a command: every ignored bit 0 (R47, R53). -/
def encode (i : Instr) : Word :=
  match i with
  | .writeBit bit => wordOf (opcode i) 0#8 0#8 (BitVec.setWidth 8 (BitVec.ofBool bit))
  | .writeByte byte => wordOf (opcode i) 0#8 0#8 byte
  | .writeScratchpad highAlarm lowAlarm config => wordOf (opcode i) config lowAlarm highAlarm
  | .resetBus | .readBit | .readByte | .readRom | .matchRom | .init | .startConversion
  | .copyScratchpad | .readScratchpad | .readTemperature => wordOf (opcode i) 0#8 0#8 0#8

/-- The bits of a word that a command's format reads (R47): `OP` and `RSV` always, `A0[0]` for B1, `A0` for B8,
all three operand bytes for B24. -/
def usedBits : Instr → Word
  | .writeBit _ => 0xFF000001#32
  | .writeByte _ => 0xFF0000FF#32
  | .writeScratchpad _ _ _ => 0xFFFFFFFF#32
  | .resetBus | .readBit | .readByte | .readRom | .matchRom | .init | .startConversion
  | .copyScratchpad | .readScratchpad | .readTemperature => 0xFF000000#32

/-- What the decoder reads from a word whose low `nbits` bits are those of `w` and whose other bits are 0. A
command word is presented whole on the port `cmd_word` (R26, R43), so there is no byte order to apply. -/
def decodeTableWord (nbits w : Nat) : Option Instr :=
  (decode (BitVec.ofNat 32 (w % 2 ^ nbits))).toOption

end Sys2Proof
end

