-- ==== Sys2Proof/Machine/Operands.lean ====
section
/-! DEFINITION. The operand forms of the commands (30_encoding.md R47), the configuration byte's normalisation
(42_sensor_commands.md R82), and the bit and byte selections of line transfers (20_memory.md R34, R35). -/

namespace Sys2Proof.Machine

/-- `NormConfig(c) = (c | 0x1F) & 0x7F` (R82). -/
def normConfig (c : Byte) : Byte := (c ||| 0x1F#8) &&& 0x7F#8

/-- The bits of a byte in the order they are on the line, least significant first (R34, R62). -/
def lsbFirst (v : Byte) : List Bool :=
  [v.getLsbD 0, v.getLsbD 1, v.getLsbD 2, v.getLsbD 3, v.getLsbD 4, v.getLsbD 5, v.getLsbD 6, v.getLsbD 7]

/-- `v[i] <- b` on a byte (R63, R97). -/
def setBit (v : Byte) (i : Nat) (b : Bool) : Byte :=
  if b then v ||| (1#8 <<< i) else v &&& ~~~(1#8 <<< i)

/-- A bit zero-extended to a byte, `zext_8(b)` (R67). -/
def zextBit (b : Bool) : Byte := BitVec.setWidth 8 (BitVec.ofBool b)

/-- `STG[0..7]` (41_rom_commands.md R75). -/
def firstEight (v : Vector Byte 9) : Vector Byte 8 :=
  #v[v[0], v[1], v[2], v[3], v[4], v[5], v[6], v[7]]

/-- The data bytes of WRITE_SCRATCHPAD in the order they are sent (R35, R83). -/
def scratchpadOperands (highAlarm lowAlarm config : Byte) : List Byte :=
  [highAlarm, lowAlarm, normConfig config]

end Sys2Proof.Machine
end

