-- ==== Sys2Proof/Machine/Ops.lean ====
section
/-! DEFINITION. The named operations: the input ports of the current tick, the pin primitives of 00_scope.md R9, acceptance
and completion of a command (30_encoding.md R49), raising an error (60_exceptions.md R112, the block's only "trap entry";
R116: there is no return), and `rst` (70_reset_and_hazards.md R130). -/

namespace Sys2Proof.Machine

/-- The input ports when the host presents nothing (log entry 5). -/
def PortIn.silent : PortIn := ⟨false, false, 0#32, 0#4⟩

/-- The input ports during the current tick (R26). -/
def State.port (s : State) : PortIn := s.inputs.headD PortIn.silent

/-- The record of `ow_oe` with `n` more ticks at level `low`: a run of the level already there grows. -/
def pushRun (low : Bool) (n : Nat) (w : List Run) : List Run :=
  if n = 0 then w
  else match w with
    | [] => [⟨low, n⟩]
    | r :: rs => if r.low = low then ⟨low, r.ticks + n⟩ :: rs else ⟨low, n⟩ :: r :: rs

/-! The pin primitives (R9): "`DriveLow`, `Release` and `Sample` take no time; only `Delay` does." -/

/-- `DriveLow()`: `ow_oe <- 1` from the current tick on (R9, R24). -/
def State.driveLow (s : State) : State := { s with owOe := true }

/-- `Release()`: `ow_oe <- 0` from the current tick on (R9, R24). -/
def State.release (s : State) : State := { s with owOe := false }

/-- `Delay(n)`: `n` ticks pass (R9). The pin keeps its level; what the host presents meanwhile goes by (R50). -/
def State.delay (n : Nat) (s : State) : State :=
  { s with now := s.now + n, inputs := s.inputs.drop n, wave := pushRun s.owOe n s.wave }

/-- The level of the line now, as the next `Sample()` would read it: low if the block drives it, else what the
environment decides (20_memory.md R37). -/
def State.lineLevel (s : State) : Bool := !s.owOe && s.lineIn.headD (Config.owIn s.now)

/-- The state after a `Sample()`: one environment level consumed, the sample recorded (R72). -/
def State.afterSample (s : State) : State :=
  { s with lineIn := s.lineIn.tail, sampled := ⟨s.now, s.lineLevel⟩ :: s.sampled }

/-- `Sample()`: the level of the line, `true` = high (R9, D28). -/
def State.sample (s : State) : Bool × State := (s.lineLevel, s.afterSample)

/-- `STG[k] <- v` (R75, R85). -/
def State.stage (k : Fin 9) (v : Byte) (s : State) : State :=
  { s with hid := { s.hid with stg := s.hid.stg.set k.val v k.isLt } }

/-- `PRES_T <- p` (R64). -/
def State.setPresT (p : Bool) (s : State) : State := { s with hid := { s.hid with presT := p } }

/-! Acceptance and completion (R49). -/

/-- A legal word is accepted in this tick: at the next tick, the start tick, `CMDR` holds the word and `BUSY` is 1
(R22, R49). -/
def State.accept (w : Word) (s : State) : State := { s.delay 1 with cmdr := w, busy := true }

/-- An illegal word is accepted in this tick: at the next tick `CMDR` holds it and `ERR` is 3; nothing else changes
(R48, R49, R114). -/
def State.acceptIllegal (w : Word) (s : State) : State := { s.delay 1 with cmdr := w, err := .illegalCmd }

/-- The completion tick of an operation (R49): `ERR` is committed, `BUSY` and `ow_oe` are 0, `SEQ` is `IDLE` (R112,
R140). The other hidden registers hold any value between operations (R25, U2; log entry 3). -/
def State.complete (e : ErrCode) (s : State) : State :=
  { s with busy := false, seq := .idle, owOe := false, err := e, hid := Config.freeHidden s.now }

/-- `raise <Error>` (R9, R112): the operation ends at the current offset, `ERR` gets the error's code with the writes
already listed, the sequencer is idle. Nothing is saved and nothing is vectored. -/
def State.raise (e : ErrCode) (s : State) : State := s.complete e

/-- `rst(t) = 1` (R28, R130): at the next tick the block has its reset values, whatever it was doing; the hidden
registers other than `SEQ` hold any value. The parameters and the record of past ticks are no state of the block. -/
def State.resetTick (s : State) : State :=
  { State.reset with
    cfg := s.cfg
    hid := Config.freeHidden (s.now + 1)
    inputs := s.inputs.drop 1
    lineIn := s.lineIn
    now := s.now + 1
    wave := pushRun s.owOe 1 s.wave
    sampled := s.sampled }

/-- No `rst` in the first `n` of the coming ticks (R130). -/
def noRstWithin : List PortIn → Nat → Bool
  | [], _ => true
  | _ :: _, 0 => true
  | p :: ps, n + 1 => !p.rst && noRstWithin ps n

end Sys2Proof.Machine
end

