-- ==== Sys2Proof/Machine/Temperature.lean ====
section
/-! DEFINITION. The temperature decoder (43_temperature_decoder.md): a pure function from the two temperature bytes to a
binary64. Magnitudes count sixteenths of a degree and are exact naturals until they are packed (R96). -/

namespace Sys2Proof.Machine

/-- `I(lo, hi) = (hi[2:0] << 4) | lo[7:4]` (R91). -/
def intPart (lo hi : Byte) : BitVec 7 := hi.extractLsb' 0 3 ++ lo.extractLsb' 4 4

/-- `lo[3:0]`, the fraction in sixteenths (R92). -/
def fracSixteenths (lo : Byte) : BitVec 4 := lo.extractLsb' 0 4

/-- `N11(lo, hi) = {hi[2:0], lo[7:0]}` (R93). -/
def n11 (lo hi : Byte) : BitVec 11 := hi.extractLsb' 0 3 ++ lo

/-- `N12(lo, hi) = {hi[3:0], lo[7:0]}` (R94). -/
def n12 (lo hi : Byte) : BitVec 12 := hi.extractLsb' 0 4 ++ lo

/-- `Pack(s, M)` (R95): the binary64 of `(-1)^s * M / 16`, for `M` from 0 to 2048. The bit layout is the spec's,
general knowledge there (G10). -/
def pack (sign : Bool) (m : Nat) : Double :=
  if m = 0 then 0#64
  else
    let p := Nat.log2 m
    BitVec.ofBool sign ++ BitVec.ofNat 11 (1019 + p) ++ BitVec.ofNat 52 ((m - 2 ^ p) * 2 ^ (52 - p))

/-- `PackSigned(N12)` (R94). -/
def packSigned (n : BitVec 12) : Double :=
  if n.getLsbD 11 then pack true (4096 - n.toNat) else pack false n.toNat

/-- `DecodeTemp(lo, hi)` (R90). -/
def decodeTemp (decodeSigned : Bool) (lo hi : Byte) : Double :=
  if decodeSigned then packSigned (n12 lo hi) else pack false (n11 lo hi).toNat

end Sys2Proof.Machine
end

