-- ==== Sys2Proof/Machine/Commits.lean ====
section
/-! DEFINITION. The `commit { }` of each kind of command (10_state.md R27): the writes to host-visible state, all in the
completion tick. Each is used by the command's meaning and by the reference sequencer (70_reset_and_hazards.md R140). -/

namespace Sys2Proof.Machine

/-- `commit { ERR <- 0 }` (R66, R68). -/
def State.commitNothing (s : State) : State := s.complete .ok

/-- `commit { RXDATA <- v; ERR <- 0 }` (R67, R69). -/
def State.commitRx (v : Byte) (s : State) : State := { s with rxdata := v }.complete .ok

/-- `commit { PRESENT <- PRES_T; ERR <- 0 }` (R65, R78, R81, R83, R84). -/
def State.commitPresence (s : State) : State := { s with present := s.hid.presT }.complete .ok

/-- The three endings of INIT and the two of READ_ROM share the first: no device, `ERR = 1` (R111). -/
def State.raiseNoDevice (s : State) : State := { s with present := false }.raise .noDevice

/-- The end of READ_ROM (R77). -/
def State.commitReadRom (s : State) : State :=
  if s.hid.presT then { s with present := true, rbuf := firstEight s.hid.stg }.complete .ok
  else s.raiseNoDevice

/-- INIT finds the wrong family code: `ERR = 2` (R80, R113). -/
def State.raiseMismatch (s : State) : State :=
  { s with present := true, rbuf := firstEight s.hid.stg, romValid := false }.raise .deviceMismatch

/-- INIT succeeds (R80). -/
def State.commitInitOk (s : State) : State :=
  { s with
    present := true
    rbuf := firstEight s.hid.stg
    rom := firstEight s.hid.stg
    romValid := true }.complete .ok

/-- The end of INIT (R80, R115): `NO_DEVICE` before `DEVICE_MISMATCH`; only byte 0 is compared. -/
def State.commitInit (s : State) : State :=
  if s.hid.presT then
    if s.hid.stg[0] = s.cfg.familyCode then s.commitInitOk else s.raiseMismatch
  else { s with romValid := false }.raiseNoDevice

/-- `commit { PRESENT <- PRES_T; SCR <- STG; SCR_VALID <- 1; ERR <- 0 }` (R86). -/
def State.commitScratchpad (s : State) : State :=
  { s with present := s.hid.presT, scr := s.hid.stg, scrValid := true }.complete .ok

/-- The commit of READ_TEMPERATURE (R87). -/
def State.commitTemperature (s : State) : State :=
  { s with
    present := s.hid.presT
    scr := s.hid.stg
    scrValid := true
    temp := decodeTemp s.cfg.decodeSigned s.hid.stg[0] s.hid.stg[1]
    tempValid := true }.complete .ok

end Sys2Proof.Machine
end

