-- ==== Sys2Proof/Machine/Procedures.lean ====
section
/-! DEFINITION. The procedures every command is built from, transcribed from the spec's pseudocode: WriteBit, ReadBit,
WriteByte, ReadByte, ResetBus (40_bus_primitives.md R60 to R64), ReadRom, MatchRom (41_rom_commands.md R75, R76),
ReadScratchpad (42_sensor_commands.md R85), and the two access widths of the line (20_memory.md R33). -/

namespace Sys2Proof.Machine

/-- `WriteBit(b)` (R60). -/
def State.writeBit (b : Bool) (s : State) : State :=
  let s := s.driveLow
  let s := s.delay Config.tWL
  let s := if b then s.release else s
  let s := s.delay Config.tWH
  let s := s.release
  s.delay Config.tWREC

/-- `ReadBit() -> b` (R61). -/
def State.readBit (s : State) : Bool × State :=
  let s := s.driveLow
  let s := s.delay Config.tRL
  let s := s.release
  let s := s.delay Config.tRS
  let r := s.sample
  (r.1, r.2.delay Config.tRP)

/-- `WriteByte(v)` (R62): eight write slots, least significant bit first. -/
def State.writeByte (v : Byte) (s : State) : State :=
  (lsbFirst v).foldl (fun s b => s.writeBit b) s

/-- Bytes sent one after the other (R33, R70). -/
def State.writeBytes (vs : List Byte) (s : State) : State :=
  vs.foldl (fun s v => s.writeByte v) s

/-- One position of `ReadByte` (R63): `v[i] <- ReadBit()`. -/
def State.readBitAt (r : Byte × State) (i : Nat) : Byte × State :=
  let q := r.2.readBit
  (setBit r.1 i q.1, q.2)

/-- `ReadByte() -> v` (R63). -/
def State.readByte (s : State) : Byte × State :=
  [0, 1, 2, 3, 4, 5, 6, 7].foldl State.readBitAt (0#8, s)

/-- `STG[k] <- ReadByte()` (R75, R85). -/
def State.readByteTo (s : State) (k : Fin 9) : State :=
  let r := s.readByte
  r.2.stage k r.1

/-- `STG[k] <- ReadByte()` for `k` = 0 to 7 (R75). -/
def State.readEight (s : State) : State :=
  ([0, 1, 2, 3, 4, 5, 6, 7] : List (Fin 9)).foldl State.readByteTo s

/-- `STG[k] <- ReadByte()` for `k` = 0 to 8 (R85). -/
def State.readNine (s : State) : State :=
  ([0, 1, 2, 3, 4, 5, 6, 7, 8] : List (Fin 9)).foldl State.readByteTo s

/-- `ResetBus()` (R64); the result is `PRES_T`. -/
def State.resetBus (s : State) : State :=
  let s := s.driveLow
  let s := s.delay Config.tRSTL
  let s := s.release
  let s := s.delay Config.tPDS
  let r := s.sample
  (r.2.delay Config.tRSTR).setPresT (!r.1)

/-- `ReadRom()` (R75): with no device nothing more is sent; the results are `PRES_T` and `STG[0..7]`. -/
def State.readRom (s : State) : State :=
  let s := s.resetBus
  if s.hid.presT then (s.writeByte s.cfg.cmdReadRom).readEight else s

/-- `MatchRom()` (R76): whatever the presence result and `ROM_VALID` are. -/
def State.matchRom (s : State) : State :=
  let s := s.resetBus
  (s.writeByte s.cfg.cmdMatchRom).writeBytes s.rom.toList

/-- `ReadScratchpad()` (R85); the result is `STG[0..8]`. -/
def State.readScratchpad (s : State) : State :=
  let s := s.matchRom
  (s.writeByte s.cfg.cmdReadScratchpad).readNine

/-- The two access widths of the line (R33). -/
inductive LineWidth where
  | bit | byte
deriving DecidableEq, Repr

/-- `MemWrite(BUS, n, v)` for `n` = 1 or 8 (R9, R33, R73). -/
def State.memWrite (n : LineWidth) (v : Byte) (s : State) : State :=
  match n with
  | .bit => s.writeBit (v.getLsbD 0)
  | .byte => s.writeByte v

/-- `MemRead(BUS, n)` for `n` = 1 or 8; a 1-bit load is zero-extended (R9, R33, R73). -/
def State.memRead (n : LineWidth) (s : State) : Byte × State :=
  match n with
  | .bit => (zextBit s.readBit.1, s.readBit.2)
  | .byte => s.readByte

end Sys2Proof.Machine
end

