-- ==== Sys2Proof/Machine/BusPrimitives.lean ====
section
/-! DEFINITION. The five bus primitives (40_bus_primitives.md R65 to R69). A meaning takes the state at the start tick to
the state at the completion tick (30_encoding.md R49); `CMDR` was written at acceptance. -/

namespace Sys2Proof.Machine

/-- RESET_BUS (R65). -/
def execResetBus (s : State) : Host.Outcome State Fault Refusal :=
  .next s.resetBus.commitPresence

/-- WRITE_BIT bit (R66). -/
def execWriteBit (bit : Bool) (s : State) : Host.Outcome State Fault Refusal :=
  .next (s.writeBit bit).commitNothing

/-- READ_BIT (R67). -/
def execReadBit (s : State) : Host.Outcome State Fault Refusal :=
  .next (s.readBit.2.commitRx (zextBit s.readBit.1))

/-- WRITE_BYTE byte (R68). -/
def execWriteByte (byte : Byte) (s : State) : Host.Outcome State Fault Refusal :=
  .next (s.writeByte byte).commitNothing

/-- READ_BYTE (R69). -/
def execReadByte (s : State) : Host.Outcome State Fault Refusal :=
  .next (s.readByte.2.commitRx s.readByte.1)

end Sys2Proof.Machine
end

