-- ==== Sys2Proof/Machine/RomCommands.lean ====
section
/-! DEFINITION. The two ROM commands (41_rom_commands.md R77, R78). -/

namespace Sys2Proof.Machine

/-- READ_ROM (R77). -/
def execReadRom (s : State) : Host.Outcome State Fault Refusal :=
  .next s.readRom.commitReadRom

/-- MATCH_ROM (R78). -/
def execMatchRom (s : State) : Host.Outcome State Fault Refusal :=
  .next s.matchRom.commitPresence

end Sys2Proof.Machine
end

