-- ==== Sys2Proof/Machine/SensorCommands.lean ====
section
/-! DEFINITION. The six sensor commands (42_sensor_commands.md R80 to R87). None looks at `ROM_VALID`, `PRESENT` or `ERR`
(R89). -/

namespace Sys2Proof.Machine

/-- INIT (R80). -/
def execInit (s : State) : Host.Outcome State Fault Refusal :=
  .next s.readRom.commitInit

/-- START_CONVERSION (R81). -/
def execStartConversion (s : State) : Host.Outcome State Fault Refusal :=
  .next (s.matchRom.writeByte s.cfg.cmdConvertT).commitPresence

/-- WRITE_SCRATCHPAD highAlarm, lowAlarm, config (R83). -/
def execWriteScratchpad (highAlarm lowAlarm config : Byte) (s : State) :
    Host.Outcome State Fault Refusal :=
  .next ((s.matchRom.writeByte s.cfg.cmdWriteScratchpad).writeBytes
    (scratchpadOperands highAlarm lowAlarm config)).commitPresence

/-- COPY_SCRATCHPAD (R84). -/
def execCopyScratchpad (s : State) : Host.Outcome State Fault Refusal :=
  .next (s.matchRom.writeByte s.cfg.cmdCopyScratchpad).commitPresence

/-- READ_SCRATCHPAD (R86). -/
def execReadScratchpad (s : State) : Host.Outcome State Fault Refusal :=
  .next s.readScratchpad.commitScratchpad

/-- READ_TEMPERATURE (R87). -/
def execReadTemperature (s : State) : Host.Outcome State Fault Refusal :=
  .next s.readScratchpad.commitTemperature

end Sys2Proof.Machine
end

