-- ==== Sys2Proof/Machine/Dispatch.lean ====
section
/-! DEFINITION. One arm per command, each one call of the command's meaning. -/

namespace Sys2Proof.Machine

def exec (i : Instr) (s : State) : Host.Outcome State Fault Refusal :=
  match i with
  | .resetBus => Sys2Proof.Machine.execResetBus s
  | .writeBit bit => Sys2Proof.Machine.execWriteBit bit s
  | .readBit => Sys2Proof.Machine.execReadBit s
  | .writeByte byte => Sys2Proof.Machine.execWriteByte byte s
  | .readByte => Sys2Proof.Machine.execReadByte s
  | .readRom => Sys2Proof.Machine.execReadRom s
  | .matchRom => Sys2Proof.Machine.execMatchRom s
  | .init => Sys2Proof.Machine.execInit s
  | .startConversion => Sys2Proof.Machine.execStartConversion s
  | .writeScratchpad highAlarm lowAlarm config => Sys2Proof.Machine.execWriteScratchpad highAlarm lowAlarm config s
  | .copyScratchpad => Sys2Proof.Machine.execCopyScratchpad s
  | .readScratchpad => Sys2Proof.Machine.execReadScratchpad s
  | .readTemperature => Sys2Proof.Machine.execReadTemperature s

end Sys2Proof.Machine
end

