-- ==== Sys2Proof/Machine/ReadPort.lean ====
section
/-! DEFINITION. The host's read port (20_memory.md R31, R32): a combinational function of `raddr` and the state, with no side
effect. -/

namespace Sys2Proof.Machine

/-- Four bytes as a word, the lower index in the less significant lane (R32). -/
def packLanes (b0 b1 b2 b3 : Byte) : Word := b3 ++ b2 ++ b1 ++ b0

/-- `HostRead(i)` (R31); indices 12 to 15 are reserved and read 0 (R44). -/
def hostRead (s : State) (i : BitVec 4) : Word :=
  match i.toNat with
  | 0 => s.statusWord
  | 1 => s.rxdata.setWidth 32
  | 2 => packLanes s.rbuf[0] s.rbuf[1] s.rbuf[2] s.rbuf[3]
  | 3 => packLanes s.rbuf[4] s.rbuf[5] s.rbuf[6] s.rbuf[7]
  | 4 => packLanes s.rom[0] s.rom[1] s.rom[2] s.rom[3]
  | 5 => packLanes s.rom[4] s.rom[5] s.rom[6] s.rom[7]
  | 6 => packLanes s.scr[0] s.scr[1] s.scr[2] s.scr[3]
  | 7 => packLanes s.scr[4] s.scr[5] s.scr[6] s.scr[7]
  | 8 => s.scr[8].setWidth 32
  | 9 => s.temp.extractLsb' 0 32
  | 10 => s.temp.extractLsb' 32 32
  | 11 => s.cmdr
  | _ => 0#32

/-- The output port `rdata` in the current tick (R26, R31). -/
def State.rdata (s : State) : Word := hostRead s s.port.raddr

end Sys2Proof.Machine
end

