-- ==== Sys2Proof/Machine/Sequencer.lean ====
section
/-! DEFINITION. One tick of the block, `S(t+1) = f(S(t), inputs(t))` (00_scope.md R5): reset, acceptance, idling, and the
reference sequencer's walk through a running operation (70_reset_and_hazards.md R140). -/

namespace Sys2Proof.Machine

/-- What one step of a command's sequence puts on the line (R140, the table of steps). -/
inductive Transfer where
  /-- The reset/presence slot. -/
  | resetSlot
  | bytesOut (bytes : List Byte)
  /-- Bytes in, to `STG[0..n-1]`. -/
  | bytesIn (n : Nat)
  | bitOut (bit : Bool)
  | bitIn
deriving DecidableEq, Repr

/-- The length of a phase in ticks (R140); `IDLE` has none. -/
def Phase.ticks : Phase → Nat
  | .idle => 1
  | .rstLow => Config.tRSTL
  | .rstWait => Config.tPDS
  | .rstRec => Config.tRSTR
  | .wLow => Config.tWL
  | .wHold => Config.tWH
  | .wRec => Config.tWREC
  | .rLow => Config.tRL
  | .rWait => Config.tRS
  | .rPad => Config.tRP

/-- `ow_oe` in a phase, `b` the bit being written (R140). -/
def Phase.drives (b : Bool) : Phase → Bool
  | .rstLow | .wLow | .rLow => true
  | .wHold => !b
  | .idle | .rstWait | .rstRec | .wRec | .rWait | .rPad => false

/-- The two steps by which a command resets the bus and addresses the cached device (R140, `MatchRom`). -/
def matchSteps (s : State) : List (SeqStep × Transfer) :=
  [(.sReset, .resetSlot), (.sRomCmd, .bytesOut [s.cfg.cmdMatchRom]), (.sRomData, .bytesOut s.rom.toList)]

/-- The steps by which a command reads the ROM code (R140, `ReadRom`). -/
def readRomSteps (s : State) : List (SeqStep × Transfer) :=
  [(.sReset, .resetSlot), (.sRomCmd, .bytesOut [s.cfg.cmdReadRom]), (.sRomData, .bytesIn 8)]

/-- The steps of a command, in order (R140). -/
def stepsOf (i : Instr) (s : State) : List (SeqStep × Transfer) :=
  match i with
  | .resetBus => [(.sReset, .resetSlot)]
  | .writeBit bit => [(.sData, .bitOut bit)]
  | .readBit => [(.sData, .bitIn)]
  | .writeByte byte => [(.sData, .bytesOut [byte])]
  | .readByte => [(.sData, .bytesIn 1)]
  | .readRom => readRomSteps s
  | .matchRom => matchSteps s
  | .init => readRomSteps s
  | .startConversion => matchSteps s ++ [(.sFunc, .bytesOut [s.cfg.cmdConvertT])]
  | .writeScratchpad highAlarm lowAlarm config =>
    matchSteps s ++ [(.sFunc, .bytesOut [s.cfg.cmdWriteScratchpad]),
      (.sData, .bytesOut (scratchpadOperands highAlarm lowAlarm config))]
  | .copyScratchpad => matchSteps s ++ [(.sFunc, .bytesOut [s.cfg.cmdCopyScratchpad])]
  | .readScratchpad => matchSteps s ++ [(.sFunc, .bytesOut [s.cfg.cmdReadScratchpad]), (.sData, .bytesIn 9)]
  | .readTemperature => matchSteps s ++ [(.sFunc, .bytesOut [s.cfg.cmdReadScratchpad]), (.sData, .bytesIn 9)]

/-- Whether an absent device ends the command after its reset slot (R140: READ_ROM and INIT). -/
def endsWhenAbsent : Instr → Bool
  | .readRom | .init => true
  | .resetBus | .writeBit _ | .readBit | .writeByte _ | .readByte | .matchRom | .startConversion
  | .writeScratchpad _ _ _ | .copyScratchpad | .readScratchpad | .readTemperature => false

/-- The commit of a command whose last step has ended (R140, R27). A received byte of READ_BIT or READ_BYTE is in
`SHR`. -/
def commitOf (i : Instr) (s : State) : State :=
  match i with
  | .resetBus => s.commitPresence
  | .writeBit _ => s.commitNothing
  | .readBit => s.commitRx s.hid.shr
  | .writeByte _ => s.commitNothing
  | .readByte => s.commitRx s.hid.shr
  | .readRom => s.commitReadRom
  | .matchRom => s.commitPresence
  | .init => s.commitInit
  | .startConversion => s.commitPresence
  | .writeScratchpad _ _ _ => s.commitPresence
  | .copyScratchpad => s.commitPresence
  | .readScratchpad => s.commitScratchpad
  | .readTemperature => s.commitTemperature

/-- Entering a phase: `TMR` is loaded with its length minus one and the pin follows the phase (R140). -/
def State.enterPhase (ph : Phase) (s : State) : State :=
  { s with
    seq := ph
    owOe := ph.drives (s.hid.shr.getLsbD s.hid.bitI.val)
    hid := { s.hid with tmr := Fin.ofNat 480 (ph.ticks - 1) } }

/-- The first slot of a byte: `BYTE_I`, `BIT_I` and `SHR` are loaded (R140). -/
def State.enterByte (k : Nat) (shr : Byte) (ph : Phase) (s : State) : State :=
  { s with hid := { s.hid with byteI := Fin.ofNat 9 k, bitI := 0, shr := shr } }.enterPhase ph

/-- The first phase of a step (R140). A received byte starts as 0x00 (R63). -/
def State.enterStep (st : SeqStep × Transfer) (s : State) : State :=
  let s := { s with hid := { s.hid with step := st.1 } }
  match st.2 with
  | .resetSlot => s.enterByte 0 0#8 .rstLow
  | .bytesOut bytes => s.enterByte 0 (bytes.headD 0#8) .wLow
  | .bytesIn _ => s.enterByte 0 0#8 .rLow
  | .bitOut bit => s.enterByte 0 (zextBit bit) .wLow
  | .bitIn => s.enterByte 0 0#8 .rLow

/-- The steps after the running one. -/
def stepsAfter (st : SeqStep) : List (SeqStep × Transfer) → List (SeqStep × Transfer)
  | [] => []
  | x :: xs => if x.1 = st then xs else stepsAfter st xs

/-- The transfer of the running step. -/
def transferOf (st : SeqStep) : List (SeqStep × Transfer) → Option Transfer
  | [] => none
  | x :: xs => if x.1 = st then some x.2 else transferOf st xs

/-- The end of a walk the tables of R140 do not describe: the block is idle, with no commit (DESIGN CHOICE, unsafe, log entry
8: no run reaches it). -/
def State.strayEnd (s : State) : State := { s with busy := false, seq := .idle, owOe := false }

/-- The end of a step (R140): the next step, or the commit, in the same tick. In a step the command does not have there is no
next step, so the command commits (DESIGN CHOICE, unsafe, log entry 8: no run reaches it). -/
def State.stepEnd (i : Instr) (s : State) : State :=
  if endsWhenAbsent i && decide (s.hid.step = .sReset) && !s.hid.presT then commitOf i s
  else match stepsAfter s.hid.step (stepsOf i s) with
    | [] => commitOf i s
    | st :: _ => s.enterStep st

/-- The same slot kind for the next bit of the byte (R140, "Next bit"). -/
def State.nextBit (ph : Phase) (s : State) : State :=
  { s with hid := { s.hid with bitI := s.hid.bitI + 1 } }.enterPhase ph

/-- The end of a write or read slot (R140, "Next bit"): the next bit, the next byte, or the end of the step. A received
byte goes to `STG[BYTE_I]`. The transfer of the step decides, not the kind of the slot (DESIGN CHOICE, unsafe, log entry 8: in
every run the two agree). -/
def State.slotEnd (i : Instr) (s : State) : State :=
  match transferOf s.hid.step (stepsOf i s) with
  | none => s.strayEnd
  | some .resetSlot => s.stepEnd i
  | some (.bitOut _) => s.stepEnd i
  | some .bitIn => s.stepEnd i
  | some (.bytesOut bytes) =>
    if s.hid.bitI.val < 7 then s.nextBit .wLow
    else match bytes[s.hid.byteI.val + 1]? with
      | some v => s.enterByte (s.hid.byteI.val + 1) v .wLow
      | none => s.stepEnd i
  | some (.bytesIn n) =>
    if s.hid.bitI.val < 7 then s.nextBit .rLow
    else
      let s := s.stage s.hid.byteI s.hid.shr
      if s.hid.byteI.val + 1 < n then s.enterByte (s.hid.byteI.val + 1) 0#8 .rLow else s.stepEnd i

/-- The end of a phase (R140, the table of phases). -/
def State.phaseEnd (i : Instr) (s : State) : State :=
  match s.seq with
  | .idle => s.strayEnd
  | .rstLow => s.enterPhase .rstWait
  | .rstWait => s.enterPhase .rstRec
  | .rstRec => s.stepEnd i
  | .wLow => s.enterPhase .wHold
  | .wHold => s.enterPhase .wRec
  | .wRec => s.slotEnd i
  | .rLow => s.enterPhase .rWait
  | .rWait => s.enterPhase .rPad
  | .rPad => s.slotEnd i

/-- The sample of a phase, in its first tick (R140): `PRES_T <- ¬ow_in` in `RST_REC`, `SHR[BIT_I] <- ow_in` in
`R_PAD`. The first tick is the one in which `TMR` is the length minus one, also where `TMR` is greater before (DESIGN CHOICE,
unsafe, log entry 8: no run reaches a greater `TMR`). -/
def State.phaseSample (s : State) : State :=
  if s.hid.tmr.val = s.seq.ticks - 1 then
    match s.seq with
    | .rstRec => s.sample.2.setPresT (!s.sample.1)
    | .rPad =>
      { s.sample.2 with hid := { s.hid with shr := setBit s.hid.shr s.hid.bitI.val s.sample.1 } }
    | .idle | .rstLow | .rstWait | .wLow | .wHold | .wRec | .rLow | .rWait => s
  else s

/-- One tick of a running operation: the phase's sample, the tick itself, then `TMR` counts down or the phase ends.
What the host presents has no effect (R50). -/
def State.busyTick (s : State) : State :=
  let s := s.phaseSample.delay 1
  if s.hid.tmr.val = 0 then
    match decode s.cmdr with
    | .ok i => s.phaseEnd i
    | .error _ => s.strayEnd
  else { s with hid := { s.hid with tmr := s.hid.tmr - 1 } }

/-- Acceptance of a legal word: the start tick shows the first phase of the command (R49, R140). -/
def State.start (i : Instr) (w : Word) (s : State) : State :=
  match stepsOf i s with
  | [] => commitOf i (s.accept w)
  | st :: _ => (s.accept w).enterStep st

/-- One tick of the block (R5): `rst` first (R130), then a running operation, then acceptance (R49), else an idle tick. -/
def State.tick (s : State) : State :=
  if s.port.rst then s.resetTick
  else if s.busy then s.busyTick
  else if s.port.cmdValid then
    match decode s.port.cmdWord with
    | .ok i => s.start i s.port.cmdWord
    | .error _ => s.acceptIllegal s.port.cmdWord
  else s.delay 1

/-- `n` ticks. -/
def ticks : Nat → State → State
  | 0, s => s
  | n + 1, s => ticks n s.tick

end Sys2Proof.Machine
end

