-- ==== Sys2Proof/Machine/Fetch.lean ====
section
/-! DEFINITION. How a command reaches the block: the handshake of 30_encoding.md R49, R50, whether an operation runs to its
completion tick, and the host presenting one word. -/

namespace Sys2Proof.Machine

/-- The command accepted in this tick, if a legal word is (R49: `rst = 0`, `cmd_valid = 1`, `BUSY = 0`). -/
def State.acceptedCommand (s : State) : Option Instr :=
  if !s.port.rst && s.port.cmdValid && !s.busy then (decode s.port.cmdWord).toOption else none

/-- No `rst` falls in the operation that was accepted at `s` and completes at `t`: in the ticks from the start tick up
to the one before the completion tick (R49, R130). -/
def runsToCompletion (s t : State) : Bool := noRstWithin (s.inputs.drop 1) (t.now - (s.now + 1))

/-- The host presents `w` in the current tick and nothing after it. -/
def State.presentWord (w : Word) (s : State) : State := { s with inputs := [⟨false, true, w, 0#4⟩] }

/-- The block idle, as acceptance needs it (R49: `BUSY = 0`, with `SEQ = IDLE` and `ow_oe = 0`). -/
def State.madeIdle (s : State) : State := { s with busy := false, seq := .idle, owOe := false }

end Sys2Proof.Machine
end

