-- ==== Sys2Proof/Machine/Step.lean ====
section
/-! DEFINITION. One step of the machine, and the placing of a word where the next step takes it. -/

namespace Sys2Proof.Machine

/-- One step. Where a legal word is accepted and no `rst` falls in its operation, the step is the whole operation, from
acceptance to the completion tick (D7: "a big-step semantics per command"); in every other state it is one tick of the
block: an idle tick, an illegal word, a `rst`, or one tick of an operation that a `rst` will cut short (log entry 6). -/
def step (s : State) : Host.Outcome State Fault Refusal :=
  match s.acceptedCommand with
  | some i =>
    match exec i (s.accept s.port.cmdWord) with
    | .next t => .next (if runsToCompletion s t then t else s.tick)
    | .fault r => .fault r
    | .refused r => .refused r
  | none => .next s.tick

/-- `s` with a word on `cmd_word` in the current tick, so that the next step accepts it and runs it. A word is accepted
only when the block is idle, so a busy `s` is made idle (log entry 9). -/
def State.withFetchWord (s : State) (nbits w : Nat) : State :=
  s.madeIdle.presentWord (BitVec.ofNat 32 (w % 2 ^ nbits))

end Sys2Proof.Machine
end

