-- ==== Sys2Proof/Machine/Assembler.lean ====
section
/-! DEFINITION. The assembler of 30_encoding.md R53, R54: the text of a line, the words it stands for, and the errors. White
space, blank lines and the case of hexadecimal digits are the model's choice (log entry 11). -/

namespace Sys2Proof.Machine

/-- What a listing gives the host to do: present a word, or let ticks pass (R53, R54). -/
inductive ListingItem where
  | word (w : Word)
  | wait (n : Nat)
deriving DecidableEq, Repr

/-- Why a line does not assemble. -/
inductive AsmError where
  | unknownMnemonic
  | badNumber
  /-- The number of operands, or the range of one (R53: "an assembly error, not a truncation"). -/
  | badOperands
deriving DecidableEq, Repr

/-- The command of a mnemonic with operands in range (R45, R53). -/
def instrOf : Mnemonic → List Nat → Option Instr
  | .RESET_BUS, [] => some .resetBus
  | .WRITE_BIT, [bit] => some (.writeBit (bit == 1))
  | .READ_BIT, [] => some .readBit
  | .WRITE_BYTE, [byte] => some (.writeByte (BitVec.ofNat 8 byte))
  | .READ_BYTE, [] => some .readByte
  | .READ_ROM, [] => some .readRom
  | .MATCH_ROM, [] => some .matchRom
  | .INIT, [] => some .init
  | .START_CONVERSION, [] => some .startConversion
  | .WRITE_SCRATCHPAD, [highAlarm, lowAlarm, config] =>
    some (.writeScratchpad (BitVec.ofNat 8 highAlarm) (BitVec.ofNat 8 lowAlarm) (BitVec.ofNat 8 config))
  | .COPY_SCRATCHPAD, [] => some .copyScratchpad
  | .READ_SCRATCHPAD, [] => some .readScratchpad
  | .READ_TEMPERATURE, [] => some .readTemperature
  | _, _ => none

/-- The items of a line (R53, R54): `SEND_FUNCTION byte` is `MATCH_ROM` then `WRITE_BYTE byte`; `WAIT n` encodes to no
word. -/
def assemble (l : SourceLine) : Except AsmError (List ListingItem) :=
  if l.wellFormed then
    match l with
    | .command m operands =>
      match instrOf m operands with
      | some i => .ok [.word (encode i)]
      | none => .error .badOperands
    | .sendFunction operands =>
      .ok [.word (encode .matchRom), .word (encode (.writeByte (BitVec.ofNat 8 (operands.headD 0))))]
    | .wait operands => .ok [.wait (operands.headD 0)]
  else .error .badOperands

/-- The text of each mnemonic (R45). -/
def mnemonicTexts : List (List Char × Mnemonic) :=
  [("RESET_BUS".toList, .RESET_BUS), ("WRITE_BIT".toList, .WRITE_BIT), ("READ_BIT".toList, .READ_BIT),
   ("WRITE_BYTE".toList, .WRITE_BYTE), ("READ_BYTE".toList, .READ_BYTE), ("READ_ROM".toList, .READ_ROM),
   ("MATCH_ROM".toList, .MATCH_ROM), ("INIT".toList, .INIT),
   ("START_CONVERSION".toList, .START_CONVERSION), ("WRITE_SCRATCHPAD".toList, .WRITE_SCRATCHPAD),
   ("COPY_SCRATCHPAD".toList, .COPY_SCRATCHPAD), ("READ_SCRATCHPAD".toList, .READ_SCRATCHPAD),
   ("READ_TEMPERATURE".toList, .READ_TEMPERATURE)]

/-- Spaces and tabs. -/
def isBlank (c : Char) : Bool := c == ' ' || c == '\t'

/-- A piece of text without the blanks around it. -/
def trimBlanks (t : List Char) : List Char :=
  ((t.dropWhile isBlank).reverse.dropWhile isBlank).reverse

/-- The value of a digit in a base up to 16. -/
def digitValue (base : Nat) (c : Char) : Option Nat :=
  let v :=
    if '0' ≤ c ∧ c ≤ '9' then some (c.toNat - '0'.toNat)
    else if 'a' ≤ c ∧ c ≤ 'f' then some (c.toNat - 'a'.toNat + 10)
    else if 'A' ≤ c ∧ c ≤ 'F' then some (c.toNat - 'A'.toNat + 10)
    else none
  v.filter (fun d => decide (d < base))

/-- The value of a row of digits, most significant first. -/
def digitsValue (base : Nat) : Nat → List Char → Option Nat
  | acc, [] => some acc
  | acc, c :: cs =>
    match digitValue base c with
    | some d => digitsValue base (acc * base + d) cs
    | none => none

/-- An operand: decimal, or `0x` and hexadecimal digits (R53). -/
def parseNumber (t : List Char) : Option Nat :=
  match t with
  | '0' :: 'x' :: d :: ds => digitsValue 16 0 (d :: ds)
  | d :: ds => digitsValue 10 0 (d :: ds)
  | [] => none

/-- A text cut at its commas. -/
def splitCommas : List Char → List Char → List (List Char)
  | acc, [] => [acc.reverse]
  | acc, c :: cs => if c == ',' then acc.reverse :: splitCommas [] cs else splitCommas (c :: acc) cs

/-- The operands after a mnemonic. -/
def parseOperands (t : List Char) : Option (List Nat) :=
  if t.isEmpty then some []
  else (splitCommas [] t).mapM (fun p => parseNumber (trimBlanks p))

/-- A line of a listing (R53): `;` starts a comment to the end of the line; a line with nothing else is no line. -/
def parseLine (t : List Char) : Except AsmError (Option SourceLine) :=
  let t := trimBlanks (t.takeWhile (fun c => c != ';'))
  if t.isEmpty then .ok none
  else
    let name := t.takeWhile (fun c => !isBlank c)
    match parseOperands (trimBlanks (t.dropWhile (fun c => !isBlank c))) with
    | none => .error .badNumber
    | some operands =>
      if name = "SEND_FUNCTION".toList then .ok (some (.sendFunction operands))
      else if name = "WAIT".toList then .ok (some (.wait operands))
      else match mnemonicTexts.find? (fun e => e.1 == name) with
        | some e => .ok (some (.command e.2 operands))
        | none => .error .unknownMnemonic

end Sys2Proof.Machine
end

