-- ==== Sys2Proof/Machine/Listing.lean ====
section
/-! DEFINITION. The host semantics of a listing (30_encoding.md R53, R54; 70_reset_and_hazards.md R141): the words in
order, each presented at the first tick with `cmd_ready` = 1 after the previous one completed; `WAIT n` lets `n` idle
ticks pass. The run has ended when the last word's completion tick is reached. -/

namespace Sys2Proof.Machine

/-- A run of a listing from an idle block. -/
def runListing : List ListingItem → State → Host.Outcome State Fault Refusal
  | [], s => .next s
  | .wait n :: items, s => runListing items (s.delay n)
  | .word w :: items, s =>
    match step (s.presentWord w) with
    | .next t => runListing items t
    | .fault r => .fault r
    | .refused r => .refused r

end Sys2Proof.Machine
end

