-- ==== Sys2Proof/Safety.lean ====
section
/-! DEFINITION. The terms in which claims speak of a run: the waveform a command puts on the line as a list of segments
(30_encoding.md R52, R60, R61, R64), the levels its samples read, the value of a binary64, and the invariants of the
machine. -/

namespace Sys2Proof.Machine

/-! Waveforms. A segment is a level of `ow_oe` and a number of ticks. -/

/-- The ticks of a waveform. -/
def segTicks : List (Bool × Nat) → Nat
  | [] => 0
  | g :: gs => g.2 + segTicks gs

/-- The record of `ow_oe` with a waveform added. -/
def addSegs (gs : List (Bool × Nat)) (w : List Run) : List Run :=
  gs.foldl (fun w g => pushRun g.1 g.2 w) w

/-- A write slot: low at offset 0, `¬b` at offsets 1 to 59, released at offset 60 (R60). -/
def writeSlotSegs (b : Bool) : List (Bool × Nat) := [(true, 1), (!b, 59), (false, 1)]

/-- A read slot: low at offset 0 only, 61 ticks (R61). -/
def readSlotSegs : List (Bool × Nat) := [(true, 1), (false, 60)]

/-- The reset slot: low at offsets 0 to 479, released at 480 to 959 (R64). -/
def resetSlotSegs : List (Bool × Nat) := [(true, 480), (false, 480)]

/-- `TX(v)`: eight write slots, least significant bit first (R52, R62). -/
def byteOutSegs (v : Byte) : List (Bool × Nat) := (lsbFirst v).flatMap writeSlotSegs

/-- Bytes sent one after the other (R70). -/
def bytesOutSegs (vs : List Byte) : List (Bool × Nat) := vs.flatMap byteOutSegs

/-- `RX`: eight read slots (R52, R63). -/
def byteInSegs : List (Bool × Nat) := (List.replicate 8 readSlotSegs).flatten

/-- `RX` `n` times (R52). -/
def bytesInSegs (n : Nat) : List (Bool × Nat) := (List.replicate n byteInSegs).flatten

/-- The MATCH_ROM frame (R52): `RST TX(CMD_MATCH_ROM) TX(ROM[0]) ... TX(ROM[7])`. -/
def matchRomSegs (s : State) : List (Bool × Nat) :=
  resetSlotSegs ++ bytesOutSegs (s.cfg.cmdMatchRom :: s.rom.toList)

/-- The READ_ROM frame with a device present (R52): `RST TX(CMD_READ_ROM) RX×8`. -/
def readRomSegs (s : State) : List (Bool × Nat) :=
  resetSlotSegs ++ byteOutSegs s.cfg.cmdReadRom ++ bytesInSegs 8

/-! Samples. -/

/-- The offsets of the eight samples of a byte read from offset `off` on (R63). -/
def byteInOffsets (off : Nat) : List Nat :=
  [off + 16, off + 77, off + 138, off + 199, off + 260, off + 321, off + 382, off + 443]

/-- The offsets of the samples of `n` bytes read from offset `off` on (R75, R85). -/
def bytesInOffsets : Nat → Nat → List Nat
  | 0, _ => []
  | n + 1, off => byteInOffsets off ++ bytesInOffsets n (off + 488)

/-- The level the `j`-th coming sample (counting from 0) reads if it is taken at offset `off` from now with the line
released (R37). -/
def State.levelAt (s : State) (j off : Nat) : Bool := s.lineIn.getD j (Config.owIn (s.now + off))

/-- The byte of eight bits, the first of them bit 0 (R34). -/
def byteOfBits (b0 b1 b2 b3 b4 b5 b6 b7 : Bool) : Byte :=
  BitVec.ofBoolListLE [b0, b1, b2, b3, b4, b5, b6, b7]

/-- The byte that the coming samples `j` to `j + 7` spell when it is read from offset `off` on (R63). -/
def State.byteIn (s : State) (j off : Nat) : Byte :=
  byteOfBits (s.levelAt j (off + 16)) (s.levelAt (j + 1) (off + 77)) (s.levelAt (j + 2) (off + 138))
    (s.levelAt (j + 3) (off + 199)) (s.levelAt (j + 4) (off + 260)) (s.levelAt (j + 5) (off + 321))
    (s.levelAt (j + 6) (off + 382)) (s.levelAt (j + 7) (off + 443))

/-- The record of the samples taken at the given offsets, the first of them the `j`-th coming sample. -/
def State.samplesFrom (s : State) : Nat → List Nat → List SampleAt → List SampleAt
  | _, [], log => log
  | j, off :: offs, log => s.samplesFrom (j + 1) offs (⟨s.now + off, s.levelAt j off⟩ :: log)

/-- The state after a waveform that ends with the line released and takes samples at the given offsets: only time, the
records, the inputs and the pin have moved. -/
def State.afterLine (gs : List (Bool × Nat)) (offs : List Nat) (s : State) : State :=
  { s with
    owOe := false
    now := s.now + segTicks gs
    inputs := s.inputs.drop (segTicks gs)
    wave := addSegs gs s.wave
    lineIn := s.lineIn.drop offs.length
    sampled := s.samplesFrom 0 offs s.sampled }

/-- Eight bytes read in a row from offset `off` on, the first bit the `j`-th coming sample (R75). -/
def State.eightIn (s : State) (j off : Nat) : Vector Byte 8 :=
  #v[s.byteIn j off, s.byteIn (j + 8) (off + 488), s.byteIn (j + 16) (off + 976), s.byteIn (j + 24) (off + 1464),
     s.byteIn (j + 32) (off + 1952), s.byteIn (j + 40) (off + 2440), s.byteIn (j + 48) (off + 2928),
     s.byteIn (j + 56) (off + 3416)]

/-- Nine bytes read in a row (R85). -/
def State.nineIn (s : State) (j off : Nat) : Vector Byte 9 :=
  (s.eightIn j off).push (s.byteIn (j + 64) (off + 3904))

/-- The duration of a command, given whether its reset slot finds a device (R52). -/
def duration (present : Bool) : Instr → Nat
  | .resetBus => 960
  | .writeBit _ | .readBit => 61
  | .writeByte _ | .readByte => 488
  | .readRom | .init => if present then 5352 else 960
  | .matchRom => 5352
  | .startConversion | .copyScratchpad => 5840
  | .writeScratchpad _ _ _ => 7304
  | .readScratchpad | .readTemperature => 10232

/-- Whether a command's sequence contains `ResetBus()` (10_state.md R12). -/
def hasResetSlot : Instr → Bool
  | .writeBit _ | .readBit | .writeByte _ | .readByte => false
  | .resetBus | .readRom | .matchRom | .init | .startConversion | .writeScratchpad _ _ _
  | .copyScratchpad | .readScratchpad | .readTemperature => true

/-- The command being executed: the one in `CMDR` while `BUSY` (R22, R42). -/
def State.runningCommand (s : State) : Option Instr :=
  if s.busy then (decode s.cmdr).toOption else none

/-! The value of a binary64 (43_temperature_decoder.md R95, G10), for zeros and normal numbers. -/

def doubleExponent (d : Double) : Nat := (d.extractLsb' 52 11).toNat
def doubleFraction (d : Double) : Nat := (d.extractLsb' 0 52).toNat

/-- Not a NaN, an infinity, a subnormal or -0.0 (R96). -/
def plainDouble (d : Double) : Bool :=
  (d == 0#64) || (decide (0 < doubleExponent d) && decide (doubleExponent d < 2047))

/-- The number a plain binary64 stands for. -/
def doubleValue (d : Double) : ℚ :=
  if d = 0#64 then 0
  else (if d.getLsbD 63 then -1 else 1) * (1 + (doubleFraction d : ℚ) / 2 ^ 52) *
    (2 : ℚ) ^ ((doubleExponent d : ℤ) - 1023)

/-! Invariants. -/

/-- No run is empty and neighbouring runs differ. -/
def runsAlternate : List Run → Bool
  | [] => true
  | [r] => decide (0 < r.ticks)
  | r :: q :: rs => decide (0 < r.ticks) && (r.low != q.low) && runsAlternate (q :: rs)

/-- The ticks of a record. -/
def runTicks : List Run → Nat
  | [] => 0
  | r :: rs => r.ticks + runTicks rs

/-- The record of `ow_oe` accounts for every past tick once. -/
def State.recordInv (s : State) : Bool := runsAlternate s.wave && (runTicks s.wave == s.now)

/-- The pin follows the sequencer, and `BUSY` is 0 exactly in `IDLE` (R11, R24, R140); a running command is legal. -/
def State.pinInv (s : State) : Bool :=
  (s.busy == (s.seq != .idle)) &&
  (s.owOe == s.seq.drives (s.hid.shr.getLsbD s.hid.bitI.val)) &&
  (!s.busy || (decode s.cmdr).toOption.isSome)

/-- `ROM[0] = FAMILY_CODE` while `ROM_VALID = 1` (R19); `NO_DEVICE` goes with `PRESENT = 0`, `DEVICE_MISMATCH` with
`PRESENT = 1` and `ROM_VALID = 0` (R110); `TEMP_VALID` is set only with `SCR_VALID` (R14, R15); `TEMP` is no NaN,
infinity, subnormal or -0.0 (R96). -/
def State.statusInv (s : State) : Bool :=
  (!s.romValid || (s.rom[0] == s.cfg.familyCode)) &&
  (s.err != .noDevice || !s.present) &&
  (s.err != .deviceMismatch || (s.present && !s.romValid)) &&
  (!s.tempValid || s.scrValid) &&
  plainDouble s.temp

end Sys2Proof.Machine
end

