-- ==== Sys2Proof/Certificates/Slice0/Obligations.lean ====
section
/-! DEFINITION. The statements about the block, from the numbered rules of spec/. A statement about a command says its whole
next state: the waveform, the samples, the registers written, and (by the record update) that nothing else changes. -/

open Sys2Proof Sys2Proof.Machine

/-! ## Encoding -/

/-- Words written out from 30_encoding.md R45 to R48 (vectors V-E1 to V-E27) decode as the table says. -/
def Obligations.TableWordsDecode : Prop :=
  decode 0x10FFFFFF#32 = .ok .resetBus ∧
  decode 0x200000FE#32 = .ok (.writeBit false) ∧
  decode 0x20FFFFFF#32 = .ok (.writeBit true) ∧
  decode 0x30000000#32 = .ok .readBit ∧
  decode 0x40ABCD91#32 = .ok (.writeByte 0x91#8) ∧
  decode 0x50000000#32 = .ok .readByte ∧
  decode 0x60000000#32 = .ok .readRom ∧
  decode 0x70000000#32 = .ok .matchRom ∧
  decode 0x80000000#32 = .ok .init ∧
  decode 0x90000000#32 = .ok .startConversion ∧
  decode 0xA03FC97D#32 = .ok (.writeScratchpad 0x7D#8 0xC9#8 0x3F#8) ∧
  decode 0xB0000000#32 = .ok .copyScratchpad ∧
  decode 0xC0000000#32 = .ok .readScratchpad ∧
  decode 0xD0000000#32 = .ok .readTemperature ∧
  decode 0x0FFFFFFF#32 = .error .reservedBits ∧
  decode 0xE0000000#32 = .error .reservedOpcode ∧
  decode 0x11000000#32 = .error .reservedBits

/-- R46, R47, R53: every command comes back from its canonical word, with every operand at every value. -/
def Obligations.DecodeOfEncodeIsTheCommand : Prop :=
  ∀ i : Instr, decode (encode i) = .ok i

/-- R47: a legal word and the canonical word of its command differ only in bits the format ignores. -/
def Obligations.EncodeOfDecodeKeepsUsedBits : Prop :=
  ∀ (w : Word) (i : Instr), decode w = .ok i → encode i = w &&& usedBits i

/-- R46: "A decoder selects the command by `word & 0xFF000000 == OP << 28`." -/
def Obligations.CommandSelectedByTopByte : Prop :=
  ∀ (w : Word) (op : BitVec 4), 1 ≤ op.toNat → op.toNat ≤ 13 →
    ((∃ i, decode w = .ok i ∧ opcode i = op) ↔ w &&& 0xFF000000#32 = op.setWidth 32 <<< 28)

/-- R48: a word is illegal exactly when `OP` is 0x0, 0xE or 0xF, or `RSV` is not 0. -/
def Obligations.IllegalWordsAreTheReserved : Prop :=
  ∀ w : Word, (∃ e, decode w = .error e) ↔
    (w.extractLsb' 28 4 = 0x0#4 ∨ w.extractLsb' 28 4 = 0xE#4 ∨ w.extractLsb' 28 4 = 0xF#4 ∨
      w.extractLsb' 24 4 ≠ 0x0#4)

/-- R47: `bit = A0[0]`; `byte = A0`; `highAlarm = A0`, `lowAlarm = A1`, `config = A2`. -/
def Obligations.OperandsComeFromTheirFields : Prop :=
  ∀ w : Word,
    (∀ bit, decode w = .ok (.writeBit bit) → bit = w.getLsbD 0) ∧
    (∀ byte, decode w = .ok (.writeByte byte) → byte = w.extractLsb' 0 8) ∧
    (∀ hi lo c, decode w = .ok (.writeScratchpad hi lo c) →
      hi = w.extractLsb' 0 8 ∧ lo = w.extractLsb' 8 8 ∧ c = w.extractLsb' 16 8)

/-! ## The step -/

/-- R49: a legal word presented with `rst = 0`, `BUSY = 0` is accepted; from the start tick on, with the word in `CMDR`,
`BUSY` 1 and one tick gone, the step is the command's meaning, when no `rst` falls before its completion tick. -/
def Obligations.StepRunsTheAcceptedCommand : Prop :=
  ∀ (s t : State) (p : PortIn) (rest : List PortIn) (i : Instr),
    s.inputs = p :: rest → p.rst = false → p.cmdValid = true → s.busy = false → decode p.cmdWord = .ok i →
    exec i { s with
      cmdr := p.cmdWord, busy := true, now := s.now + 1, inputs := rest, wave := pushRun s.owOe 1 s.wave } = .next t →
    noRstWithin rest (t.now - (s.now + 1)) = true →
    step s = .next t

/-- The model's choice (log entry 6; R130): an operation that a `rst` will cut short goes tick by tick. -/
def Obligations.InterruptedCommandGoesTickByTick : Prop :=
  ∀ (s t : State) (i : Instr), s.acceptedCommand = some i → exec i (s.accept s.port.cmdWord) = .next t →
    noRstWithin (s.inputs.drop 1) (t.now - (s.now + 1)) = false → step s = .next s.tick

/-- R114 (and R48): an accepted illegal word changes `CMDR` and `ERR` and nothing else of the block. -/
def Obligations.IllegalWordOnlySetsErr : Prop :=
  ∀ (s : State) (p : PortIn) (rest : List PortIn),
    s.inputs = p :: rest → p.rst = false → p.cmdValid = true → s.busy = false →
    (p.cmdWord.extractLsb' 28 4 = 0x0#4 ∨ p.cmdWord.extractLsb' 28 4 = 0xE#4 ∨ p.cmdWord.extractLsb' 28 4 = 0xF#4 ∨
      p.cmdWord.extractLsb' 24 4 ≠ 0x0#4) →
    step s = .next { s with
      cmdr := p.cmdWord, err := .illegalCmd, now := s.now + 1, inputs := rest, wave := pushRun s.owOe 1 s.wave }

/-- R28: whatever the block was doing, a tick with `rst = 1` leaves the reset values. -/
def Obligations.RstGivesTheResetValues : Prop :=
  ∀ (s : State), s.port.rst = true →
    ∃ t, step s = .next t ∧ t.busy = false ∧ t.present = false ∧ t.romValid = false ∧ t.scrValid = false ∧
      t.tempValid = false ∧ t.err = .ok ∧ t.rxdata = 0x00#8 ∧ t.rbuf = Vector.replicate 8 0x00#8 ∧
      t.rom = Vector.replicate 8 0x00#8 ∧ t.scr = Vector.replicate 9 0x00#8 ∧ t.temp = 0x0000000000000000#64 ∧
      t.cmdr = 0x00000000#32 ∧ t.owOe = false ∧ t.seq = .idle ∧ t.now = s.now + 1 ∧ t.cfg = s.cfg

/-- R28: the state right after reset, with the default parameters of R7 and R8. -/
def Obligations.ResetStateHasTheStatedValues : Prop :=
  (State.reset.busy, State.reset.present, State.reset.romValid, State.reset.scrValid, State.reset.tempValid,
    State.reset.err, State.reset.owOe, State.reset.seq) = (false, false, false, false, false, .ok, false, .idle) ∧
  (∀ i : BitVec 4, hostRead State.reset i = 0#32) ∧ State.reset.cmdReady = true

/-- R49: with nothing presented an idle block only lets a tick pass. -/
def Obligations.IdleTickOnlyPassesTime : Prop :=
  ∀ (s : State), s.busy = false → s.port.rst = false → s.port.cmdValid = false →
    step s = .next { s with now := s.now + 1, inputs := s.inputs.drop 1, wave := pushRun s.owOe 1 s.wave }

/-- R50: a word presented while `BUSY = 1` or `rst = 1` has no effect on any state. -/
def Obligations.DroppedWordHasNoEffect : Prop :=
  ∀ (s : State) (p q : PortIn) (rest : List PortIn), p.rst = q.rst → (s.busy = true ∨ p.rst = true) →
    step { s with inputs := p :: rest } = step { s with inputs := q :: rest }

/-- R43, R50: a running command does not look at what the host presents. -/
def Obligations.CommandIgnoresTheHostPorts : Prop :=
  ∀ (i : Instr) (s t : State) (ps : List PortIn), exec i s = .next t →
    exec i { s with inputs := ps } = .next { t with inputs := ps.drop (t.now - s.now) }

/-- R141: "A run cannot hang": every state has a next state, some ticks later, with the same parameters. -/
def Obligations.StepAlwaysAdvances : Prop :=
  ∀ s : State, ∃ t, step s = .next t ∧ s.now < t.now ∧ t.cfg = s.cfg

/-! ## The sequencer, tick by tick -/

/-- R42: while `BUSY = 1` every word of the read port but `STATUS` and `CMDR` reads as before the operation, `STATUS` bit 0
reads 1, its other fields as before, and `CMDR` the command being executed. -/
def Obligations.ReadsWhileBusyShowOldValues : Prop :=
  (∀ (s : State) (i : Instr), s.acceptedCommand = some i →
    (∀ a : BitVec 4, a ≠ 0#4 → a ≠ 11#4 → hostRead s.tick a = hostRead s a) ∧
    hostRead s.tick 0#4 = hostRead s 0#4 ||| 1#32 ∧ hostRead s.tick 11#4 = s.port.cmdWord) ∧
  (∀ s : State, s.busy = true → s.port.rst = false → s.tick.busy = true →
    ∀ a : BitVec 4, hostRead s.tick a = hostRead s a)

/-- R140: the reference sequencer, run tick by tick from acceptance to the completion tick, ends in the very state that the
command's pseudocode gives, its waveform and its samples included. -/
def Obligations.SequencerEqualsPseudocode : Prop :=
  ∀ (s t : State) (i : Instr), s.acceptedCommand = some i → exec i (s.accept s.port.cmdWord) = .next t →
    noRstWithin (s.inputs.drop 1) (t.now - (s.now + 1)) = true → ticks (t.now - s.now) s = t

/-- R11: `BUSY` is 1 exactly during the ticks of an operation, up to a `rst` that cuts it short (R130): at `k` ticks after
acceptance it is 1 when no `rst` fell in the ticks between, and at the completion tick it is 0. -/
def Obligations.BusyExactlyDuringTheOperation : Prop :=
  ∀ (s t : State) (i : Instr), s.acceptedCommand = some i → exec i (s.accept s.port.cmdWord) = .next t →
    s.busy = false ∧ t.busy = false ∧
    ∀ k, 1 ≤ k → k < t.now - s.now → noRstWithin (s.inputs.drop 1) (k - 1) = true → (ticks k s).busy = true

/-- R60, R61, R64: `ow_oe` in every tick of a slot, from the start tick (offset 0) on: a write slot drives low at offset 0 and,
for a 0, up to offset 59; a read slot at offset 0 only; the reset slot at offsets 0 to 479. At offset `k` only the ticks before
it must be free of `rst`, so a slot that a `rst` cuts short is as stated up to the tick of the `rst` (R130, vector V-H6). -/
def Obligations.SlotsDriveThePinTickByTick : Prop :=
  ∀ (s : State) (k : Nat), noRstWithin (s.inputs.drop 1) k = true →
    (∀ bit, s.acceptedCommand = some (.writeBit bit) → k < 61 →
      (ticks (k + 1) s).busy = true ∧ (ticks (k + 1) s).owOe = decide (k = 0 ∨ (bit = false ∧ k < 60))) ∧
    (s.acceptedCommand = some .readBit → k < 61 →
      (ticks (k + 1) s).busy = true ∧ (ticks (k + 1) s).owOe = decide (k = 0)) ∧
    (s.acceptedCommand = some .resetBus → k < 960 →
      (ticks (k + 1) s).busy = true ∧ (ticks (k + 1) s).owOe = decide (k < 480))

/-! ## The bus primitives

In this section and the next two, `afterLine` is the waveform and the samples of the command (Sys2Proof/Safety.lean): only the
pin, the time, the inputs and the two records move (log entry 7), and `levelAt`, `byteIn` are what the samples read (R37; log
entry 4). The hidden registers hold any value after the completion tick (R25). -/

/-- R65 (and R64). -/
def Obligations.ResetBusReportsPresence : Prop :=
  (∀ w : Word, w &&& 0xFF000000#32 = 0x10000000#32 → decode w = .ok .resetBus) ∧
  encode .resetBus = 0x10000000#32 ∧
  ∀ s : State, ∃ hid, exec .resetBus s = .next { s.afterLine resetSlotSegs [540] with
    present := !s.levelAt 0 540, err := .ok, busy := false, seq := .idle, hid := hid }

/-- R66 (and R60). -/
def Obligations.WriteBitPutsOneSlot : Prop :=
  (∀ w : Word, w &&& 0xFF000000#32 = 0x20000000#32 → decode w = .ok (.writeBit (w.getLsbD 0))) ∧
  encode (.writeBit false) = 0x20000000#32 ∧ encode (.writeBit true) = 0x20000001#32 ∧
  ∀ (bit : Bool) (s : State), ∃ hid, exec (.writeBit bit) s = .next { s.afterLine (writeSlotSegs bit) [] with
    err := .ok, busy := false, seq := .idle, hid := hid }

/-- R67 (and R61). -/
def Obligations.ReadBitStoresTheSample : Prop :=
  (∀ w : Word, w &&& 0xFF000000#32 = 0x30000000#32 → decode w = .ok .readBit) ∧
  encode .readBit = 0x30000000#32 ∧
  ∀ s : State, ∃ hid, exec .readBit s = .next { s.afterLine readSlotSegs [16] with
    rxdata := if s.levelAt 0 16 then 0x01#8 else 0x00#8
    err := .ok, busy := false, seq := .idle, hid := hid }

/-- R68 (and R62). -/
def Obligations.WriteBytePutsEightSlots : Prop :=
  (∀ w : Word, w &&& 0xFF000000#32 = 0x40000000#32 → decode w = .ok (.writeByte (w.extractLsb' 0 8))) ∧
  (∀ byte : Byte, encode (.writeByte byte) = 0x40000000#32 ||| byte.setWidth 32) ∧
  ∀ (byte : Byte) (s : State), ∃ hid, exec (.writeByte byte) s = .next { s.afterLine (byteOutSegs byte) [] with
    err := .ok, busy := false, seq := .idle, hid := hid }

/-- R69 (and R63). -/
def Obligations.ReadByteStoresEightSamples : Prop :=
  (∀ w : Word, w &&& 0xFF000000#32 = 0x50000000#32 → decode w = .ok .readByte) ∧
  encode .readByte = 0x50000000#32 ∧
  ∀ s : State, (∃ hid, exec .readByte s = .next { s.afterLine byteInSegs (byteInOffsets 0) with
    rxdata := s.byteIn 0 0, err := .ok, busy := false, seq := .idle, hid := hid }) ∧
    ∀ v : Byte, s.lineIn.take 8 = lsbFirst v → s.byteIn 0 0 = v

/-- R69, the source's round trip (vector S1): if the line echoes the bits of a byte, READ_BYTE returns the byte. -/
def Obligations.EchoedByteComesBack : Prop :=
  ∀ (v : Byte) (s : State), s.lineIn.take 8 = lsbFirst v →
    ∃ t, exec .readByte s = .next t ∧ t.rxdata = v ∧ t.lineIn = s.lineIn.drop 8

/-! ## The ROM commands -/

/-- R77 (and R75): with no device nothing more is sent; with one, the code is read. -/
def Obligations.ReadRomReadsTheCode : Prop :=
  (∀ w : Word, w &&& 0xFF000000#32 = 0x60000000#32 → decode w = .ok .readRom) ∧
  encode .readRom = 0x60000000#32 ∧
  ∀ s : State,
    (s.levelAt 0 540 = true → ∃ hid, exec .readRom s = .next { s.afterLine resetSlotSegs [540] with
      present := false, err := .noDevice, busy := false, seq := .idle, hid := hid }) ∧
    (s.levelAt 0 540 = false →
      ∃ hid, exec .readRom s = .next { s.afterLine (readRomSegs s) (540 :: bytesInOffsets 8 1448) with
        present := true, rbuf := s.eightIn 1 1448
        err := .ok, busy := false, seq := .idle, hid := hid })

/-- R78 (and R76). -/
def Obligations.MatchRomSendsTheCachedCode : Prop :=
  (∀ w : Word, w &&& 0xFF000000#32 = 0x70000000#32 → decode w = .ok .matchRom) ∧
  encode .matchRom = 0x70000000#32 ∧
  ∀ s : State, ∃ hid, exec .matchRom s = .next { s.afterLine (matchRomSegs s) [540] with
    present := !s.levelAt 0 540, err := .ok, busy := false, seq := .idle, hid := hid }

/-! ## The sensor commands -/

/-- R80: no device; a device of another family; success, which caches the ROM code. -/
def Obligations.InitCachesTheRomCode : Prop :=
  (∀ w : Word, w &&& 0xFF000000#32 = 0x80000000#32 → decode w = .ok .init) ∧
  encode .init = 0x80000000#32 ∧
  ∀ s : State,
    (s.levelAt 0 540 = true → ∃ hid, exec .init s = .next { s.afterLine resetSlotSegs [540] with
      present := false, romValid := false, err := .noDevice, busy := false, seq := .idle, hid := hid }) ∧
    (s.levelAt 0 540 = false → s.byteIn 1 1448 ≠ s.cfg.familyCode →
      ∃ hid, exec .init s = .next { s.afterLine (readRomSegs s) (540 :: bytesInOffsets 8 1448) with
        present := true, rbuf := s.eightIn 1 1448, romValid := false
        err := .deviceMismatch, busy := false, seq := .idle, hid := hid }) ∧
    (s.levelAt 0 540 = false → s.byteIn 1 1448 = s.cfg.familyCode →
      ∃ hid, exec .init s = .next { s.afterLine (readRomSegs s) (540 :: bytesInOffsets 8 1448) with
        present := true, rbuf := s.eightIn 1 1448, rom := s.eightIn 1 1448, romValid := true
        err := .ok, busy := false, seq := .idle, hid := hid })

/-- R81. -/
def Obligations.StartConversionAddressesAndSends : Prop :=
  (∀ w : Word, w &&& 0xFF000000#32 = 0x90000000#32 → decode w = .ok .startConversion) ∧
  encode .startConversion = 0x90000000#32 ∧
  ∀ s : State, ∃ hid, exec .startConversion s =
    .next { s.afterLine (matchRomSegs s ++ byteOutSegs s.cfg.cmdConvertT) [540] with
      present := !s.levelAt 0 540, err := .ok, busy := false, seq := .idle, hid := hid }

/-- R83: the configuration byte is sent with bits 0 to 4 forced to 1 and bit 7 to 0. -/
def Obligations.WriteScratchpadSendsThreeBytes : Prop :=
  (∀ w : Word, w &&& 0xFF000000#32 = 0xA0000000#32 → decode w = .ok
    (.writeScratchpad (w.extractLsb' 0 8) (w.extractLsb' 8 8) (w.extractLsb' 16 8))) ∧
  (∀ high low c : Byte, encode (.writeScratchpad high low c) =
    0xA0000000#32 ||| (c.setWidth 32 <<< 16) ||| (low.setWidth 32 <<< 8) ||| high.setWidth 32) ∧
  ∀ (high low c : Byte) (s : State), ∃ hid, exec (.writeScratchpad high low c) s =
    .next { s.afterLine (matchRomSegs s ++
        bytesOutSegs [s.cfg.cmdWriteScratchpad, high, low, (c ||| 0x1F#8) &&& 0x7F#8]) [540] with
      present := !s.levelAt 0 540, err := .ok, busy := false, seq := .idle, hid := hid }

/-- R84. -/
def Obligations.CopyScratchpadAddressesAndSends : Prop :=
  (∀ w : Word, w &&& 0xFF000000#32 = 0xB0000000#32 → decode w = .ok .copyScratchpad) ∧
  encode .copyScratchpad = 0xB0000000#32 ∧
  ∀ s : State, ∃ hid, exec .copyScratchpad s =
    .next { s.afterLine (matchRomSegs s ++ byteOutSegs s.cfg.cmdCopyScratchpad) [540] with
      present := !s.levelAt 0 540, err := .ok, busy := false, seq := .idle, hid := hid }

/-- R86 (and R85). -/
def Obligations.ReadScratchpadStoresNineBytes : Prop :=
  (∀ w : Word, w &&& 0xFF000000#32 = 0xC0000000#32 → decode w = .ok .readScratchpad) ∧
  encode .readScratchpad = 0xC0000000#32 ∧
  ∀ s : State, ∃ hid, exec .readScratchpad s =
    .next { s.afterLine (matchRomSegs s ++ byteOutSegs s.cfg.cmdReadScratchpad ++ bytesInSegs 9)
        (540 :: bytesInOffsets 9 5840) with
      present := !s.levelAt 0 540, scr := s.nineIn 1 5840, scrValid := true
      err := .ok, busy := false, seq := .idle, hid := hid }

/-- R87. -/
def Obligations.ReadTemperatureDecodesTwoBytes : Prop :=
  (∀ w : Word, w &&& 0xFF000000#32 = 0xD0000000#32 → decode w = .ok .readTemperature) ∧
  encode .readTemperature = 0xD0000000#32 ∧
  ∀ s : State, ∃ hid, exec .readTemperature s =
    .next { s.afterLine (matchRomSegs s ++ byteOutSegs s.cfg.cmdReadScratchpad ++ bytesInSegs 9)
        (540 :: bytesInOffsets 9 5840) with
      present := !s.levelAt 0 540, scr := s.nineIn 1 5840, scrValid := true
      temp := decodeTemp s.cfg.decodeSigned (s.byteIn 1 5840) (s.byteIn 9 6328), tempValid := true
      err := .ok, busy := false, seq := .idle, hid := hid }

/-- R38 (vector S6): READ_SCRATCHPAD twice in a row with the same levels on the line stores the same bytes, and puts the same
waveform on the line. -/
def Obligations.ReadScratchpadIsIdempotent : Prop :=
  ∀ (s : State) (levels rest : List Bool), levels.length = 73 → s.lineIn = levels ++ (levels ++ rest) →
    ∃ t u gs, exec .readScratchpad s = .next t ∧ exec .readScratchpad t = .next u ∧
      u.scr = t.scr ∧ u.scrValid = t.scrValid ∧ u.present = t.present ∧ u.romValid = t.romValid ∧
      u.tempValid = t.tempValid ∧ u.err = t.err ∧ u.temp = t.temp ∧ u.rom = t.rom ∧ u.rbuf = t.rbuf ∧
      u.rxdata = t.rxdata ∧
      segTicks gs = 10232 ∧ t.wave = addSegs gs s.wave ∧ u.wave = addSegs gs t.wave

/-! ## All commands -/

/-- R52: the duration of each command depends on the command alone, and for READ_ROM and INIT on the presence sample. -/
def Obligations.DurationsAreAsListed : Prop :=
  ∀ (i : Instr) (s : State), ∃ t, exec i s = .next t ∧ t.now = s.now + duration (!s.levelAt 0 540) i

/-- R27: which command writes what; a blank means never. -/
def Obligations.WritersTable : Prop :=
  ∀ (i : Instr) (s t : State), exec i s = .next t →
    t.present = (if hasResetSlot i then !s.levelAt 0 540 else s.present) ∧
    (i ≠ .readBit → i ≠ .readByte → t.rxdata = s.rxdata) ∧
    (i ≠ .readRom → i ≠ .init → t.rbuf = s.rbuf ∧ t.err = .ok) ∧
    (t.present = false → t.rbuf = s.rbuf) ∧
    (i = .readRom → t.err = .ok ∨ t.err = .noDevice) ∧
    (i = .init → (t.err = .ok ∨ t.err = .noDevice ∨ t.err = .deviceMismatch) ∧
      (t.romValid = true ↔ t.err = .ok) ∧ (t.err ≠ .ok → t.rom = s.rom)) ∧
    (i ≠ .init → t.rom = s.rom ∧ t.romValid = s.romValid) ∧
    (i = .readScratchpad ∨ i = .readTemperature → t.scrValid = true) ∧
    (i ≠ .readScratchpad → i ≠ .readTemperature → t.scr = s.scr ∧ t.scrValid = s.scrValid) ∧
    (i = .readTemperature → t.tempValid = true) ∧
    (i ≠ .readTemperature → t.temp = s.temp ∧ t.tempValid = s.tempValid) ∧
    t.busy = false ∧ t.owOe = false ∧ t.cmdr = s.cmdr ∧ t.cfg = s.cfg

/-- R111: `NO_DEVICE` is raised by READ_ROM and INIT alone, at the end of the reset slot, and stops the sequence there. -/
def Obligations.NoDeviceRaisedByReadRomAndInit : Prop :=
  ∀ (i : Instr) (s t : State), exec i s = .next t →
    (t.err = .noDevice ↔ (i = .readRom ∨ i = .init) ∧ s.levelAt 0 540 = true) ∧
    (t.err = .noDevice → t.now = s.now + 960 ∧ t.wave = addSegs resetSlotSegs s.wave ∧
      t.sampled = ⟨s.now + 540, true⟩ :: s.sampled ∧ t.present = false ∧ t.rbuf = s.rbuf ∧ t.rom = s.rom ∧
      t.romValid = (if i = .init then false else s.romValid)) ∧
    (hasResetSlot i = true → i ≠ .readRom → i ≠ .init → s.levelAt 0 540 = true → t.present = false ∧ t.err = .ok)

/-- R113: `DEVICE_MISMATCH` is raised by INIT alone, after the eight bytes, when the first differs from the family code. -/
def Obligations.DeviceMismatchRaisedByInit : Prop :=
  ∀ (i : Instr) (s t : State), exec i s = .next t →
    (t.err = .deviceMismatch ↔ i = .init ∧ s.levelAt 0 540 = false ∧ s.byteIn 1 1448 ≠ s.cfg.familyCode) ∧
    (t.err = .deviceMismatch → t.now = s.now + 5352 ∧ t.present = true ∧ t.rbuf = s.eightIn 1 1448 ∧
      t.romValid = false ∧ t.rom = s.rom)

/-- R89, R23: no command is gated: `ROM_VALID`, `PRESENT`, `ERR` and the other flags change nothing of what a command puts on
the line, when it ends, and what it stores. -/
def Obligations.FlagsGateNothing : Prop :=
  ∀ (i : Instr) (s t : State) (present romValid scrValid tempValid : Bool) (err : ErrCode), exec i s = .next t →
    ∃ u, exec i { s with
        present := present, romValid := romValid, scrValid := scrValid, tempValid := tempValid, err := err } = .next u ∧
      u.wave = t.wave ∧ u.sampled = t.sampled ∧ u.lineIn = t.lineIn ∧ u.now = t.now ∧ u.err = t.err ∧
      u.rxdata = t.rxdata ∧ u.rbuf = t.rbuf ∧ u.rom = t.rom ∧ u.scr = t.scr ∧ u.temp = t.temp

/-! ## The whole machine -/

/-- R19: `ROM` is written only at the commit of an INIT that completes with `ERR = 0` (and by `rst`, R28). -/
def Obligations.OnlyInitChangesRom : Prop :=
  ∀ s t : State, step s = .next t → t.rom ≠ s.rom →
    s.port.rst = true ∨
      ((s.acceptedCommand = some .init ∨ s.runningCommand = some .init) ∧ t.err = .ok ∧ t.romValid = true ∧
        t.rbuf = t.rom)

/-- R14, R15: `SCR_VALID` and `TEMP_VALID` are cleared only by reset. -/
def Obligations.ValidFlagsClearedOnlyByReset : Prop :=
  ∀ s t : State, step s = .next t → s.port.rst = false →
    (s.scrValid = true → t.scrValid = true) ∧ (s.tempValid = true → t.tempValid = true)

/-- R12: `PRESENT` changes only by `rst` or when a command with a reset slot completes. -/
def Obligations.OnlyResetSlotsChangePresent : Prop :=
  ∀ s t : State, step s = .next t → t.present ≠ s.present →
    s.port.rst = true ∨
      ∃ i, (s.acceptedCommand = some i ∨ s.runningCommand = some i) ∧ hasResetSlot i = true ∧ t.busy = false

/-- R19, R110, R14, R15, R96: the relations between the status flags and the registers. -/
def Obligations.StepKeepsStatusInvariant : Prop :=
  ∀ s t : State, s.statusInv = true → step s = .next t → t.statusInv = true

/-- R11, R24, R140: the pin follows the sequencer and `BUSY` is 0 exactly in `IDLE`. -/
def Obligations.StepKeepsPinInvariant : Prop :=
  ∀ s t : State, s.pinInv = true → step s = .next t → t.pinInv = true

/-- R24: `ow_oe` is 0 whenever `BUSY` is 0 (in a state that meets the pin invariant). -/
def Obligations.LineReleasedWhenIdle : Prop :=
  ∀ s t : State, s.pinInv = true → step s = .next t → t.busy = false → t.owOe = false ∧ t.seq = .idle

/-- The model's record (log entry 7) of the waveform that R142 makes normative, with the ticks of R5, accounts for every past
tick once; at which level, `EveryTickRecordsThePin` says. -/
def Obligations.StepKeepsTheRecord : Prop :=
  ∀ s t : State, s.recordInv = true → step s = .next t → t.recordInv = true

/-- The three invariants hold right after reset. -/
def Obligations.ResetMeetsTheInvariants : Prop :=
  State.reset.statusInv = true ∧ State.reset.pinInv = true ∧ State.reset.recordInv = true

/-! ## Arithmetic -/

/-- R82: bits 6 and 5 pass unchanged, bits 4 to 0 are 1 and bit 7 is 0, so the result is one of four bytes. -/
def Obligations.NormConfigForcesBits : Prop :=
  ∀ c : Byte, normConfig c = (c ||| 0x1F#8) &&& 0x7F#8 ∧ (normConfig c).getLsbD 7 = false ∧
    (normConfig c).getLsbD 6 = c.getLsbD 6 ∧ (normConfig c).getLsbD 5 = c.getLsbD 5 ∧
    (normConfig c).extractLsb' 0 5 = 0x1F#5 ∧
    (normConfig c = 0x1F#8 ∨ normConfig c = 0x3F#8 ∨ normConfig c = 0x5F#8 ∨ normConfig c = 0x7F#8)

/-- R91, R92, R93: the reference decode is the integer part plus the fraction, exactly. -/
def Obligations.UnsignedDecodeValue : Prop :=
  ∀ lo hi : Byte, doubleValue (decodeTemp false lo hi) =
    (((hi.toNat % 8) * 16 + lo.toNat / 16 : ℕ) : ℚ) + ((lo.toNat % 16 : ℕ) : ℚ) / 16

/-- R94: the signed variant is the 12-bit two's-complement number of sixteenths, packed as sign and magnitude; for
`hi[7:3] = 0` the two variants return the same bits. -/
def Obligations.SignedDecodeValue : Prop :=
  (∀ lo hi : Byte, decodeTemp true lo hi =
    if (hi.toNat % 16) * 256 + lo.toNat < 2048 then pack false ((hi.toNat % 16) * 256 + lo.toNat)
    else pack true (4096 - ((hi.toNat % 16) * 256 + lo.toNat))) ∧
  (∀ lo hi : Byte, doubleValue (decodeTemp true lo hi) =
    ((if (hi.toNat % 16) * 256 + lo.toNat < 2048 then ((hi.toNat % 16) * 256 + lo.toNat : ℤ)
      else (hi.toNat % 16) * 256 + lo.toNat - 4096 : ℤ) : ℚ) / 16) ∧
  ∀ lo hi : Byte, hi.toNat < 8 → decodeTemp true lo hi = decodeTemp false lo hi

/-- R96: no result is a NaN, an infinity, a subnormal or -0.0. -/
def Obligations.DecodedTemperatureIsPlain : Prop :=
  ∀ (signed : Bool) (lo hi : Byte), plainDouble (decodeTemp signed lo hi) = true

/-- R95: `Pack(s, M)` is the binary64 of `(-1)^s × M / 16`, +0.0 for `M = 0`; with the examples of the rule. -/
def Obligations.PackEncodesTheValue : Prop :=
  (∀ (sign : Bool) (m : Nat), m ≤ 2048 → doubleValue (pack sign m) = (if sign then -1 else 1) * (m : ℚ) / 16) ∧
  (∀ sign : Bool, pack sign 0 = 0x0000000000000000#64) ∧
  (∀ (sign : Bool) (m : Nat), 1 ≤ m → m ≤ 2048 → (pack sign m).getLsbD 63 = sign ∧ doubleExponent (pack sign m) = 1019 + Nat.log2 m ∧
    doubleFraction (pack sign m) = (m - 2 ^ Nat.log2 m) * 2 ^ (52 - Nat.log2 m)) ∧
  pack false 401 = 0x4039100000000000#64 ∧ pack false 1 = 0x3FB0000000000000#64 ∧
  pack false 2047 = 0x405FFC0000000000#64 ∧ pack true 2048 = 0xC060000000000000#64

/-! ## The read port and the assembler -/

/-- R31, R32, R44: the read-port map, with the four codes of `ERR` (R16, R110), and the output port `cmd_ready` (R11, R26). -/
def Obligations.ReadPortMap : Prop :=
  ∀ s : State, s.rdata = hostRead s s.port.raddr ∧
    (hostRead s 0#4).getLsbD 0 = s.busy ∧ (hostRead s 0#4).getLsbD 1 = s.present ∧
    (hostRead s 0#4).getLsbD 2 = s.romValid ∧ (hostRead s 0#4).getLsbD 3 = s.scrValid ∧
    (hostRead s 0#4).getLsbD 4 = s.tempValid ∧ (hostRead s 0#4).extractLsb' 5 3 = 0#3 ∧
    (hostRead s 0#4).extractLsb' 8 2 = s.err.code ∧
    ErrCode.code .ok = 0#2 ∧ ErrCode.code .noDevice = 1#2 ∧ ErrCode.code .deviceMismatch = 2#2 ∧
    ErrCode.code .illegalCmd = 3#2 ∧ s.cmdReady = !s.busy ∧
    (hostRead s 0#4).extractLsb' 10 22 = 0#22 ∧
    hostRead s 1#4 = s.rxdata.setWidth 32 ∧
    (∀ k : Fin 4, (hostRead s 2#4).extractLsb' (8 * k.val) 8 = s.rbuf[k.val] ∧
      (hostRead s 3#4).extractLsb' (8 * k.val) 8 = s.rbuf[k.val + 4] ∧
      (hostRead s 4#4).extractLsb' (8 * k.val) 8 = s.rom[k.val] ∧
      (hostRead s 5#4).extractLsb' (8 * k.val) 8 = s.rom[k.val + 4] ∧
      (hostRead s 6#4).extractLsb' (8 * k.val) 8 = s.scr[k.val] ∧
      (hostRead s 7#4).extractLsb' (8 * k.val) 8 = s.scr[k.val + 4]) ∧
    hostRead s 8#4 = s.scr[8].setWidth 32 ∧ hostRead s 10#4 ++ hostRead s 9#4 = s.temp ∧ hostRead s 11#4 = s.cmdr ∧
    ∀ a : BitVec 4, 12 ≤ a.toNat → hostRead s a = 0#32

/-- R53, R54, with the opcodes of R45: which lines assemble, and to which words, mnemonic by mnemonic; every other line is an
assembly error, "not a truncation". That the operand of `WAIT` has no upper bound is the model's choice (log entry 11). -/
def Obligations.AssemblerTakesTheWellFormed : Prop :=
  (∀ l : SourceLine, (∃ items, assemble l = .ok items) ↔ l.wellFormed = true) ∧
  (∀ l : SourceLine, l.wellFormed = false → assemble l = .error .badOperands) ∧
  (∀ p ∈ [(Mnemonic.RESET_BUS, 0x10000000#32), (Mnemonic.READ_BIT, 0x30000000#32), (Mnemonic.READ_BYTE, 0x50000000#32),
      (Mnemonic.READ_ROM, 0x60000000#32), (Mnemonic.MATCH_ROM, 0x70000000#32), (Mnemonic.INIT, 0x80000000#32),
      (Mnemonic.START_CONVERSION, 0x90000000#32), (Mnemonic.COPY_SCRATCHPAD, 0xB0000000#32),
      (Mnemonic.READ_SCRATCHPAD, 0xC0000000#32), (Mnemonic.READ_TEMPERATURE, 0xD0000000#32)],
    ∀ ops items, assemble (.command p.1 ops) = .ok items ↔ ops = [] ∧ items = [.word p.2]) ∧
  (∀ ops items, assemble (.command .WRITE_BIT ops) = .ok items ↔
    ∃ b, b < 2 ∧ ops = [b] ∧ items = [.word (0x20000000#32 ||| BitVec.ofNat 32 b)]) ∧
  (∀ ops items, assemble (.command .WRITE_BYTE ops) = .ok items ↔
    ∃ b, b < 256 ∧ ops = [b] ∧ items = [.word (0x40000000#32 ||| BitVec.ofNat 32 b)]) ∧
  (∀ ops items, assemble (.command .WRITE_SCRATCHPAD ops) = .ok items ↔
    ∃ high low c, high < 256 ∧ low < 256 ∧ c < 256 ∧ ops = [high, low, c] ∧
      items = [.word (0xA0000000#32 ||| BitVec.ofNat 32 (c * 2 ^ 16) ||| BitVec.ofNat 32 (low * 2 ^ 8) |||
        BitVec.ofNat 32 high)]) ∧
  (∀ ops items, assemble (.sendFunction ops) = .ok items ↔
    ∃ b, b < 256 ∧ ops = [b] ∧ items = [.word 0x70000000#32, .word (0x40000000#32 ||| BitVec.ofNat 32 b)]) ∧
  (∀ ops items, assemble (.wait ops) = .ok items ↔ ∃ n, ops = [n] ∧ items = [.wait n])

/-! ## The record of the pin -/

/-- The model's record (log entry 7) holds each tick at the level that `ow_oe` had in it (R24, R142): a tick of the block, be it
idle, in an operation, at an acceptance or with `rst`, adds one tick at the level of the pin, whatever the pin is afterwards. -/
def Obligations.EveryTickRecordsThePin : Prop :=
  ∀ s : State, s.tick.wave = pushRun s.owOe 1 s.wave ∧ s.tick.now = s.now + 1 ∧ s.tick.inputs = s.inputs.drop 1
end

