-- ==== Sys2Proof/Laws/State.lean ====
section
/-! SUPPORT. For each named update of the state, what it leaves in each field, true by unfolding once, so that no later proof
unfolds a record update. -/

namespace Sys2Proof.Machine

variable (s : State)

/-! `State.driveLow` -/

@[simp] theorem State.driveLow_cfg : s.driveLow.cfg = s.cfg := rfl
@[simp] theorem State.driveLow_busy : s.driveLow.busy = s.busy := rfl
@[simp] theorem State.driveLow_present : s.driveLow.present = s.present := rfl
@[simp] theorem State.driveLow_romValid : s.driveLow.romValid = s.romValid := rfl
@[simp] theorem State.driveLow_scrValid : s.driveLow.scrValid = s.scrValid := rfl
@[simp] theorem State.driveLow_tempValid : s.driveLow.tempValid = s.tempValid := rfl
@[simp] theorem State.driveLow_err : s.driveLow.err = s.err := rfl
@[simp] theorem State.driveLow_rxdata : s.driveLow.rxdata = s.rxdata := rfl
@[simp] theorem State.driveLow_rbuf : s.driveLow.rbuf = s.rbuf := rfl
@[simp] theorem State.driveLow_rom : s.driveLow.rom = s.rom := rfl
@[simp] theorem State.driveLow_scr : s.driveLow.scr = s.scr := rfl
@[simp] theorem State.driveLow_temp : s.driveLow.temp = s.temp := rfl
@[simp] theorem State.driveLow_cmdr : s.driveLow.cmdr = s.cmdr := rfl
@[simp] theorem State.driveLow_owOe : s.driveLow.owOe = true := rfl
@[simp] theorem State.driveLow_seq : s.driveLow.seq = s.seq := rfl
@[simp] theorem State.driveLow_hid : s.driveLow.hid = s.hid := rfl
@[simp] theorem State.driveLow_inputs : s.driveLow.inputs = s.inputs := rfl
@[simp] theorem State.driveLow_lineIn : s.driveLow.lineIn = s.lineIn := rfl
@[simp] theorem State.driveLow_now : s.driveLow.now = s.now := rfl
@[simp] theorem State.driveLow_wave : s.driveLow.wave = s.wave := rfl
@[simp] theorem State.driveLow_sampled : s.driveLow.sampled = s.sampled := rfl

/-! `State.release` -/

@[simp] theorem State.release_cfg : s.release.cfg = s.cfg := rfl
@[simp] theorem State.release_busy : s.release.busy = s.busy := rfl
@[simp] theorem State.release_present : s.release.present = s.present := rfl
@[simp] theorem State.release_romValid : s.release.romValid = s.romValid := rfl
@[simp] theorem State.release_scrValid : s.release.scrValid = s.scrValid := rfl
@[simp] theorem State.release_tempValid : s.release.tempValid = s.tempValid := rfl
@[simp] theorem State.release_err : s.release.err = s.err := rfl
@[simp] theorem State.release_rxdata : s.release.rxdata = s.rxdata := rfl
@[simp] theorem State.release_rbuf : s.release.rbuf = s.rbuf := rfl
@[simp] theorem State.release_rom : s.release.rom = s.rom := rfl
@[simp] theorem State.release_scr : s.release.scr = s.scr := rfl
@[simp] theorem State.release_temp : s.release.temp = s.temp := rfl
@[simp] theorem State.release_cmdr : s.release.cmdr = s.cmdr := rfl
@[simp] theorem State.release_owOe : s.release.owOe = false := rfl
@[simp] theorem State.release_seq : s.release.seq = s.seq := rfl
@[simp] theorem State.release_hid : s.release.hid = s.hid := rfl
@[simp] theorem State.release_inputs : s.release.inputs = s.inputs := rfl
@[simp] theorem State.release_lineIn : s.release.lineIn = s.lineIn := rfl
@[simp] theorem State.release_now : s.release.now = s.now := rfl
@[simp] theorem State.release_wave : s.release.wave = s.wave := rfl
@[simp] theorem State.release_sampled : s.release.sampled = s.sampled := rfl

/-! `State.delay` -/

@[simp] theorem State.delay_cfg (n : Nat) : (s.delay n).cfg = s.cfg := rfl
@[simp] theorem State.delay_busy (n : Nat) : (s.delay n).busy = s.busy := rfl
@[simp] theorem State.delay_present (n : Nat) : (s.delay n).present = s.present := rfl
@[simp] theorem State.delay_romValid (n : Nat) : (s.delay n).romValid = s.romValid := rfl
@[simp] theorem State.delay_scrValid (n : Nat) : (s.delay n).scrValid = s.scrValid := rfl
@[simp] theorem State.delay_tempValid (n : Nat) : (s.delay n).tempValid = s.tempValid := rfl
@[simp] theorem State.delay_err (n : Nat) : (s.delay n).err = s.err := rfl
@[simp] theorem State.delay_rxdata (n : Nat) : (s.delay n).rxdata = s.rxdata := rfl
@[simp] theorem State.delay_rbuf (n : Nat) : (s.delay n).rbuf = s.rbuf := rfl
@[simp] theorem State.delay_rom (n : Nat) : (s.delay n).rom = s.rom := rfl
@[simp] theorem State.delay_scr (n : Nat) : (s.delay n).scr = s.scr := rfl
@[simp] theorem State.delay_temp (n : Nat) : (s.delay n).temp = s.temp := rfl
@[simp] theorem State.delay_cmdr (n : Nat) : (s.delay n).cmdr = s.cmdr := rfl
@[simp] theorem State.delay_owOe (n : Nat) : (s.delay n).owOe = s.owOe := rfl
@[simp] theorem State.delay_seq (n : Nat) : (s.delay n).seq = s.seq := rfl
@[simp] theorem State.delay_hid (n : Nat) : (s.delay n).hid = s.hid := rfl
@[simp] theorem State.delay_inputs (n : Nat) : (s.delay n).inputs = s.inputs.drop n := rfl
@[simp] theorem State.delay_lineIn (n : Nat) : (s.delay n).lineIn = s.lineIn := rfl
@[simp] theorem State.delay_now (n : Nat) : (s.delay n).now = s.now + n := rfl
@[simp] theorem State.delay_wave (n : Nat) : (s.delay n).wave = pushRun s.owOe n s.wave := rfl
@[simp] theorem State.delay_sampled (n : Nat) : (s.delay n).sampled = s.sampled := rfl

/-! `State.afterSample` -/

@[simp] theorem State.afterSample_cfg : s.afterSample.cfg = s.cfg := rfl
@[simp] theorem State.afterSample_busy : s.afterSample.busy = s.busy := rfl
@[simp] theorem State.afterSample_present : s.afterSample.present = s.present := rfl
@[simp] theorem State.afterSample_romValid : s.afterSample.romValid = s.romValid := rfl
@[simp] theorem State.afterSample_scrValid : s.afterSample.scrValid = s.scrValid := rfl
@[simp] theorem State.afterSample_tempValid : s.afterSample.tempValid = s.tempValid := rfl
@[simp] theorem State.afterSample_err : s.afterSample.err = s.err := rfl
@[simp] theorem State.afterSample_rxdata : s.afterSample.rxdata = s.rxdata := rfl
@[simp] theorem State.afterSample_rbuf : s.afterSample.rbuf = s.rbuf := rfl
@[simp] theorem State.afterSample_rom : s.afterSample.rom = s.rom := rfl
@[simp] theorem State.afterSample_scr : s.afterSample.scr = s.scr := rfl
@[simp] theorem State.afterSample_temp : s.afterSample.temp = s.temp := rfl
@[simp] theorem State.afterSample_cmdr : s.afterSample.cmdr = s.cmdr := rfl
@[simp] theorem State.afterSample_owOe : s.afterSample.owOe = s.owOe := rfl
@[simp] theorem State.afterSample_seq : s.afterSample.seq = s.seq := rfl
@[simp] theorem State.afterSample_hid : s.afterSample.hid = s.hid := rfl
@[simp] theorem State.afterSample_inputs : s.afterSample.inputs = s.inputs := rfl
@[simp] theorem State.afterSample_lineIn : s.afterSample.lineIn = s.lineIn.tail := rfl
@[simp] theorem State.afterSample_now : s.afterSample.now = s.now := rfl
@[simp] theorem State.afterSample_wave : s.afterSample.wave = s.wave := rfl
@[simp] theorem State.afterSample_sampled : s.afterSample.sampled = ⟨s.now, s.lineLevel⟩ :: s.sampled := rfl

/-! `State.stage` -/

@[simp] theorem State.stage_cfg (k : Fin 9) (v : Byte) : (s.stage k v).cfg = s.cfg := rfl
@[simp] theorem State.stage_busy (k : Fin 9) (v : Byte) : (s.stage k v).busy = s.busy := rfl
@[simp] theorem State.stage_present (k : Fin 9) (v : Byte) : (s.stage k v).present = s.present := rfl
@[simp] theorem State.stage_romValid (k : Fin 9) (v : Byte) : (s.stage k v).romValid = s.romValid := rfl
@[simp] theorem State.stage_scrValid (k : Fin 9) (v : Byte) : (s.stage k v).scrValid = s.scrValid := rfl
@[simp] theorem State.stage_tempValid (k : Fin 9) (v : Byte) : (s.stage k v).tempValid = s.tempValid := rfl
@[simp] theorem State.stage_err (k : Fin 9) (v : Byte) : (s.stage k v).err = s.err := rfl
@[simp] theorem State.stage_rxdata (k : Fin 9) (v : Byte) : (s.stage k v).rxdata = s.rxdata := rfl
@[simp] theorem State.stage_rbuf (k : Fin 9) (v : Byte) : (s.stage k v).rbuf = s.rbuf := rfl
@[simp] theorem State.stage_rom (k : Fin 9) (v : Byte) : (s.stage k v).rom = s.rom := rfl
@[simp] theorem State.stage_scr (k : Fin 9) (v : Byte) : (s.stage k v).scr = s.scr := rfl
@[simp] theorem State.stage_temp (k : Fin 9) (v : Byte) : (s.stage k v).temp = s.temp := rfl
@[simp] theorem State.stage_cmdr (k : Fin 9) (v : Byte) : (s.stage k v).cmdr = s.cmdr := rfl
@[simp] theorem State.stage_owOe (k : Fin 9) (v : Byte) : (s.stage k v).owOe = s.owOe := rfl
@[simp] theorem State.stage_seq (k : Fin 9) (v : Byte) : (s.stage k v).seq = s.seq := rfl
@[simp] theorem State.stage_hid (k : Fin 9) (v : Byte) : (s.stage k v).hid = { s.hid with stg := s.hid.stg.set k.val v k.isLt } := rfl
@[simp] theorem State.stage_inputs (k : Fin 9) (v : Byte) : (s.stage k v).inputs = s.inputs := rfl
@[simp] theorem State.stage_lineIn (k : Fin 9) (v : Byte) : (s.stage k v).lineIn = s.lineIn := rfl
@[simp] theorem State.stage_now (k : Fin 9) (v : Byte) : (s.stage k v).now = s.now := rfl
@[simp] theorem State.stage_wave (k : Fin 9) (v : Byte) : (s.stage k v).wave = s.wave := rfl
@[simp] theorem State.stage_sampled (k : Fin 9) (v : Byte) : (s.stage k v).sampled = s.sampled := rfl

/-! `State.setPresT` -/

@[simp] theorem State.setPresT_cfg (p : Bool) : (s.setPresT p).cfg = s.cfg := rfl
@[simp] theorem State.setPresT_busy (p : Bool) : (s.setPresT p).busy = s.busy := rfl
@[simp] theorem State.setPresT_present (p : Bool) : (s.setPresT p).present = s.present := rfl
@[simp] theorem State.setPresT_romValid (p : Bool) : (s.setPresT p).romValid = s.romValid := rfl
@[simp] theorem State.setPresT_scrValid (p : Bool) : (s.setPresT p).scrValid = s.scrValid := rfl
@[simp] theorem State.setPresT_tempValid (p : Bool) : (s.setPresT p).tempValid = s.tempValid := rfl
@[simp] theorem State.setPresT_err (p : Bool) : (s.setPresT p).err = s.err := rfl
@[simp] theorem State.setPresT_rxdata (p : Bool) : (s.setPresT p).rxdata = s.rxdata := rfl
@[simp] theorem State.setPresT_rbuf (p : Bool) : (s.setPresT p).rbuf = s.rbuf := rfl
@[simp] theorem State.setPresT_rom (p : Bool) : (s.setPresT p).rom = s.rom := rfl
@[simp] theorem State.setPresT_scr (p : Bool) : (s.setPresT p).scr = s.scr := rfl
@[simp] theorem State.setPresT_temp (p : Bool) : (s.setPresT p).temp = s.temp := rfl
@[simp] theorem State.setPresT_cmdr (p : Bool) : (s.setPresT p).cmdr = s.cmdr := rfl
@[simp] theorem State.setPresT_owOe (p : Bool) : (s.setPresT p).owOe = s.owOe := rfl
@[simp] theorem State.setPresT_seq (p : Bool) : (s.setPresT p).seq = s.seq := rfl
@[simp] theorem State.setPresT_hid (p : Bool) : (s.setPresT p).hid = { s.hid with presT := p } := rfl
@[simp] theorem State.setPresT_inputs (p : Bool) : (s.setPresT p).inputs = s.inputs := rfl
@[simp] theorem State.setPresT_lineIn (p : Bool) : (s.setPresT p).lineIn = s.lineIn := rfl
@[simp] theorem State.setPresT_now (p : Bool) : (s.setPresT p).now = s.now := rfl
@[simp] theorem State.setPresT_wave (p : Bool) : (s.setPresT p).wave = s.wave := rfl
@[simp] theorem State.setPresT_sampled (p : Bool) : (s.setPresT p).sampled = s.sampled := rfl

/-! `State.accept` -/

@[simp] theorem State.accept_cfg (w : Word) : (s.accept w).cfg = s.cfg := rfl
@[simp] theorem State.accept_busy (w : Word) : (s.accept w).busy = true := rfl
@[simp] theorem State.accept_present (w : Word) : (s.accept w).present = s.present := rfl
@[simp] theorem State.accept_romValid (w : Word) : (s.accept w).romValid = s.romValid := rfl
@[simp] theorem State.accept_scrValid (w : Word) : (s.accept w).scrValid = s.scrValid := rfl
@[simp] theorem State.accept_tempValid (w : Word) : (s.accept w).tempValid = s.tempValid := rfl
@[simp] theorem State.accept_err (w : Word) : (s.accept w).err = s.err := rfl
@[simp] theorem State.accept_rxdata (w : Word) : (s.accept w).rxdata = s.rxdata := rfl
@[simp] theorem State.accept_rbuf (w : Word) : (s.accept w).rbuf = s.rbuf := rfl
@[simp] theorem State.accept_rom (w : Word) : (s.accept w).rom = s.rom := rfl
@[simp] theorem State.accept_scr (w : Word) : (s.accept w).scr = s.scr := rfl
@[simp] theorem State.accept_temp (w : Word) : (s.accept w).temp = s.temp := rfl
@[simp] theorem State.accept_cmdr (w : Word) : (s.accept w).cmdr = w := rfl
@[simp] theorem State.accept_owOe (w : Word) : (s.accept w).owOe = s.owOe := rfl
@[simp] theorem State.accept_seq (w : Word) : (s.accept w).seq = s.seq := rfl
@[simp] theorem State.accept_hid (w : Word) : (s.accept w).hid = s.hid := rfl
@[simp] theorem State.accept_inputs (w : Word) : (s.accept w).inputs = s.inputs.drop 1 := rfl
@[simp] theorem State.accept_lineIn (w : Word) : (s.accept w).lineIn = s.lineIn := rfl
@[simp] theorem State.accept_now (w : Word) : (s.accept w).now = s.now + 1 := rfl
@[simp] theorem State.accept_wave (w : Word) : (s.accept w).wave = pushRun s.owOe 1 s.wave := rfl
@[simp] theorem State.accept_sampled (w : Word) : (s.accept w).sampled = s.sampled := rfl

/-! `State.acceptIllegal` -/

@[simp] theorem State.acceptIllegal_cfg (w : Word) : (s.acceptIllegal w).cfg = s.cfg := rfl
@[simp] theorem State.acceptIllegal_busy (w : Word) : (s.acceptIllegal w).busy = s.busy := rfl
@[simp] theorem State.acceptIllegal_present (w : Word) : (s.acceptIllegal w).present = s.present := rfl
@[simp] theorem State.acceptIllegal_romValid (w : Word) : (s.acceptIllegal w).romValid = s.romValid := rfl
@[simp] theorem State.acceptIllegal_scrValid (w : Word) : (s.acceptIllegal w).scrValid = s.scrValid := rfl
@[simp] theorem State.acceptIllegal_tempValid (w : Word) : (s.acceptIllegal w).tempValid = s.tempValid := rfl
@[simp] theorem State.acceptIllegal_err (w : Word) : (s.acceptIllegal w).err = .illegalCmd := rfl
@[simp] theorem State.acceptIllegal_rxdata (w : Word) : (s.acceptIllegal w).rxdata = s.rxdata := rfl
@[simp] theorem State.acceptIllegal_rbuf (w : Word) : (s.acceptIllegal w).rbuf = s.rbuf := rfl
@[simp] theorem State.acceptIllegal_rom (w : Word) : (s.acceptIllegal w).rom = s.rom := rfl
@[simp] theorem State.acceptIllegal_scr (w : Word) : (s.acceptIllegal w).scr = s.scr := rfl
@[simp] theorem State.acceptIllegal_temp (w : Word) : (s.acceptIllegal w).temp = s.temp := rfl
@[simp] theorem State.acceptIllegal_cmdr (w : Word) : (s.acceptIllegal w).cmdr = w := rfl
@[simp] theorem State.acceptIllegal_owOe (w : Word) : (s.acceptIllegal w).owOe = s.owOe := rfl
@[simp] theorem State.acceptIllegal_seq (w : Word) : (s.acceptIllegal w).seq = s.seq := rfl
@[simp] theorem State.acceptIllegal_hid (w : Word) : (s.acceptIllegal w).hid = s.hid := rfl
@[simp] theorem State.acceptIllegal_inputs (w : Word) : (s.acceptIllegal w).inputs = s.inputs.drop 1 := rfl
@[simp] theorem State.acceptIllegal_lineIn (w : Word) : (s.acceptIllegal w).lineIn = s.lineIn := rfl
@[simp] theorem State.acceptIllegal_now (w : Word) : (s.acceptIllegal w).now = s.now + 1 := rfl
@[simp] theorem State.acceptIllegal_wave (w : Word) : (s.acceptIllegal w).wave = pushRun s.owOe 1 s.wave := rfl
@[simp] theorem State.acceptIllegal_sampled (w : Word) : (s.acceptIllegal w).sampled = s.sampled := rfl

/-! `State.complete` -/

@[simp] theorem State.complete_cfg (e : ErrCode) : (s.complete e).cfg = s.cfg := rfl
@[simp] theorem State.complete_busy (e : ErrCode) : (s.complete e).busy = false := rfl
@[simp] theorem State.complete_present (e : ErrCode) : (s.complete e).present = s.present := rfl
@[simp] theorem State.complete_romValid (e : ErrCode) : (s.complete e).romValid = s.romValid := rfl
@[simp] theorem State.complete_scrValid (e : ErrCode) : (s.complete e).scrValid = s.scrValid := rfl
@[simp] theorem State.complete_tempValid (e : ErrCode) : (s.complete e).tempValid = s.tempValid := rfl
@[simp] theorem State.complete_err (e : ErrCode) : (s.complete e).err = e := rfl
@[simp] theorem State.complete_rxdata (e : ErrCode) : (s.complete e).rxdata = s.rxdata := rfl
@[simp] theorem State.complete_rbuf (e : ErrCode) : (s.complete e).rbuf = s.rbuf := rfl
@[simp] theorem State.complete_rom (e : ErrCode) : (s.complete e).rom = s.rom := rfl
@[simp] theorem State.complete_scr (e : ErrCode) : (s.complete e).scr = s.scr := rfl
@[simp] theorem State.complete_temp (e : ErrCode) : (s.complete e).temp = s.temp := rfl
@[simp] theorem State.complete_cmdr (e : ErrCode) : (s.complete e).cmdr = s.cmdr := rfl
@[simp] theorem State.complete_owOe (e : ErrCode) : (s.complete e).owOe = false := rfl
@[simp] theorem State.complete_seq (e : ErrCode) : (s.complete e).seq = .idle := rfl
@[simp] theorem State.complete_hid (e : ErrCode) : (s.complete e).hid = Config.freeHidden s.now := rfl
@[simp] theorem State.complete_inputs (e : ErrCode) : (s.complete e).inputs = s.inputs := rfl
@[simp] theorem State.complete_lineIn (e : ErrCode) : (s.complete e).lineIn = s.lineIn := rfl
@[simp] theorem State.complete_now (e : ErrCode) : (s.complete e).now = s.now := rfl
@[simp] theorem State.complete_wave (e : ErrCode) : (s.complete e).wave = s.wave := rfl
@[simp] theorem State.complete_sampled (e : ErrCode) : (s.complete e).sampled = s.sampled := rfl

/-! `State.strayEnd` -/

@[simp] theorem State.strayEnd_cfg : s.strayEnd.cfg = s.cfg := rfl
@[simp] theorem State.strayEnd_busy : s.strayEnd.busy = false := rfl
@[simp] theorem State.strayEnd_present : s.strayEnd.present = s.present := rfl
@[simp] theorem State.strayEnd_romValid : s.strayEnd.romValid = s.romValid := rfl
@[simp] theorem State.strayEnd_scrValid : s.strayEnd.scrValid = s.scrValid := rfl
@[simp] theorem State.strayEnd_tempValid : s.strayEnd.tempValid = s.tempValid := rfl
@[simp] theorem State.strayEnd_err : s.strayEnd.err = s.err := rfl
@[simp] theorem State.strayEnd_rxdata : s.strayEnd.rxdata = s.rxdata := rfl
@[simp] theorem State.strayEnd_rbuf : s.strayEnd.rbuf = s.rbuf := rfl
@[simp] theorem State.strayEnd_rom : s.strayEnd.rom = s.rom := rfl
@[simp] theorem State.strayEnd_scr : s.strayEnd.scr = s.scr := rfl
@[simp] theorem State.strayEnd_temp : s.strayEnd.temp = s.temp := rfl
@[simp] theorem State.strayEnd_cmdr : s.strayEnd.cmdr = s.cmdr := rfl
@[simp] theorem State.strayEnd_owOe : s.strayEnd.owOe = false := rfl
@[simp] theorem State.strayEnd_seq : s.strayEnd.seq = .idle := rfl
@[simp] theorem State.strayEnd_hid : s.strayEnd.hid = s.hid := rfl
@[simp] theorem State.strayEnd_inputs : s.strayEnd.inputs = s.inputs := rfl
@[simp] theorem State.strayEnd_lineIn : s.strayEnd.lineIn = s.lineIn := rfl
@[simp] theorem State.strayEnd_now : s.strayEnd.now = s.now := rfl
@[simp] theorem State.strayEnd_wave : s.strayEnd.wave = s.wave := rfl
@[simp] theorem State.strayEnd_sampled : s.strayEnd.sampled = s.sampled := rfl

/-! `State.enterPhase` -/

@[simp] theorem State.enterPhase_cfg (ph : Phase) : (s.enterPhase ph).cfg = s.cfg := rfl
@[simp] theorem State.enterPhase_busy (ph : Phase) : (s.enterPhase ph).busy = s.busy := rfl
@[simp] theorem State.enterPhase_present (ph : Phase) : (s.enterPhase ph).present = s.present := rfl
@[simp] theorem State.enterPhase_romValid (ph : Phase) : (s.enterPhase ph).romValid = s.romValid := rfl
@[simp] theorem State.enterPhase_scrValid (ph : Phase) : (s.enterPhase ph).scrValid = s.scrValid := rfl
@[simp] theorem State.enterPhase_tempValid (ph : Phase) : (s.enterPhase ph).tempValid = s.tempValid := rfl
@[simp] theorem State.enterPhase_err (ph : Phase) : (s.enterPhase ph).err = s.err := rfl
@[simp] theorem State.enterPhase_rxdata (ph : Phase) : (s.enterPhase ph).rxdata = s.rxdata := rfl
@[simp] theorem State.enterPhase_rbuf (ph : Phase) : (s.enterPhase ph).rbuf = s.rbuf := rfl
@[simp] theorem State.enterPhase_rom (ph : Phase) : (s.enterPhase ph).rom = s.rom := rfl
@[simp] theorem State.enterPhase_scr (ph : Phase) : (s.enterPhase ph).scr = s.scr := rfl
@[simp] theorem State.enterPhase_temp (ph : Phase) : (s.enterPhase ph).temp = s.temp := rfl
@[simp] theorem State.enterPhase_cmdr (ph : Phase) : (s.enterPhase ph).cmdr = s.cmdr := rfl
@[simp] theorem State.enterPhase_owOe (ph : Phase) : (s.enterPhase ph).owOe = ph.drives (s.hid.shr.getLsbD s.hid.bitI.val) := rfl
@[simp] theorem State.enterPhase_seq (ph : Phase) : (s.enterPhase ph).seq = ph := rfl
@[simp] theorem State.enterPhase_hid (ph : Phase) : (s.enterPhase ph).hid = { s.hid with tmr := Fin.ofNat 480 (ph.ticks - 1) } := rfl
@[simp] theorem State.enterPhase_inputs (ph : Phase) : (s.enterPhase ph).inputs = s.inputs := rfl
@[simp] theorem State.enterPhase_lineIn (ph : Phase) : (s.enterPhase ph).lineIn = s.lineIn := rfl
@[simp] theorem State.enterPhase_now (ph : Phase) : (s.enterPhase ph).now = s.now := rfl
@[simp] theorem State.enterPhase_wave (ph : Phase) : (s.enterPhase ph).wave = s.wave := rfl
@[simp] theorem State.enterPhase_sampled (ph : Phase) : (s.enterPhase ph).sampled = s.sampled := rfl

/-! `State.resetTick` -/

@[simp] theorem State.resetTick_cfg : s.resetTick.cfg = s.cfg := rfl
@[simp] theorem State.resetTick_busy : s.resetTick.busy = State.reset.busy := rfl
@[simp] theorem State.resetTick_present : s.resetTick.present = State.reset.present := rfl
@[simp] theorem State.resetTick_romValid : s.resetTick.romValid = State.reset.romValid := rfl
@[simp] theorem State.resetTick_scrValid : s.resetTick.scrValid = State.reset.scrValid := rfl
@[simp] theorem State.resetTick_tempValid : s.resetTick.tempValid = State.reset.tempValid := rfl
@[simp] theorem State.resetTick_err : s.resetTick.err = State.reset.err := rfl
@[simp] theorem State.resetTick_rxdata : s.resetTick.rxdata = State.reset.rxdata := rfl
@[simp] theorem State.resetTick_rbuf : s.resetTick.rbuf = State.reset.rbuf := rfl
@[simp] theorem State.resetTick_rom : s.resetTick.rom = State.reset.rom := rfl
@[simp] theorem State.resetTick_scr : s.resetTick.scr = State.reset.scr := rfl
@[simp] theorem State.resetTick_temp : s.resetTick.temp = State.reset.temp := rfl
@[simp] theorem State.resetTick_cmdr : s.resetTick.cmdr = State.reset.cmdr := rfl
@[simp] theorem State.resetTick_owOe : s.resetTick.owOe = State.reset.owOe := rfl
@[simp] theorem State.resetTick_seq : s.resetTick.seq = State.reset.seq := rfl
@[simp] theorem State.resetTick_hid : s.resetTick.hid = Config.freeHidden (s.now + 1) := rfl
@[simp] theorem State.resetTick_inputs : s.resetTick.inputs = s.inputs.drop 1 := rfl
@[simp] theorem State.resetTick_lineIn : s.resetTick.lineIn = s.lineIn := rfl
@[simp] theorem State.resetTick_now : s.resetTick.now = s.now + 1 := rfl
@[simp] theorem State.resetTick_wave : s.resetTick.wave = pushRun s.owOe 1 s.wave := rfl
@[simp] theorem State.resetTick_sampled : s.resetTick.sampled = s.sampled := rfl

/-! `State.presentWord` -/

@[simp] theorem State.presentWord_cfg (w : Word) : (s.presentWord w).cfg = s.cfg := rfl
@[simp] theorem State.presentWord_busy (w : Word) : (s.presentWord w).busy = s.busy := rfl
@[simp] theorem State.presentWord_present (w : Word) : (s.presentWord w).present = s.present := rfl
@[simp] theorem State.presentWord_romValid (w : Word) : (s.presentWord w).romValid = s.romValid := rfl
@[simp] theorem State.presentWord_scrValid (w : Word) : (s.presentWord w).scrValid = s.scrValid := rfl
@[simp] theorem State.presentWord_tempValid (w : Word) : (s.presentWord w).tempValid = s.tempValid := rfl
@[simp] theorem State.presentWord_err (w : Word) : (s.presentWord w).err = s.err := rfl
@[simp] theorem State.presentWord_rxdata (w : Word) : (s.presentWord w).rxdata = s.rxdata := rfl
@[simp] theorem State.presentWord_rbuf (w : Word) : (s.presentWord w).rbuf = s.rbuf := rfl
@[simp] theorem State.presentWord_rom (w : Word) : (s.presentWord w).rom = s.rom := rfl
@[simp] theorem State.presentWord_scr (w : Word) : (s.presentWord w).scr = s.scr := rfl
@[simp] theorem State.presentWord_temp (w : Word) : (s.presentWord w).temp = s.temp := rfl
@[simp] theorem State.presentWord_cmdr (w : Word) : (s.presentWord w).cmdr = s.cmdr := rfl
@[simp] theorem State.presentWord_owOe (w : Word) : (s.presentWord w).owOe = s.owOe := rfl
@[simp] theorem State.presentWord_seq (w : Word) : (s.presentWord w).seq = s.seq := rfl
@[simp] theorem State.presentWord_hid (w : Word) : (s.presentWord w).hid = s.hid := rfl
@[simp] theorem State.presentWord_inputs (w : Word) : (s.presentWord w).inputs = [⟨false, true, w, 0#4⟩] := rfl
@[simp] theorem State.presentWord_lineIn (w : Word) : (s.presentWord w).lineIn = s.lineIn := rfl
@[simp] theorem State.presentWord_now (w : Word) : (s.presentWord w).now = s.now := rfl
@[simp] theorem State.presentWord_wave (w : Word) : (s.presentWord w).wave = s.wave := rfl
@[simp] theorem State.presentWord_sampled (w : Word) : (s.presentWord w).sampled = s.sampled := rfl

/-! `State.madeIdle` -/

@[simp] theorem State.madeIdle_cfg : s.madeIdle.cfg = s.cfg := rfl
@[simp] theorem State.madeIdle_busy : s.madeIdle.busy = false := rfl
@[simp] theorem State.madeIdle_present : s.madeIdle.present = s.present := rfl
@[simp] theorem State.madeIdle_romValid : s.madeIdle.romValid = s.romValid := rfl
@[simp] theorem State.madeIdle_scrValid : s.madeIdle.scrValid = s.scrValid := rfl
@[simp] theorem State.madeIdle_tempValid : s.madeIdle.tempValid = s.tempValid := rfl
@[simp] theorem State.madeIdle_err : s.madeIdle.err = s.err := rfl
@[simp] theorem State.madeIdle_rxdata : s.madeIdle.rxdata = s.rxdata := rfl
@[simp] theorem State.madeIdle_rbuf : s.madeIdle.rbuf = s.rbuf := rfl
@[simp] theorem State.madeIdle_rom : s.madeIdle.rom = s.rom := rfl
@[simp] theorem State.madeIdle_scr : s.madeIdle.scr = s.scr := rfl
@[simp] theorem State.madeIdle_temp : s.madeIdle.temp = s.temp := rfl
@[simp] theorem State.madeIdle_cmdr : s.madeIdle.cmdr = s.cmdr := rfl
@[simp] theorem State.madeIdle_owOe : s.madeIdle.owOe = false := rfl
@[simp] theorem State.madeIdle_seq : s.madeIdle.seq = .idle := rfl
@[simp] theorem State.madeIdle_hid : s.madeIdle.hid = s.hid := rfl
@[simp] theorem State.madeIdle_inputs : s.madeIdle.inputs = s.inputs := rfl
@[simp] theorem State.madeIdle_lineIn : s.madeIdle.lineIn = s.lineIn := rfl
@[simp] theorem State.madeIdle_now : s.madeIdle.now = s.now := rfl
@[simp] theorem State.madeIdle_wave : s.madeIdle.wave = s.wave := rfl
@[simp] theorem State.madeIdle_sampled : s.madeIdle.sampled = s.sampled := rfl

/-! `State.afterLine` -/

@[simp] theorem State.afterLine_cfg (gs : List (Bool × Nat)) (offs : List Nat) : (s.afterLine gs offs).cfg = s.cfg := rfl
@[simp] theorem State.afterLine_busy (gs : List (Bool × Nat)) (offs : List Nat) : (s.afterLine gs offs).busy = s.busy := rfl
@[simp] theorem State.afterLine_present (gs : List (Bool × Nat)) (offs : List Nat) : (s.afterLine gs offs).present = s.present := rfl
@[simp] theorem State.afterLine_romValid (gs : List (Bool × Nat)) (offs : List Nat) : (s.afterLine gs offs).romValid = s.romValid := rfl
@[simp] theorem State.afterLine_scrValid (gs : List (Bool × Nat)) (offs : List Nat) : (s.afterLine gs offs).scrValid = s.scrValid := rfl
@[simp] theorem State.afterLine_tempValid (gs : List (Bool × Nat)) (offs : List Nat) : (s.afterLine gs offs).tempValid = s.tempValid := rfl
@[simp] theorem State.afterLine_err (gs : List (Bool × Nat)) (offs : List Nat) : (s.afterLine gs offs).err = s.err := rfl
@[simp] theorem State.afterLine_rxdata (gs : List (Bool × Nat)) (offs : List Nat) : (s.afterLine gs offs).rxdata = s.rxdata := rfl
@[simp] theorem State.afterLine_rbuf (gs : List (Bool × Nat)) (offs : List Nat) : (s.afterLine gs offs).rbuf = s.rbuf := rfl
@[simp] theorem State.afterLine_rom (gs : List (Bool × Nat)) (offs : List Nat) : (s.afterLine gs offs).rom = s.rom := rfl
@[simp] theorem State.afterLine_scr (gs : List (Bool × Nat)) (offs : List Nat) : (s.afterLine gs offs).scr = s.scr := rfl
@[simp] theorem State.afterLine_temp (gs : List (Bool × Nat)) (offs : List Nat) : (s.afterLine gs offs).temp = s.temp := rfl
@[simp] theorem State.afterLine_cmdr (gs : List (Bool × Nat)) (offs : List Nat) : (s.afterLine gs offs).cmdr = s.cmdr := rfl
@[simp] theorem State.afterLine_owOe (gs : List (Bool × Nat)) (offs : List Nat) : (s.afterLine gs offs).owOe = false := rfl
@[simp] theorem State.afterLine_seq (gs : List (Bool × Nat)) (offs : List Nat) : (s.afterLine gs offs).seq = s.seq := rfl
@[simp] theorem State.afterLine_hid (gs : List (Bool × Nat)) (offs : List Nat) : (s.afterLine gs offs).hid = s.hid := rfl
@[simp] theorem State.afterLine_inputs (gs : List (Bool × Nat)) (offs : List Nat) : (s.afterLine gs offs).inputs = s.inputs.drop (segTicks gs) := rfl
@[simp] theorem State.afterLine_lineIn (gs : List (Bool × Nat)) (offs : List Nat) : (s.afterLine gs offs).lineIn = s.lineIn.drop offs.length := rfl
@[simp] theorem State.afterLine_now (gs : List (Bool × Nat)) (offs : List Nat) : (s.afterLine gs offs).now = s.now + segTicks gs := rfl
@[simp] theorem State.afterLine_wave (gs : List (Bool × Nat)) (offs : List Nat) : (s.afterLine gs offs).wave = addSegs gs s.wave := rfl
@[simp] theorem State.afterLine_sampled (gs : List (Bool × Nat)) (offs : List Nat) : (s.afterLine gs offs).sampled = s.samplesFrom 0 offs s.sampled := rfl

/-- Raising an error is completing with its code (R112). -/
@[simp] theorem State.raise_eq (e : ErrCode) : s.raise e = s.complete e := rfl

end Sys2Proof.Machine
end

