-- ==== Sys2Proof/Laws/Line.lean ====
section
/-! SUPPORT. The algebra of waveforms and samples: delays add up, waveforms follow one another, and what a sample reads does
not depend on how the time before it was cut up. -/

namespace Sys2Proof.Machine

/-! The record of `ow_oe`. -/

@[simp] theorem pushRun_zero (low : Bool) (w : List Run) : pushRun low 0 w = w := rfl

/-- Ticks at one level, recorded in two parts or in one. -/
theorem pushRun_pushRun (low : Bool) (a b : Nat) (w : List Run) :
    pushRun low b (pushRun low a w) = pushRun low (a + b) w := by
  rcases Nat.eq_zero_or_pos a with rfl | ha
  · simp
  rcases Nat.eq_zero_or_pos b with rfl | hb
  · simp
  have ha' : a ≠ 0 := by omega
  have hb' : b ≠ 0 := by omega
  cases w with
  | nil => simp [pushRun, ha', hb']
  | cons r rs =>
    by_cases h : r.low = low
    · simp [pushRun, ha', hb', h, Nat.add_assoc]
    · simp [pushRun, ha', hb', h]

/-- A record keeps its form when ticks are added (R24, R142). -/
theorem runsAlternate_pushRun {w : List Run} (low : Bool) (n : Nat) (h : runsAlternate w = true) :
    runsAlternate (pushRun low n w) = true := by
  rcases Nat.eq_zero_or_pos n with rfl | hn
  · simpa using h
  have hn' : n ≠ 0 := by omega
  match w, h with
  | [], _ => simp [pushRun, hn', runsAlternate, hn]
  | [r], h =>
    by_cases hl : r.low = low
    · simp_all [pushRun, runsAlternate]
    · have hl' : low ≠ r.low := fun e => hl e.symm
      simp_all [pushRun, runsAlternate]
  | r :: q :: rs, h =>
    by_cases hl : r.low = low
    · simp_all [pushRun, runsAlternate]
    · have hl' : low ≠ r.low := fun e => hl e.symm
      simp_all [pushRun, runsAlternate]

/-- A record accounts for each tick added (R24, R142). -/
@[simp] theorem runTicks_pushRun (low : Bool) (n : Nat) (w : List Run) :
    runTicks (pushRun low n w) = n + runTicks w := by
  rcases Nat.eq_zero_or_pos n with rfl | hn
  · simp
  have hn' : n ≠ 0 := by omega
  cases w with
  | nil => simp [pushRun, hn', runTicks]
  | cons r rs =>
    by_cases hl : r.low = low <;> simp [pushRun, hn', hl, runTicks]
    omega

/-! Waveforms. -/

@[simp] theorem segTicks_append (a b : List (Bool × Nat)) : segTicks (a ++ b) = segTicks a + segTicks b := by
  induction a with
  | nil => simp [segTicks]
  | cons g gs ih => simp [segTicks, ih, Nat.add_assoc]

@[simp] theorem addSegs_nil (w : List Run) : addSegs [] w = w := rfl

@[simp] theorem addSegs_cons (g : Bool × Nat) (gs : List (Bool × Nat)) (w : List Run) :
    addSegs (g :: gs) w = addSegs gs (pushRun g.1 g.2 w) := rfl

@[simp] theorem addSegs_append (a b : List (Bool × Nat)) (w : List Run) :
    addSegs (a ++ b) w = addSegs b (addSegs a w) := by
  simp [addSegs]

theorem runTicks_addSegs (gs : List (Bool × Nat)) (w : List Run) :
    runTicks (addSegs gs w) = segTicks gs + runTicks w := by
  induction gs generalizing w with
  | nil => simp [segTicks]
  | cons g gs ih => simp [segTicks, ih]; omega

theorem runsAlternate_addSegs (gs : List (Bool × Nat)) {w : List Run} (h : runsAlternate w = true) :
    runsAlternate (addSegs gs w) = true := by
  induction gs generalizing w with
  | nil => simpa using h
  | cons g gs ih => exact ih (runsAlternate_pushRun _ _ h)

@[simp] theorem segTicks_writeSlotSegs (b : Bool) : segTicks (writeSlotSegs b) = 61 := rfl
@[simp] theorem segTicks_readSlotSegs : segTicks readSlotSegs = 61 := rfl
@[simp] theorem segTicks_resetSlotSegs : segTicks resetSlotSegs = 960 := rfl
@[simp] theorem segTicks_byteOutSegs (v : Byte) : segTicks (byteOutSegs v) = 488 := by
  simp only [byteOutSegs, lsbFirst, List.flatMap_cons, List.flatMap_nil, segTicks_append,
    segTicks_writeSlotSegs, segTicks]
@[simp] theorem segTicks_byteInSegs : segTicks byteInSegs = 488 := rfl

@[simp] theorem segTicks_bytesOutSegs (vs : List Byte) : segTicks (bytesOutSegs vs) = 488 * vs.length := by
  induction vs with
  | nil => rfl
  | cons v vs ih =>
    have h : bytesOutSegs (v :: vs) = byteOutSegs v ++ bytesOutSegs vs := rfl
    rw [h, segTicks_append, segTicks_byteOutSegs, ih, List.length_cons]
    omega

@[simp] theorem segTicks_bytesInSegs (n : Nat) : segTicks (bytesInSegs n) = 488 * n := by
  induction n with
  | zero => rfl
  | succ n ih =>
    have h : bytesInSegs (n + 1) = byteInSegs ++ bytesInSegs n := rfl
    rw [h, segTicks_append, segTicks_byteInSegs, ih]
    omega

@[simp] theorem segTicks_matchRomSegs (s : State) : segTicks (matchRomSegs s) = 5352 := by
  simp [matchRomSegs]

@[simp] theorem segTicks_readRomSegs (s : State) : segTicks (readRomSegs s) = 5352 := by
  simp [readRomSegs]

/-! Samples. -/

@[simp] theorem length_bytesInOffsets (n off : Nat) : (bytesInOffsets n off).length = 8 * n := by
  induction n generalizing off with
  | zero => rfl
  | succ n ih =>
    simp only [bytesInOffsets, List.length_append, ih, byteInOffsets, List.length_cons, List.length_nil]
    omega

theorem bytesInOffsets_map_add (n off d : Nat) :
    (bytesInOffsets n off).map (· + d) = bytesInOffsets n (off + d) := by
  induction n generalizing off with
  | zero => rfl
  | succ n ih =>
    simp only [bytesInOffsets, List.map_append, ih, byteInOffsets, List.map_cons, List.map_nil]
    congr 1
    · simp only [List.cons.injEq, and_true]; omega
    · congr 1; omega

theorem State.samplesFrom_append (s : State) (j : Nat) (a b : List Nat) (log : List SampleAt) :
    s.samplesFrom j (a ++ b) log = s.samplesFrom (j + a.length) b (s.samplesFrom j a log) := by
  induction a generalizing j log with
  | nil => rfl
  | cons o a ih =>
    simp only [List.cons_append, State.samplesFrom, ih, List.length_cons]
    congr 1
    omega

/-- What a sample reads is fixed by its place in the list and its tick, however the time before it is cut up (R37, R72). -/
theorem State.levelAt_afterLine (s : State) (gs : List (Bool × Nat)) (offs : List Nat) (j off : Nat) :
    (s.afterLine gs offs).levelAt j off = s.levelAt (offs.length + j) (off + segTicks gs) := by
  simp only [State.levelAt, State.afterLine_lineIn, State.afterLine_now, List.getD_eq_getElem?_getD,
    List.getElem?_drop]
  congr 2
  omega

theorem State.samplesFrom_afterLine (s : State) (gs : List (Bool × Nat)) (offs : List Nat) (j : Nat) (b : List Nat)
    (log : List SampleAt) :
    (s.afterLine gs offs).samplesFrom j b log = s.samplesFrom (offs.length + j) (b.map (· + segTicks gs)) log := by
  induction b generalizing j log with
  | nil => rfl
  | cons o b ih =>
    have h : s.now + segTicks gs + o = s.now + (o + segTicks gs) := by omega
    simp only [State.samplesFrom, List.map_cons, ih, State.levelAt_afterLine, State.afterLine_now, h,
      Nat.add_assoc]

/-- Contiguity (R70): a waveform right after another is one waveform. -/
theorem State.afterLine_afterLine (s : State) (g₁ g₂ : List (Bool × Nat)) (o₁ o₂ : List Nat) :
    (s.afterLine g₁ o₁).afterLine g₂ o₂ =
      s.afterLine (g₁ ++ g₂) (o₁ ++ o₂.map (· + segTicks g₁)) := by
  have h : (s.afterLine g₁ o₁).samplesFrom 0 o₂ (s.afterLine g₁ o₁).sampled =
      s.samplesFrom 0 (o₁ ++ o₂.map (· + segTicks g₁)) s.sampled := by
    rw [State.samplesFrom_afterLine, State.samplesFrom_append]
    simp
  rw [State.afterLine, h]
  simp [State.afterLine, Nat.add_assoc]

theorem State.byteIn_afterLine (s : State) (gs : List (Bool × Nat)) (offs : List Nat) (j off : Nat) :
    (s.afterLine gs offs).byteIn j off = s.byteIn (offs.length + j) (off + segTicks gs) := by
  simp only [State.byteIn, State.levelAt_afterLine]
  simp only [Nat.add_right_comm off _ (segTicks gs), Nat.add_assoc offs.length]

theorem State.eightIn_afterLine (s : State) (gs : List (Bool × Nat)) (offs : List Nat) (j off : Nat) :
    (s.afterLine gs offs).eightIn j off = s.eightIn (offs.length + j) (off + segTicks gs) := by
  simp only [State.eightIn, State.byteIn_afterLine, Nat.add_right_comm off _ (segTicks gs),
    Nat.add_assoc offs.length]

theorem State.nineIn_afterLine (s : State) (gs : List (Bool × Nat)) (offs : List Nat) (j off : Nat) :
    (s.afterLine gs offs).nineIn j off = s.nineIn (offs.length + j) (off + segTicks gs) := by
  simp only [State.nineIn, State.byteIn_afterLine, State.eightIn_afterLine,
    Nat.add_right_comm off _ (segTicks gs), Nat.add_assoc offs.length]

/-! Waveforms move nothing but time, the records, the inputs and the pin, so they commute with the hidden buffers. -/

theorem State.afterLine_stage (s : State) (gs : List (Bool × Nat)) (offs : List Nat) (k : Fin 9) (v : Byte) :
    (s.stage k v).afterLine gs offs = (s.afterLine gs offs).stage k v := by
  have h : ∀ j l log, (s.stage k v).samplesFrom j l log = s.samplesFrom j l log := by
    intro j l
    induction l generalizing j with
    | nil => intros; rfl
    | cons o l ih => intro log; exact ih (j + 1) _
  simp only [State.afterLine, h]
  rfl

theorem State.afterLine_setPresT (s : State) (gs : List (Bool × Nat)) (offs : List Nat) (p : Bool) :
    (s.setPresT p).afterLine gs offs = (s.afterLine gs offs).setPresT p := by
  have h : ∀ j l log, (s.setPresT p).samplesFrom j l log = s.samplesFrom j l log := by
    intro j l
    induction l generalizing j with
    | nil => intros; rfl
    | cons o l ih => intro log; exact ih (j + 1) _
  simp only [State.afterLine, h]
  rfl

@[simp] theorem State.byteIn_stage (s : State) (k : Fin 9) (v : Byte) (j off : Nat) :
    (s.stage k v).byteIn j off = s.byteIn j off := rfl

@[simp] theorem State.eightIn_setPresT (s : State) (p : Bool) (j off : Nat) :
    (s.setPresT p).eightIn j off = s.eightIn j off := rfl

@[simp] theorem State.nineIn_setPresT (s : State) (p : Bool) (j off : Nat) :
    (s.setPresT p).nineIn j off = s.nineIn j off := rfl

end Sys2Proof.Machine
end

