-- ==== Sys2Proof/Laws/Procedures.lean ====
section
/-! SUPPORT. One lemma per procedure, saying everything it does: its waveform, its samples, the bytes it read, and that nothing
else of the state moves. -/

namespace Sys2Proof.Machine

/-! One slot. -/

/-- R60. -/
theorem State.writeBit_eq (b : Bool) (s : State) : s.writeBit b = s.afterLine (writeSlotSegs b) [] := by
  cases b <;>
    simp [State.writeBit, State.driveLow, State.release, State.delay, State.afterLine, writeSlotSegs, segTicks,
      State.samplesFrom, Config.tWL, Config.tWH, Config.tWREC]

/-- R61. -/
theorem State.readBit_eq (s : State) :
    s.readBit = (s.levelAt 0 16, s.afterLine readSlotSegs [16]) := by
  have h15 : ∀ w, pushRun false 45 (pushRun false 15 w) = pushRun false 60 w := fun w => pushRun_pushRun _ _ _ w
  simp [State.readBit, State.driveLow, State.release, State.delay, State.sample, State.afterSample, State.lineLevel,
    State.afterLine, readSlotSegs, segTicks, State.samplesFrom, State.levelAt, Config.tRL, Config.tRS, Config.tRP,
    h15, List.getD_eq_getElem?_getD, List.head?_eq_getElem?]

/-- R64. -/
theorem State.resetBus_eq (s : State) :
    s.resetBus = (s.afterLine resetSlotSegs [540]).setPresT (!s.levelAt 0 540) := by
  have h60 : ∀ w, pushRun false 420 (pushRun false 60 w) = pushRun false 480 w := fun w => pushRun_pushRun _ _ _ w
  simp [State.resetBus, State.driveLow, State.release, State.delay, State.sample, State.afterSample, State.lineLevel,
    State.afterLine, resetSlotSegs, segTicks, State.samplesFrom, State.levelAt, State.setPresT, Config.tRSTL,
    Config.tPDS, Config.tRSTR, h60, List.getD_eq_getElem?_getD, List.head?_eq_getElem?]

/-! Bytes out. -/

/-- R62. -/
theorem State.writeByte_eq (v : Byte) (s : State) : s.writeByte v = s.afterLine (byteOutSegs v) [] := by
  simp [State.writeByte, lsbFirst, byteOutSegs, State.writeBit_eq, State.afterLine_afterLine]

/-- No waveform at all, once the line is released. -/
theorem State.afterLine_nil {s : State} (h : s.owOe = false) : s.afterLine [] [] = s := by
  cases s
  simp_all [State.afterLine, segTicks, State.samplesFrom]

/-- R70: bytes follow one another without a gap. -/
theorem State.writeBytes_eq {s : State} (h : s.owOe = false) (vs : List Byte) :
    s.writeBytes vs = s.afterLine (bytesOutSegs vs) [] := by
  induction vs generalizing s with
  | nil => exact (State.afterLine_nil h).symm
  | cons v vs ih =>
    have hw : s.writeBytes (v :: vs) = (s.writeByte v).writeBytes vs := rfl
    rw [hw, State.writeByte_eq, ih rfl, State.afterLine_afterLine]
    rfl

/-! Bytes in. -/

theorem setBit_eight (b0 b1 b2 b3 b4 b5 b6 b7 : Bool) :
    setBit (setBit (setBit (setBit (setBit (setBit (setBit (setBit 0#8 0 b0) 1 b1) 2 b2) 3 b3) 4 b4) 5 b5) 6 b6) 7 b7 =
      byteOfBits b0 b1 b2 b3 b4 b5 b6 b7 := by
  revert b0 b1 b2 b3 b4 b5 b6 b7
  decide

/-- R63. -/
theorem State.readByte_eq (s : State) :
    s.readByte = (s.byteIn 0 0, s.afterLine byteInSegs (byteInOffsets 0)) := by
  have hseg : byteInSegs = readSlotSegs ++ (readSlotSegs ++ (readSlotSegs ++ (readSlotSegs ++ (readSlotSegs ++
      (readSlotSegs ++ (readSlotSegs ++ readSlotSegs)))))) := rfl
  simp only [State.readByte, List.foldl_cons, List.foldl_nil, State.readBitAt, State.readBit_eq,
    State.afterLine_afterLine, State.levelAt_afterLine, setBit_eight, State.byteIn, byteInOffsets, hseg,
    segTicks_append, segTicks_readSlotSegs, List.map_cons, List.map_nil, List.append_assoc, List.cons_append,
    List.nil_append, List.length_cons, List.length_nil, Nat.reduceAdd]

theorem State.readByteTo_eq (s : State) (k : Fin 9) :
    s.readByteTo k = (s.afterLine byteInSegs (byteInOffsets 0)).stage k (s.byteIn 0 0) := by
  simp only [State.readByteTo, State.readByte_eq]

/-- The buffer after some bytes were staged. -/
def stageAll (kvs : List (Fin 9 × Byte)) (s : State) : State := kvs.foldl (fun s kv => s.stage kv.1 kv.2) s

/-- The same on the buffer alone. -/
def setAll : List (Fin 9 × Byte) → Vector Byte 9 → Vector Byte 9
  | [], v => v
  | kv :: kvs, v => setAll kvs (v.set kv.1.val kv.2 kv.1.isLt)

theorem stageAll_eq (kvs : List (Fin 9 × Byte)) (s : State) :
    stageAll kvs s = { s with hid := { s.hid with stg := setAll kvs s.hid.stg } } := by
  induction kvs generalizing s with
  | nil => rfl
  | cons kv kvs ih => exact ih (s.stage kv.1 kv.2)

theorem State.afterLine_stageAll (kvs : List (Fin 9 × Byte)) (s : State) (gs : List (Bool × Nat)) (offs : List Nat) :
    (stageAll kvs s).afterLine gs offs = stageAll kvs (s.afterLine gs offs) := by
  induction kvs generalizing s with
  | nil => rfl
  | cons kv kvs ih =>
    have h : stageAll (kv :: kvs) s = stageAll kvs (s.stage kv.1 kv.2) := rfl
    rw [h, ih, State.afterLine_stage]
    rfl

theorem State.byteIn_stageAll (kvs : List (Fin 9 × Byte)) (s : State) (j off : Nat) :
    (stageAll kvs s).byteIn j off = s.byteIn j off := by
  induction kvs generalizing s with
  | nil => rfl
  | cons kv kvs ih => exact (ih (s.stage kv.1 kv.2)).trans (State.byteIn_stage s kv.1 kv.2 j off)

/-- Where a list of bytes read in a row goes, and which samples spell each. -/
def stagedBytes (s : State) : List (Fin 9) → Nat → Nat → List (Fin 9 × Byte)
  | [], _, _ => []
  | k :: ks, j, off => (k, s.byteIn j off) :: stagedBytes s ks (j + 8) (off + 488)

theorem stagedBytes_afterLine (s : State) (gs : List (Bool × Nat)) (offs : List Nat) (ks : List (Fin 9)) (j off : Nat) :
    stagedBytes (s.afterLine gs offs) ks j off = stagedBytes s ks (offs.length + j) (off + segTicks gs) := by
  induction ks generalizing j off with
  | nil => rfl
  | cons k ks ih =>
    simp only [stagedBytes, ih, State.byteIn_afterLine, Nat.add_assoc, Nat.add_comm 488 (segTicks gs)]

theorem stagedBytes_stage (s : State) (k : Fin 9) (v : Byte) (ks : List (Fin 9)) (j off : Nat) :
    stagedBytes (s.stage k v) ks j off = stagedBytes s ks j off := by
  induction ks generalizing j off with
  | nil => rfl
  | cons k ks ih => simp only [stagedBytes, ih, State.byteIn_stage]

/-- R63, R70: bytes read in a row. -/
theorem State.foldl_readByteTo {s : State} (h : s.owOe = false) (ks : List (Fin 9)) :
    ks.foldl State.readByteTo s =
      stageAll (stagedBytes s ks 0 0) (s.afterLine (bytesInSegs ks.length) (bytesInOffsets ks.length 0)) := by
  induction ks generalizing s with
  | nil => exact (State.afterLine_nil h).symm
  | cons k ks ih =>
    rw [List.foldl_cons, State.readByteTo_eq, ih rfl, stagedBytes_stage, stagedBytes_afterLine,
      State.afterLine_stage, State.afterLine_afterLine]
    simp only [segTicks_byteInSegs, bytesInOffsets_map_add]
    rfl

/-- The staging buffer after eight bytes. -/
theorem setAll_eight (v : Vector Byte 9) (b0 b1 b2 b3 b4 b5 b6 b7 : Byte) :
    setAll [(0, b0), (1, b1), (2, b2), (3, b3), (4, b4), (5, b5), (6, b6), (7, b7)] v =
      (#v[b0, b1, b2, b3, b4, b5, b6, b7]).push v[8] := by
  refine Vector.ext fun i hi => ?_
  interval_cases i <;> simp [setAll]

/-- The staging buffer after nine bytes. -/
theorem setAll_nine (v : Vector Byte 9) (b0 b1 b2 b3 b4 b5 b6 b7 b8 : Byte) :
    setAll [(0, b0), (1, b1), (2, b2), (3, b3), (4, b4), (5, b5), (6, b6), (7, b7), (8, b8)] v =
      (#v[b0, b1, b2, b3, b4, b5, b6, b7]).push b8 := by
  refine Vector.ext fun i hi => ?_
  interval_cases i <;> simp [setAll]

theorem stagedBytes_eight (s : State) (j off : Nat) (v : Vector Byte 9) :
    setAll (stagedBytes s [0, 1, 2, 3, 4, 5, 6, 7] j off) v = (s.eightIn j off).push v[8] :=
  setAll_eight ..

theorem stagedBytes_nine (s : State) (j off : Nat) (v : Vector Byte 9) :
    setAll (stagedBytes s [0, 1, 2, 3, 4, 5, 6, 7, 8] j off) v = s.nineIn j off :=
  setAll_nine ..

/-- The staging buffer with a new content. -/
def State.setStg (v : Vector Byte 9) (s : State) : State := { s with hid := { s.hid with stg := v } }

@[simp] theorem State.setStg_hid (v : Vector Byte 9) (s : State) : (s.setStg v).hid = { s.hid with stg := v } := rfl

theorem stageAll_eq_setStg (kvs : List (Fin 9 × Byte)) (s : State) :
    stageAll kvs s = s.setStg (setAll kvs s.hid.stg) := stageAll_eq kvs s

/-- R75: the eight bytes of a ROM code. -/
theorem State.readEight_eq {s : State} (h : s.owOe = false) :
    s.readEight =
      (s.afterLine (bytesInSegs 8) (bytesInOffsets 8 0)).setStg ((s.eightIn 0 0).push s.hid.stg[8]) := by
  rw [State.readEight, State.foldl_readByteTo h, stageAll_eq_setStg, stagedBytes_eight, State.afterLine_hid]
  simp only [List.length_cons, List.length_nil, Nat.reduceAdd]

/-- R85: the nine bytes of a scratchpad. -/
theorem State.readNine_eq {s : State} (h : s.owOe = false) :
    s.readNine = (s.afterLine (bytesInSegs 9) (bytesInOffsets 9 0)).setStg (s.nineIn 0 0) := by
  rw [State.readNine, State.foldl_readByteTo h, stageAll_eq_setStg, stagedBytes_nine]
  simp only [List.length_cons, List.length_nil, Nat.reduceAdd]

/-! Sequences. -/

/-- The presence sample comes before the others. Not by `rfl`, so that no proof unfolds the offsets. -/
theorem offset_cons (o : Nat) (l : List Nat) : [o] ++ l = o :: l := by simp

/-- R76: the presence result is recorded and not acted on. -/
theorem State.matchRom_eq (s : State) :
    s.matchRom = (s.afterLine (matchRomSegs s) [540]).setPresT (!s.levelAt 0 540) := by
  have h : ∀ (x : State), x.owOe = false → ∀ v vs, (x.writeByte v).writeBytes vs = x.afterLine (bytesOutSegs (v :: vs)) [] :=
    fun x hx v vs => State.writeBytes_eq hx (v :: vs)
  rw [State.matchRom, State.resetBus_eq, h _ rfl, State.afterLine_setPresT, State.afterLine_afterLine]
  rfl

/-- The MATCH_ROM frame and one byte more (R52). -/
theorem State.matchRom_writeByte (s : State) (v : Byte) :
    s.matchRom.writeByte v =
      (s.afterLine (matchRomSegs s ++ byteOutSegs v) [540]).setPresT (!s.levelAt 0 540) := by
  rw [State.matchRom_eq, State.writeByte_eq, State.afterLine_setPresT, State.afterLine_afterLine]
  simp only [List.map_nil, List.append_nil]

/-- The MATCH_ROM frame and several bytes more (R52). -/
theorem State.matchRom_writeBytes (s : State) (v : Byte) (vs : List Byte) :
    (s.matchRom.writeByte v).writeBytes vs =
      (s.afterLine (matchRomSegs s ++ bytesOutSegs (v :: vs)) [540]).setPresT (!s.levelAt 0 540) := by
  have h : bytesOutSegs (v :: vs) = byteOutSegs v ++ bytesOutSegs vs := rfl
  rw [State.matchRom_writeByte, State.writeBytes_eq rfl, State.afterLine_setPresT, State.afterLine_afterLine, h]
  simp only [List.map_nil, List.append_nil, List.append_assoc]

/-- R75, an absent device: nothing more is sent. -/
theorem State.readRom_absent {s : State} (h : s.levelAt 0 540 = true) :
    s.readRom = (s.afterLine resetSlotSegs [540]).setPresT false := by
  simp [State.readRom, State.resetBus_eq, h]

/-- R75, a device is present. -/
theorem State.readRom_present {s : State} (h : s.levelAt 0 540 = false) :
    s.readRom =
      ((s.afterLine (readRomSegs s) (540 :: bytesInOffsets 8 1448)).setPresT true).setStg
        ((s.eightIn 1 1448).push s.hid.stg[8]) := by
  have hr : s.readRom = ((s.resetBus).writeByte s.cfg.cmdReadRom).readEight := by
    simp [State.readRom, State.resetBus_eq, h]
  rw [hr, State.resetBus_eq, State.writeByte_eq, State.afterLine_setPresT, State.afterLine_afterLine,
    State.readEight_eq rfl, State.afterLine_setPresT, State.afterLine_afterLine]
  simp only [State.eightIn_setPresT, State.eightIn_afterLine, segTicks_append, segTicks_resetSlotSegs,
    segTicks_byteOutSegs, bytesInOffsets_map_add, List.map_nil, List.append_nil, List.length_cons,
    List.length_nil, Nat.reduceAdd, h, offset_cons, Bool.not_false, readRomSegs, State.setPresT_hid,
    State.afterLine_hid]

/-- R85. -/
theorem State.readScratchpad_eq (s : State) :
    s.readScratchpad =
      ((s.afterLine (matchRomSegs s ++ byteOutSegs s.cfg.cmdReadScratchpad ++ bytesInSegs 9)
          (540 :: bytesInOffsets 9 5840)).setPresT (!s.levelAt 0 540)).setStg (s.nineIn 1 5840) := by
  have hc : s.matchRom.cfg = s.cfg := by rw [State.matchRom_eq]; rfl
  rw [State.readScratchpad, hc, State.matchRom_eq, State.writeByte_eq, State.afterLine_setPresT,
    State.afterLine_afterLine, State.readNine_eq rfl, State.afterLine_setPresT, State.afterLine_afterLine]
  simp only [State.nineIn_setPresT, State.nineIn_afterLine, segTicks_append, segTicks_matchRomSegs,
    segTicks_byteOutSegs, bytesInOffsets_map_add, List.map_nil, List.append_nil, List.length_cons,
    List.length_nil, Nat.reduceAdd, offset_cons]

end Sys2Proof.Machine
end

