-- ==== Sys2Proof/Laws/Commits.lean ====
section
/-! SUPPORT. What each commit leaves (10_state.md R27), once the command's waveform is over and the line is released. The state
before the commit is any state here, so that no proof looks into a waveform. -/

namespace Sys2Proof.Machine

/-- Completion with the line already released (R49, R112). -/
theorem State.complete_released {s : State} (h : s.owOe = false) (e : ErrCode) :
    s.complete e = { s with busy := false, seq := .idle, err := e, hid := Config.freeHidden s.now } := by
  cases s
  simp_all [State.complete]

theorem State.commitNothing_eq {s : State} (h : s.owOe = false) :
    s.commitNothing = { s with busy := false, seq := .idle, err := .ok, hid := Config.freeHidden s.now } :=
  State.complete_released h _

theorem State.commitRx_eq {s : State} (h : s.owOe = false) (v : Byte) :
    s.commitRx v =
      { s with rxdata := v, busy := false, seq := .idle, err := .ok, hid := Config.freeHidden s.now } :=
  State.complete_released (s := { s with rxdata := v }) h _

theorem State.commitPresence_eq {s : State} (h : s.owOe = false) (p : Bool) :
    (s.setPresT p).commitPresence =
      { s with present := p, busy := false, seq := .idle, err := .ok, hid := Config.freeHidden s.now } :=
  State.complete_released (s := { s.setPresT p with present := p }) h _

theorem State.commitReadRom_absent {s : State} (h : s.owOe = false) :
    (s.setPresT false).commitReadRom =
      { s with present := false, busy := false, seq := .idle, err := .noDevice, hid := Config.freeHidden s.now } :=
  State.complete_released (s := { s.setPresT false with present := false }) h _

/-- The first eight bytes of a buffer filled with eight and one more. -/
theorem firstEight_push (v : Vector Byte 8) (b : Byte) : firstEight (v.push b) = v := by
  refine Vector.ext fun i hi => ?_
  interval_cases i <;> simp [firstEight]

theorem State.commitReadRom_present {s : State} (h : s.owOe = false) (v : Vector Byte 8) (b : Byte) :
    ((s.setPresT true).setStg (v.push b)).commitReadRom =
      { s with
        present := true, rbuf := v, busy := false, seq := .idle, err := .ok, hid := Config.freeHidden s.now } := by
  have hc : ((s.setPresT true).setStg (v.push b)).commitReadRom =
      { (s.setPresT true).setStg (v.push b) with
        present := true, rbuf := firstEight (v.push b) }.complete .ok := rfl
  rw [hc, firstEight_push]
  exact State.complete_released (s := { (s.setPresT true).setStg (v.push b) with present := true, rbuf := v }) h _

theorem State.commitInit_absent {s : State} (h : s.owOe = false) :
    (s.setPresT false).commitInit =
      { s with
        present := false, romValid := false
        busy := false, seq := .idle, err := .noDevice, hid := Config.freeHidden s.now } :=
  State.complete_released (s := { s.setPresT false with romValid := false, present := false }) h _

theorem State.commitInit_mismatch {s : State} (h : s.owOe = false) (v : Vector Byte 8) (b : Byte)
    (hf : v[0] ≠ s.cfg.familyCode) :
    ((s.setPresT true).setStg (v.push b)).commitInit =
      { s with
        present := true, rbuf := v, romValid := false
        busy := false, seq := .idle, err := .deviceMismatch, hid := Config.freeHidden s.now } := by
  have h0 : (v.push b)[0] ≠ s.cfg.familyCode := by simpa [Vector.getElem_push] using hf
  have hc : ((s.setPresT true).setStg (v.push b)).commitInit =
      { (s.setPresT true).setStg (v.push b) with
        present := true, rbuf := firstEight (v.push b), romValid := false }.complete .deviceMismatch :=
    if_neg h0
  rw [hc, firstEight_push]
  exact State.complete_released
    (s := { (s.setPresT true).setStg (v.push b) with present := true, rbuf := v, romValid := false }) h _

theorem State.commitInit_match {s : State} (h : s.owOe = false) (v : Vector Byte 8) (b : Byte)
    (hf : v[0] = s.cfg.familyCode) :
    ((s.setPresT true).setStg (v.push b)).commitInit =
      { s with
        present := true, rbuf := v, rom := v, romValid := true
        busy := false, seq := .idle, err := .ok, hid := Config.freeHidden s.now } := by
  have h0 : (v.push b)[0] = s.cfg.familyCode := by simpa [Vector.getElem_push] using hf
  have hc : ((s.setPresT true).setStg (v.push b)).commitInit =
      { (s.setPresT true).setStg (v.push b) with
        present := true, rbuf := firstEight (v.push b), rom := firstEight (v.push b), romValid := true }.complete .ok :=
    if_pos h0
  rw [hc, firstEight_push]
  exact State.complete_released
    (s := { (s.setPresT true).setStg (v.push b) with present := true, rbuf := v, rom := v, romValid := true }) h _

theorem State.commitScratchpad_eq {s : State} (h : s.owOe = false) (p : Bool) (v : Vector Byte 9) :
    ((s.setPresT p).setStg v).commitScratchpad =
      { s with
        present := p, scr := v, scrValid := true
        busy := false, seq := .idle, err := .ok, hid := Config.freeHidden s.now } :=
  State.complete_released
    (s := { (s.setPresT p).setStg v with present := p, scr := v, scrValid := true }) h _

theorem State.commitTemperature_eq {s : State} (h : s.owOe = false) (p : Bool) (v : Vector Byte 9) :
    ((s.setPresT p).setStg v).commitTemperature =
      { s with
        present := p, scr := v, scrValid := true
        temp := decodeTemp s.cfg.decodeSigned v[0] v[1], tempValid := true
        busy := false, seq := .idle, err := .ok, hid := Config.freeHidden s.now } :=
  State.complete_released
    (s := { (s.setPresT p).setStg v with
      present := p, scr := v, scrValid := true
      temp := decodeTemp s.cfg.decodeSigned v[0] v[1], tempValid := true }) h _

end Sys2Proof.Machine
end

