-- ==== Sys2Proof/Laws/Step.lean ====
section
/-! SUPPORT. What a step can do, said once: a step is a tick or a whole command; a tick is a `rst`, an idle tick, an illegal
word, a start, or a tick of a running operation; and such a tick only moves the hidden registers, the pin and the time, or
commits. -/

namespace Sys2Proof.Machine

/-! Outcomes. -/

/-- Every command completes, on every state (70_reset_and_hazards.md R141). -/
theorem exec_next (i : Instr) (s : State) : ∃ t, exec i s = .next t := by
  cases i <;> exact ⟨_, rfl⟩

theorem exec_accept_next (s : State) (i : Instr) : ∃ t, exec i (s.accept s.port.cmdWord) = .next t := exec_next _ _

/-- A step is one tick, or the whole operation of the command accepted in this tick (log entry 6). -/
theorem step_cases {s t : State} (h : step s = .next t) :
    t = s.tick ∨
      ∃ i, s.acceptedCommand = some i ∧ exec i (s.accept s.port.cmdWord) = .next t ∧ runsToCompletion s t = true := by
  unfold step at h
  split at h
  next i hi =>
    obtain ⟨u, hu⟩ := exec_accept_next s i
    rw [hu] at h
    simp only [Host.Outcome.next.injEq] at h
    split at h
    next hr => exact .inr ⟨i, hi, h ▸ hu, h ▸ hr⟩
    next => exact .inl h.symm
  next => exact .inl (Host.Outcome.next.inj h).symm

/-- A step answers a next state on every state (R141). -/
theorem step_next (s : State) : ∃ t, step s = .next t := by
  unfold step
  split
  next i _ =>
    obtain ⟨u, hu⟩ := exec_accept_next s i
    exact ⟨_, by rw [hu]⟩
  next => exact ⟨_, rfl⟩

/-- Acceptance (30_encoding.md R49). -/
theorem acceptedCommand_eq_some {s : State} {i : Instr} (h : s.acceptedCommand = some i) :
    s.port.rst = false ∧ s.port.cmdValid = true ∧ s.busy = false ∧ decode s.port.cmdWord = .ok i := by
  unfold State.acceptedCommand at h
  split at h
  next hc =>
    simp only [Bool.and_eq_true, Bool.not_eq_true'] at hc
    cases hd : decode s.port.cmdWord with
    | ok j =>
      rw [hd] at h
      simp only [Except.toOption, Option.some.injEq] at h
      exact ⟨hc.1.1, hc.1.2, hc.2, h ▸ rfl⟩
    | error e => rw [hd] at h; simp [Except.toOption] at h
  next => cases h

/-! The state a host or a later command can see. -/

/-- A state with the pin, the sequencer, the hidden registers and the samples blotted out: what is left is what the host
sees, the inputs, and the time with its record. -/
def State.visible (s : State) : State :=
  { s with owOe := false, seq := .idle, hid := Hidden.atReset, lineIn := [], sampled := [] }

@[simp] theorem State.visible_afterSample (s : State) : s.afterSample.visible = s.visible := rfl
@[simp] theorem State.visible_setPresT (p : Bool) (s : State) : (s.setPresT p).visible = s.visible := rfl
@[simp] theorem State.visible_stage (k : Fin 9) (v : Byte) (s : State) : (s.stage k v).visible = s.visible := rfl
@[simp] theorem State.visible_enterPhase (ph : Phase) (s : State) : (s.enterPhase ph).visible = s.visible := rfl
@[simp] theorem State.visible_enterByte (k : Nat) (v : Byte) (ph : Phase) (s : State) :
    (s.enterByte k v ph).visible = s.visible := rfl
@[simp] theorem State.visible_nextBit (ph : Phase) (s : State) : (s.nextBit ph).visible = s.visible := rfl
@[simp] theorem State.visible_enterStep (st : SeqStep × Transfer) (s : State) :
    (s.enterStep st).visible = s.visible := by
  obtain ⟨_, tr⟩ := st
  cases tr <;> rfl
@[simp] theorem State.visible_phaseSample (s : State) : s.phaseSample.visible = s.visible := by
  unfold State.phaseSample
  split
  · split <;> rfl
  · rfl
theorem State.visible_delay (n : Nat) (s : State) (h : s.owOe = false) : (s.delay n).visible = s.visible.delay n := by
  simp [State.visible, State.delay, h]

/-- The pin and the sequencer of a running operation (R140). -/
def State.running (s : State) : Prop :=
  s.seq ≠ .idle ∧ s.owOe = s.seq.drives (s.hid.shr.getLsbD s.hid.bitI.val)

theorem State.running_enterPhase {ph : Phase} (h : ph ≠ .idle) (s : State) : (s.enterPhase ph).running := ⟨h, rfl⟩
theorem State.running_enterByte {ph : Phase} (h : ph ≠ .idle) (k : Nat) (v : Byte) (s : State) :
    (s.enterByte k v ph).running := ⟨h, rfl⟩
theorem State.running_nextBit {ph : Phase} (h : ph ≠ .idle) (s : State) : (s.nextBit ph).running := ⟨h, rfl⟩
theorem State.running_enterStep (st : SeqStep × Transfer) (s : State) : (s.enterStep st).running := by
  obtain ⟨_, tr⟩ := st
  cases tr <;> exact ⟨Phase.noConfusion, rfl⟩

/-- What a tick of a running operation can leave of `s`, for the command `i`: the operation goes on, it commits, or the
sequencer was in a state no run reaches. -/
def State.GoesTo (i : Instr) (s t : State) : Prop :=
  ∃ x : State, x.visible = s.visible ∧ ((t = x ∧ x.running) ∨ t = commitOf i x ∨ t = x.strayEnd)

theorem State.stepEnd_cases (i : Instr) (s : State) : s.GoesTo i (s.stepEnd i) := by
  unfold State.stepEnd
  split
  · exact ⟨s, rfl, .inr (.inl rfl)⟩
  · split
    · exact ⟨s, rfl, .inr (.inl rfl)⟩
    · exact ⟨_, State.visible_enterStep .., .inl ⟨rfl, State.running_enterStep ..⟩⟩

theorem State.slotEnd_cases (i : Instr) (s : State) : s.GoesTo i (s.slotEnd i) := by
  unfold State.slotEnd
  split
  · exact ⟨s, rfl, .inr (.inr rfl)⟩
  · exact s.stepEnd_cases i
  · exact s.stepEnd_cases i
  · exact s.stepEnd_cases i
  · split
    · exact ⟨_, State.visible_nextBit .., .inl ⟨rfl, State.running_nextBit Phase.noConfusion _⟩⟩
    · split
      · exact ⟨_, State.visible_enterByte .., .inl ⟨rfl, State.running_enterByte Phase.noConfusion ..⟩⟩
      · exact s.stepEnd_cases i
  · split
    · exact ⟨_, State.visible_nextBit .., .inl ⟨rfl, State.running_nextBit Phase.noConfusion _⟩⟩
    · dsimp only
      split
      · exact ⟨_, by rw [State.visible_enterByte, State.visible_stage],
          .inl ⟨rfl, State.running_enterByte Phase.noConfusion ..⟩⟩
      · exact (s.stage s.hid.byteI s.hid.shr).stepEnd_cases i

theorem State.phaseEnd_cases (i : Instr) (s : State) : s.GoesTo i (s.phaseEnd i) := by
  unfold State.phaseEnd
  split
  · exact ⟨s, rfl, .inr (.inr rfl)⟩
  · exact ⟨_, State.visible_enterPhase .., .inl ⟨rfl, State.running_enterPhase Phase.noConfusion _⟩⟩
  · exact ⟨_, State.visible_enterPhase .., .inl ⟨rfl, State.running_enterPhase Phase.noConfusion _⟩⟩
  · exact s.stepEnd_cases i
  · exact ⟨_, State.visible_enterPhase .., .inl ⟨rfl, State.running_enterPhase Phase.noConfusion _⟩⟩
  · exact ⟨_, State.visible_enterPhase .., .inl ⟨rfl, State.running_enterPhase Phase.noConfusion _⟩⟩
  · exact s.slotEnd_cases i
  · exact ⟨_, State.visible_enterPhase .., .inl ⟨rfl, State.running_enterPhase Phase.noConfusion _⟩⟩
  · exact ⟨_, State.visible_enterPhase .., .inl ⟨rfl, State.running_enterPhase Phase.noConfusion _⟩⟩
  · exact s.slotEnd_cases i

/-- The pin holds its level for the tick in which a sample is taken (R9). -/
theorem State.phaseSample_owOe (s : State) : s.phaseSample.owOe = s.owOe := by
  unfold State.phaseSample
  split
  · split <;> rfl
  · rfl

theorem State.phaseSample_seq (s : State) : s.phaseSample.seq = s.seq := by
  unfold State.phaseSample
  split
  · split <;> rfl
  · rfl

/-- What a tick of a running operation does (R140): time passes with the pin as it is, and the operation goes on, commits
the command in `CMDR`, or ends in a sequencer state no run reaches. -/
theorem State.busyTick_cases (s : State) :
    ∃ x : State, x.visible = (s.delay 1).visible ∧
      ((s.busyTick = x ∧ x.seq = s.seq ∧ x.owOe = s.owOe ∧ x.hid.bitI = s.hid.bitI ∧
          (x.hid.shr = s.hid.shr ∨ s.seq = .rPad)) ∨
        (s.busyTick = x ∧ x.running) ∨
        (∃ i, decode s.cmdr = .ok i ∧ s.busyTick = commitOf i x) ∨ s.busyTick = x.strayEnd) := by
  have hv : (s.phaseSample.delay 1).visible = (s.delay 1).visible := by
    unfold State.phaseSample
    split
    · split <;> rfl
    · rfl
  have hc : (s.phaseSample.delay 1).cmdr = s.cmdr := by
    unfold State.phaseSample
    split
    · split <;> rfl
    · rfl
  unfold State.busyTick
  dsimp only
  split
  · rw [hc]
    split
    next i hd =>
      obtain ⟨x, hx, h⟩ := (s.phaseSample.delay 1).phaseEnd_cases i
      refine ⟨x, hx.trans hv, ?_⟩
      rcases h with ⟨h, hr⟩ | h | h
      · exact .inr (.inl ⟨h, hr⟩)
      · exact .inr (.inr (.inl ⟨i, hd, h⟩))
      · exact .inr (.inr (.inr h))
    next => exact ⟨_, hv, .inr (.inr (.inr rfl))⟩
  · refine ⟨_, ?_, .inl ⟨rfl, s.phaseSample_seq, s.phaseSample_owOe, ?_, ?_⟩⟩
    · exact hv
    · unfold State.phaseSample
      split
      · split <;> rfl
      · rfl
    · unfold State.phaseSample
      split
      · split <;> first | exact .inl rfl | exact .inr ‹_›
      · exact .inl rfl

/-- No command is without steps (R140). -/
theorem stepsOf_ne_nil (i : Instr) (s : State) : stepsOf i s ≠ [] := by
  cases i <;> simp [stepsOf, matchSteps, readRomSteps]

/-- The start tick shows the first phase of the command (R49, R140). -/
theorem State.start_cases (i : Instr) (w : Word) (s : State) :
    ∃ x : State, x.visible = (s.accept w).visible ∧ s.start i w = x ∧ x.running := by
  unfold State.start
  split
  next h => exact absurd h (stepsOf_ne_nil i s)
  next st _ _ => exact ⟨_, State.visible_enterStep .., rfl, State.running_enterStep ..⟩

/-- What a tick can be (R49, R130). -/
theorem State.tick_cases (s : State) :
    (s.port.rst = true ∧ s.tick = s.resetTick) ∨
    (s.port.rst = false ∧ s.busy = true ∧ s.tick = s.busyTick) ∨
    (s.port.rst = false ∧ s.busy = false ∧ s.port.cmdValid = false ∧ s.tick = s.delay 1) ∨
    (s.port.rst = false ∧ s.busy = false ∧ s.port.cmdValid = true ∧
      ((∃ i, decode s.port.cmdWord = .ok i ∧ s.tick = s.start i s.port.cmdWord) ∨
        ∃ e, decode s.port.cmdWord = .error e ∧ s.tick = s.acceptIllegal s.port.cmdWord)) := by
  unfold State.tick
  split
  next h => exact .inl ⟨h, rfl⟩
  next hr =>
    have hr := eq_false_of_ne_true hr
    split
    next hb => exact .inr (.inl ⟨hr, hb, rfl⟩)
    next hb =>
      have hb := eq_false_of_ne_true hb
      split
      next hv =>
        cases hd : decode s.port.cmdWord with
        | ok i => exact .inr (.inr (.inr ⟨hr, hb, hv, .inl ⟨i, rfl, rfl⟩⟩))
        | error e => exact .inr (.inr (.inr ⟨hr, hb, hv, .inr ⟨e, rfl, rfl⟩⟩))
      next hv => exact .inr (.inr (.inl ⟨hr, hb, eq_false_of_ne_true hv, rfl⟩))

theorem ticks_succ (n : Nat) (s : State) : ticks (n + 1) s = ticks n s.tick := rfl

theorem ticks_add (m n : Nat) (s : State) : ticks (m + n) s = ticks n (ticks m s) := by
  induction m generalizing s with
  | zero => simp [ticks]
  | succ m ih => rw [Nat.succ_add, ticks_succ, ih, ticks_succ]

end Sys2Proof.Machine
end

