-- ==== Sys2Proof/Laws/Commands.lean ====
section
/-! SUPPORT. A command is a walk on the line and a commit: the pseudocode and the reference sequencer share the commit, so what a
commit writes is said once for both (10_state.md R27). -/

namespace Sys2Proof.Machine

/-- A value left in `SHR`, where the sequencer keeps the byte it receives (70_reset_and_hazards.md R140). -/
def State.setShr (v : Byte) (s : State) : State := { s with hid := { s.hid with shr := v } }

/-- What a command does before its commit, the value read by READ_BIT or READ_BYTE in `SHR`. -/
def bodyOf (i : Instr) (s : State) : State :=
  match i with
  | .resetBus => s.resetBus
  | .writeBit bit => s.writeBit bit
  | .readBit => s.readBit.2.setShr (zextBit s.readBit.1)
  | .writeByte byte => s.writeByte byte
  | .readByte => s.readByte.2.setShr s.readByte.1
  | .readRom => s.readRom
  | .matchRom => s.matchRom
  | .init => s.readRom
  | .startConversion => s.matchRom.writeByte s.cfg.cmdConvertT
  | .writeScratchpad highAlarm lowAlarm config =>
    (s.matchRom.writeByte s.cfg.cmdWriteScratchpad).writeBytes (scratchpadOperands highAlarm lowAlarm config)
  | .copyScratchpad => s.matchRom.writeByte s.cfg.cmdCopyScratchpad
  | .readScratchpad => s.readScratchpad
  | .readTemperature => s.readScratchpad

theorem State.commitRx_setShr (v : Byte) (s : State) : (s.setShr v).commitRx (s.setShr v).hid.shr = s.commitRx v := rfl

/-- A command ends with the commit of 10_state.md R27. -/
theorem exec_eq_commitOf (i : Instr) (s : State) : exec i s = .next (commitOf i (bodyOf i s)) := by
  cases i
  case readBit =>
    rw [exec, execReadBit, commitOf, bodyOf, State.commitRx_setShr]
  case readByte =>
    rw [exec, execReadByte, commitOf, bodyOf, State.commitRx_setShr]
  all_goals rfl

/-- New contents for the hidden registers. -/
def State.setHid (h : Hidden) (s : State) : State := { s with hid := h }

theorem State.setPresT_eq_setHid (p : Bool) (s : State) : s.setPresT p = s.setHid { s.hid with presT := p } := rfl

theorem State.setPresT_setStg_eq_setHid (p : Bool) (v : Vector Byte 9) (s : State) :
    (s.setPresT p).setStg v = s.setHid { s.hid with presT := p, stg := v } := rfl

/-- `b` is `s` after a waveform of `n` ticks; the hidden registers may have changed, and `PRES_T` is `p` where a reset slot was
part of it. -/
def State.LineRun (n : Nat) (p : Option Bool) (s b : State) : Prop :=
  ∃ gs offs h, b = (s.afterLine gs offs).setHid h ∧ segTicks gs = n ∧ ∀ q, p = some q → h.presT = q

variable {s b : State} {n : Nat} {gs : List (Bool × Nat)} {offs : List Nat}

theorem State.lineRun_plain (h : b = s.afterLine gs offs) (hn : segTicks gs = n) : s.LineRun n none b :=
  ⟨gs, offs, (s.afterLine gs offs).hid, h, hn, fun _ h => nomatch h⟩

theorem State.lineRun_shr {v : Byte} (h : b = (s.afterLine gs offs).setShr v) (hn : segTicks gs = n) :
    s.LineRun n none b :=
  ⟨gs, offs, { (s.afterLine gs offs).hid with shr := v }, h, hn, fun _ h => nomatch h⟩

theorem State.lineRun_presT {p : Bool} (h : b = (s.afterLine gs offs).setPresT p) (hn : segTicks gs = n) :
    s.LineRun n (some p) b :=
  ⟨gs, offs, { (s.afterLine gs offs).hid with presT := p }, h, hn, fun _ h => Option.some.inj h⟩

theorem State.lineRun_stg {p : Bool} {v : Vector Byte 9} (h : b = ((s.afterLine gs offs).setPresT p).setStg v)
    (hn : segTicks gs = n) : s.LineRun n (some p) b :=
  ⟨gs, offs, { (s.afterLine gs offs).hid with presT := p, stg := v }, h, hn, fun _ h => Option.some.inj h⟩

/-- Before its commit a command only lets time pass, records what the pin did and sampled, and fills the hidden buffers. -/
theorem bodyOf_line (i : Instr) (s : State) :
    s.LineRun (duration (!s.levelAt 0 540) i) (if hasResetSlot i then some (!s.levelAt 0 540) else none) (bodyOf i s) := by
  cases i with
  | resetBus => exact State.lineRun_presT (State.resetBus_eq s) segTicks_resetSlotSegs
  | writeBit bit => exact State.lineRun_plain (State.writeBit_eq bit s) (segTicks_writeSlotSegs bit)
  | readBit =>
    rw [bodyOf, State.readBit_eq]
    exact State.lineRun_shr rfl segTicks_readSlotSegs
  | writeByte byte => exact State.lineRun_plain (State.writeByte_eq byte s) (segTicks_byteOutSegs byte)
  | readByte =>
    rw [bodyOf, State.readByte_eq]
    exact State.lineRun_shr rfl segTicks_byteInSegs
  | readRom | init =>
    cases h : s.levelAt 0 540 with
    | true => exact State.lineRun_presT (State.readRom_absent h) segTicks_resetSlotSegs
    | false => exact State.lineRun_stg (State.readRom_present h) (segTicks_readRomSegs s)
  | matchRom => exact State.lineRun_presT (State.matchRom_eq s) (segTicks_matchRomSegs s)
  | startConversion | copyScratchpad =>
    exact State.lineRun_presT (State.matchRom_writeByte s _) (by simp [duration])
  | writeScratchpad highAlarm lowAlarm config =>
    exact State.lineRun_presT (State.matchRom_writeBytes s _ _) (by simp [duration, scratchpadOperands])
  | readScratchpad | readTemperature =>
    exact State.lineRun_stg (State.readScratchpad_eq s) (by simp [duration])

/-- A commit writes only what the command's row of R27 lists, and ends the operation (R49, R112). -/
theorem commitOf_frame (i : Instr) (x : State) :
    (commitOf i x).busy = false ∧ (commitOf i x).seq = .idle ∧ (commitOf i x).owOe = false ∧
    (commitOf i x).hid = Config.freeHidden x.now ∧
    (commitOf i x).cfg = x.cfg ∧ (commitOf i x).cmdr = x.cmdr ∧ (commitOf i x).inputs = x.inputs ∧
    (commitOf i x).lineIn = x.lineIn ∧ (commitOf i x).now = x.now ∧ (commitOf i x).wave = x.wave ∧
    (commitOf i x).sampled = x.sampled := by
  cases i
  case readRom => rw [commitOf, State.commitReadRom]; split <;> exact ⟨rfl, rfl, rfl, rfl, rfl, rfl, rfl, rfl, rfl, rfl, rfl⟩
  case init =>
    rw [commitOf, State.commitInit]
    split
    · split <;> exact ⟨rfl, rfl, rfl, rfl, rfl, rfl, rfl, rfl, rfl, rfl, rfl⟩
    · exact ⟨rfl, rfl, rfl, rfl, rfl, rfl, rfl, rfl, rfl, rfl, rfl⟩
  all_goals exact ⟨rfl, rfl, rfl, rfl, rfl, rfl, rfl, rfl, rfl, rfl, rfl⟩

/-- Which commit writes which status flag, and what (R12, R13, R16). -/
theorem commitOf_status (i : Instr) (x : State) :
    (commitOf i x).present = (if hasResetSlot i then x.hid.presT else x.present) ∧
    (commitOf i x).romValid = (if i = .init then x.hid.presT && (x.hid.stg[0] == x.cfg.familyCode) else x.romValid) ∧
    (commitOf i x).scrValid = (if i = .readScratchpad ∨ i = .readTemperature then true else x.scrValid) ∧
    (commitOf i x).tempValid = (if i = .readTemperature then true else x.tempValid) ∧
    (commitOf i x).err =
      (if !endsWhenAbsent i then .ok
       else if !x.hid.presT then .noDevice
       else if i = .init ∧ x.hid.stg[0] ≠ x.cfg.familyCode then .deviceMismatch else .ok) := by
  cases i
  case readRom => cases h : x.hid.presT <;> simp [commitOf, State.commitReadRom, h, hasResetSlot, endsWhenAbsent,
    State.complete, State.raiseNoDevice, State.raise]
  case init =>
    cases h : x.hid.presT
    · simp [commitOf, State.commitInit, h, hasResetSlot, endsWhenAbsent, State.complete, State.raiseNoDevice, State.raise]
    · by_cases hf : x.hid.stg[0] = x.cfg.familyCode <;>
        simp [commitOf, State.commitInit, h, hf, hasResetSlot, endsWhenAbsent, State.complete, State.commitInitOk,
          State.raiseMismatch, State.raise]
  all_goals simp [commitOf, State.commitNothing, State.commitPresence, State.commitRx, State.commitScratchpad,
    State.commitTemperature, hasResetSlot, endsWhenAbsent, State.complete]

/-- Which commit writes which data register, and what (R17 to R21). -/
theorem commitOf_data (i : Instr) (x : State) :
    (commitOf i x).rxdata = (if i = .readBit ∨ i = .readByte then x.hid.shr else x.rxdata) ∧
    (commitOf i x).rbuf = (if endsWhenAbsent i ∧ x.hid.presT then firstEight x.hid.stg else x.rbuf) ∧
    (commitOf i x).rom =
      (if i = .init ∧ x.hid.presT ∧ x.hid.stg[0] = x.cfg.familyCode then firstEight x.hid.stg else x.rom) ∧
    (commitOf i x).scr = (if i = .readScratchpad ∨ i = .readTemperature then x.hid.stg else x.scr) ∧
    (commitOf i x).temp =
      (if i = .readTemperature then decodeTemp x.cfg.decodeSigned x.hid.stg[0] x.hid.stg[1] else x.temp) := by
  cases i
  case readRom => cases h : x.hid.presT <;> simp [commitOf, State.commitReadRom, h, endsWhenAbsent,
    State.complete, State.raiseNoDevice, State.raise]
  case init =>
    cases h : x.hid.presT
    · simp [commitOf, State.commitInit, h, endsWhenAbsent, State.complete, State.raiseNoDevice, State.raise]
    · by_cases hf : x.hid.stg[0] = x.cfg.familyCode <;>
        simp [commitOf, State.commitInit, h, hf, endsWhenAbsent, State.complete, State.commitInitOk,
          State.raiseMismatch, State.raise]
  all_goals simp [commitOf, State.commitNothing, State.commitPresence, State.commitRx, State.commitScratchpad,
    State.commitTemperature, endsWhenAbsent, State.complete]

/-- The family code a commit leaves in `ROM[0]` (R19). -/
theorem commitOf_familyCode (i : Instr) (x : State) :
    (commitOf i x).rom[0] =
      (if i = .init ∧ x.hid.presT ∧ x.hid.stg[0] = x.cfg.familyCode then x.hid.stg[0] else x.rom[0]) := by
  rw [(commitOf_data i x).2.2.1]
  split
  · simp [firstEight]
  · rfl

end Sys2Proof.Machine
end

