-- ==== Sys2Proof/Laws/Decode.lean ====
section
/-! SUPPORT. What the decoder can answer (30_encoding.md R45 to R48), said once, and the fields of a word put together from
its fields. -/

namespace Sys2Proof

/-- The operands of a command are those its format takes from the word (R47). -/
def operandsFrom (a2 a1 a0 : Byte) : Instr → Prop
  | .writeBit bit => bit = a0.getLsbD 0
  | .writeByte byte => byte = a0
  | .writeScratchpad highAlarm lowAlarm config => highAlarm = a0 ∧ lowAlarm = a1 ∧ config = a2
  | .resetBus | .readBit | .readByte | .readRom | .matchRom | .init | .startConversion
  | .copyScratchpad | .readScratchpad | .readTemperature => True

/-- If an opcode decodes, it is the opcode of the command it decodes to, one of 0x1 to 0xD (R45). -/
theorem decodeOp_ok {op : BitVec 4} {a2 a1 a0 : Byte} {i : Instr} (h : decodeOp op a2 a1 a0 = .ok i) :
    op = opcode i ∧ 1 ≤ op.toNat ∧ op.toNat ≤ 13 ∧ operandsFrom a2 a1 a0 i := by
  obtain ⟨⟨n, hn⟩⟩ := op
  interval_cases n <;> first
    | (cases h; done)
    | (cases h; exact ⟨rfl, Nat.le_of_ble_eq_true rfl, Nat.le_of_ble_eq_true rfl, trivial⟩)
    | (cases h; exact ⟨rfl, Nat.le_of_ble_eq_true rfl, Nat.le_of_ble_eq_true rfl, rfl⟩)
    | (cases h; exact ⟨rfl, Nat.le_of_ble_eq_true rfl, Nat.le_of_ble_eq_true rfl, rfl, rfl, rfl⟩)

/-- An opcode has no command exactly when it is 0x0, 0xE or 0xF (R48). -/
theorem decodeOp_error (op : BitVec 4) (a2 a1 a0 : Byte) :
    (∃ e, decodeOp op a2 a1 a0 = .error e) ↔ op = 0x0#4 ∨ op = 0xE#4 ∨ op = 0xF#4 := by
  obtain ⟨⟨n, hn⟩⟩ := op
  interval_cases n <;> simp [decodeOp]

/-- If a word decodes, its reserved field is 0, its opcode is the command's, and so are its operands (R45 to R48). -/
theorem decode_ok {w : Word} {i : Instr} (h : decode w = .ok i) :
    rsvField w = 0#4 ∧ opField w = opcode i ∧ operandsFrom (a2Field w) (a1Field w) (a0Field w) i := by
  unfold decode at h
  split at h
  next hr =>
    obtain ⟨ho, _, _, ha⟩ := decodeOp_ok h
    exact ⟨hr, ho, ha⟩
  next => cases h

/-! The fields of a word put together from its fields (R46). -/

@[simp] theorem opField_wordOf (op : BitVec 4) (a2 a1 a0 : Byte) : opField (wordOf op a2 a1 a0) = op := by
  ext i hi
  simp only [opField, wordOf, BitVec.getElem_extractLsb', BitVec.getLsbD_append]
  simp (disch := omega) [show ¬ (28 + i < 8) by omega, show ¬ (28 + i - 8 < 8) by omega,
    show ¬ (28 + i - 8 - 8 < 8) by omega, show ¬ (28 + i - 8 - 8 - 8 < 4) by omega,
    show 28 + i - 8 - 8 - 8 - 4 = i by omega]

@[simp] theorem rsvField_wordOf (op : BitVec 4) (a2 a1 a0 : Byte) : rsvField (wordOf op a2 a1 a0) = 0#4 := by
  ext i hi
  simp only [rsvField, wordOf, BitVec.getElem_extractLsb', BitVec.getLsbD_append]
  simp [show ¬ (24 + i < 8) by omega, show ¬ (24 + i - 8 < 8) by omega, show ¬ (24 + i - 8 - 8 < 8) by omega,
    show 24 + i - 8 - 8 - 8 < 4 by omega]

@[simp] theorem a2Field_wordOf (op : BitVec 4) (a2 a1 a0 : Byte) : a2Field (wordOf op a2 a1 a0) = a2 := by
  ext i hi
  simp only [a2Field, wordOf, BitVec.getElem_extractLsb', BitVec.getLsbD_append]
  simp [show ¬ (16 + i < 8) by omega, show ¬ (16 + i - 8 < 8) by omega, show 16 + i - 8 - 8 = i by omega, hi]

@[simp] theorem a1Field_wordOf (op : BitVec 4) (a2 a1 a0 : Byte) : a1Field (wordOf op a2 a1 a0) = a1 := by
  ext i hi
  simp only [a1Field, wordOf, BitVec.getElem_extractLsb', BitVec.getLsbD_append]
  simp [show ¬ (8 + i < 8) by omega, show 8 + i - 8 = i by omega, hi]

@[simp] theorem a0Field_wordOf (op : BitVec 4) (a2 a1 a0 : Byte) : a0Field (wordOf op a2 a1 a0) = a0 := by
  ext i hi
  simp only [a0Field, wordOf, BitVec.getElem_extractLsb', BitVec.getLsbD_append]
  simp [hi]

/-- A word with `RSV` = 0 decodes by its opcode. -/
@[simp] theorem decode_wordOf (op : BitVec 4) (a2 a1 a0 : Byte) :
    decode (wordOf op a2 a1 a0) = decodeOp op a2 a1 a0 := by
  simp [decode]

/-- The decoder looks at the top byte for the command (R46). -/
theorem decode_of_topByte {w : Word} {op : BitVec 4} (h : w &&& 0xFF000000#32 = op.setWidth 32 <<< 28) :
    decode w = decodeOp op (a2Field w) (a1Field w) (a0Field w) := by
  have hbit : ∀ k, 24 ≤ k → k < 32 → (op.setWidth 32 <<< 28).getLsbD k = w.getLsbD k := by
    intro k h1 h2
    rw [← h, BitVec.getLsbD_and]
    interval_cases k <;> simp
  have hr : rsvField w = 0#4 := by
    refine BitVec.eq_of_getLsbD_eq fun k hk => ?_
    rw [rsvField, BitVec.getLsbD_extractLsb', ← hbit (24 + k) (by omega) (by omega)]
    interval_cases k <;> simp
  have ho : opField w = op := by
    refine BitVec.eq_of_getLsbD_eq fun k hk => ?_
    rw [opField, BitVec.getLsbD_extractLsb', ← hbit (28 + k) (by omega) (by omega)]
    interval_cases k <;> simp
  rw [decode, if_pos hr, ho]

end Sys2Proof
end

