-- ==== Sys2Proof/Laws/Sequencer.lean ====
section
/-! SUPPORT. The reference sequencer, run for as many ticks as a phase, a slot, a byte or a step lasts
(70_reset_and_hazards.md R140): each is the waveform of the matching procedure, and then the end of it. -/

namespace Sys2Proof.Machine

/-! No `rst` for a while. -/

theorem noRstWithin_zero (l : List PortIn) : noRstWithin l 0 = true := by cases l <;> rfl

theorem noRstWithin_add (l : List PortIn) (m n : Nat) :
    noRstWithin l (m + n) = (noRstWithin l m && noRstWithin (l.drop m) n) := by
  induction m generalizing l with
  | zero => simp [noRstWithin_zero]
  | succ m ih =>
    cases l with
    | nil => simp [noRstWithin]
    | cons p ps =>
      rw [Nat.succ_add]
      simp only [noRstWithin, List.drop_succ_cons, ih, Bool.and_assoc]

/-- The command `i` is running in `s`, and no `rst` falls in the next `n` ticks. -/
def State.Runs (i : Instr) (n : Nat) (s : State) : Prop :=
  s.busy = true ∧ decode s.cmdr = .ok i ∧ noRstWithin s.inputs n = true

variable {i : Instr} {m n : Nat} {s x : State}

theorem State.Runs.tick_eq (h : s.Runs i (n + 1)) : s.tick = s.busyTick := by
  have hr : s.port.rst = false := by
    have h2 := h.2.2
    unfold State.port
    cases hi : s.inputs with
    | nil => rfl
    | cons p ps =>
      rw [hi] at h2
      simp only [noRstWithin, Bool.and_eq_true, Bool.not_eq_true'] at h2
      exact h2.1
  simp [State.tick, hr, h.1]

theorem State.Runs.left (h : s.Runs i (m + n)) : s.Runs i m := by
  have h2 := h.2.2
  rw [noRstWithin_add, Bool.and_eq_true] at h2
  exact ⟨h.1, h.2.1, h2.1⟩

theorem State.Runs.delay (h : s.Runs i (m + n)) : (s.delay m).Runs i n := by
  have h2 := h.2.2
  rw [noRstWithin_add, Bool.and_eq_true] at h2
  exact ⟨h.1, h.2.1, h2.2⟩

theorem State.Runs.afterLine {gs : List (Bool × Nat)} (offs : List Nat) (hm : segTicks gs = m)
    (h : s.Runs i (m + n)) : (s.afterLine gs offs).Runs i n := by
  subst hm
  have h2 := h.2.2
  rw [noRstWithin_add, Bool.and_eq_true] at h2
  exact ⟨h.1, h.2.1, h2.2⟩

/-! One phase. -/

/-- A new value of `TMR`. -/
def State.setTmr (k : Fin 480) (s : State) : State := { s with hid := { s.hid with tmr := k } }

theorem State.delay_delay (m n : Nat) (s : State) : (s.delay m).delay n = s.delay (m + n) := by
  simp [State.delay, pushRun_pushRun, Nat.add_assoc]

theorem State.delay_setTmr (k : Fin 480) (s : State) : (s.setTmr k).delay n = (s.delay n).setTmr k := rfl

theorem Phase.ticks_pos (ph : Phase) : 1 ≤ ph.ticks := by cases ph <;> decide
theorem Phase.ticks_le (ph : Phase) : ph.ticks ≤ 480 := by cases ph <;> decide

/-- The ticks of a phase after its first one: nothing but time. -/
theorem countdown (h : s.Runs i (n + 1)) (ht : s.hid.tmr.val = n) (hn : n < s.seq.ticks - 1) :
    ticks (n + 1) s = ((s.setTmr 0).delay (n + 1)).phaseEnd i := by
  induction n generalizing s with
  | zero =>
    have hs : s.phaseSample = s := by unfold State.phaseSample; rw [if_neg (by omega)]
    have ht' : s.hid.tmr = 0 := Fin.ext ht
    have h0 : s.setTmr 0 = s := by unfold State.setTmr; rw [← ht']
    rw [ticks_succ, State.Runs.tick_eq h, State.busyTick, hs, h0]
    show ticks 0 (if s.hid.tmr.val = 0 then _ else _) = _
    rw [if_pos ht]
    show ticks 0 (match decode s.cmdr with | .ok i => (s.delay 1).phaseEnd i | .error _ => (s.delay 1).strayEnd) = _
    rw [h.2.1]
    rfl
  | succ n ih =>
    have hs : s.phaseSample = s := by unfold State.phaseSample; rw [if_neg (by omega)]
    have htk : s.tick = (s.delay 1).setTmr (s.hid.tmr - 1) := by
      rw [State.Runs.tick_eq h, State.busyTick, hs]
      show (if s.hid.tmr.val = 0 then _ else _) = _
      rw [if_neg (by omega)]
      rfl
    have h1 : s.Runs i (1 + (n + 1)) := by rwa [Nat.add_comm 1]
    have hv : (s.hid.tmr - 1).val = n := by
      have := s.hid.tmr.isLt
      rw [Fin.sub_def]
      simp only [Fin.val_one]
      omega
    rw [ticks_succ, htk, ih (s := (s.delay 1).setTmr (s.hid.tmr - 1)) (State.Runs.delay h1) hv (by exact Nat.lt_of_succ_lt hn)]
    have hd : (((s.delay 1).setTmr (s.hid.tmr - 1)).setTmr 0).delay (n + 1) = (s.setTmr 0).delay (n + 1 + 1) := by
      show ((s.delay 1).setTmr 0).delay (n + 1) = _
      rw [State.delay_setTmr, State.delay_delay, State.delay_setTmr, Nat.add_comm 1]
    rw [hd]

/-- What a phase does to the line besides lasting: the sample of its first tick (R140). -/
def State.takeSample (s : State) : State :=
  match s.seq with
  | .rstRec => s.sample.2.setPresT (!s.sample.1)
  | .rPad => { s.sample.2 with hid := { s.hid with shr := setBit s.hid.shr s.hid.bitI.val s.sample.1 } }
  | .idle | .rstLow | .rstWait | .wLow | .wHold | .wRec | .rLow | .rWait => s

theorem State.takeSample_keeps (s : State) :
    s.takeSample.busy = s.busy ∧ s.takeSample.cmdr = s.cmdr ∧ s.takeSample.inputs = s.inputs ∧
    s.takeSample.seq = s.seq ∧ s.takeSample.hid.tmr = s.hid.tmr := by
  unfold State.takeSample
  split <;> exact ⟨rfl, rfl, rfl, rfl, rfl⟩

/-- A whole phase (R140): its sample, its ticks, its end. -/
theorem phase_run (ph : Phase) (h : x.Runs i ph.ticks) :
    ticks ph.ticks (x.enterPhase ph) = (((x.enterPhase ph).takeSample.setTmr 0).delay ph.ticks).phaseEnd i := by
  have hp := ph.ticks_pos
  have hl := ph.ticks_le
  have ht : (x.enterPhase ph).hid.tmr.val = ph.ticks - 1 := by
    show (ph.ticks - 1) % 480 = _
    omega
  have hs : (x.enterPhase ph).phaseSample = (x.enterPhase ph).takeSample := by
    unfold State.phaseSample
    rw [if_pos (by exact ht)]
    rfl
  obtain ⟨k1, k2, k3, k4, k5⟩ := (x.enterPhase ph).takeSample_keeps
  generalize hy : (x.enterPhase ph).takeSample = y at *
  have hr : y.Runs i ph.ticks := ⟨k1.trans h.1, by rw [k2]; exact h.2.1, by rw [k3]; exact h.2.2⟩
  obtain ⟨k, hk⟩ : ∃ k, ph.ticks = k + 1 := ⟨ph.ticks - 1, by omega⟩
  have hx : (x.enterPhase ph).Runs i (k + 1) := hk ▸ h
  rw [hk] at hr ht
  rw [hk, ticks_succ, State.Runs.tick_eq hx, State.busyTick, hs]
  have hyt : y.hid.tmr.val = k := by rw [k5, ht]; rfl
  cases k with
  | zero =>
    have hd : (y.delay 1).hid.tmr.val = 0 := hyt
    have h0 : y.setTmr 0 = y := by
      unfold State.setTmr
      rw [show (0 : Fin 480) = y.hid.tmr from (Fin.ext hyt).symm]
    simp only [hd, if_true, show decode (y.delay 1).cmdr = .ok i from hr.2.1, h0, ticks]
  | succ k =>
    have hd : ¬ (y.delay 1).hid.tmr.val = 0 := by
      show ¬ y.hid.tmr.val = 0
      omega
    simp only [hd, if_false]
    have h1 : y.Runs i (1 + (k + 1)) := by rwa [Nat.add_comm 1]
    have hv : (y.hid.tmr - 1).val = k := by
      have := y.hid.tmr.isLt
      rw [Fin.sub_def]
      simp only [Fin.val_one]
      omega
    have hc := countdown (s := (y.delay 1).setTmr (y.hid.tmr - 1)) (n := k) (State.Runs.delay h1) hv
      (by show k < y.seq.ticks - 1; rw [k4]; show k < ph.ticks - 1; omega)
    have hd2 : (((y.delay 1).setTmr (y.hid.tmr - 1)).setTmr 0).delay (k + 1) = (y.setTmr 0).delay (k + 1 + 1) := by
      show ((y.delay 1).setTmr 0).delay (k + 1) = _
      rw [State.delay_setTmr, State.delay_delay, State.delay_setTmr, Nat.add_comm 1]
    rw [hd2] at hc
    exact hc

/-! Inside a phase. -/

/-- Inside a phase, after its first tick: `BUSY`, the pin and the rest of a tick's record stay. -/
theorem countdown_inside (k : Nat) (h : s.Runs i k) (hk : k ≤ s.hid.tmr.val) (hn : s.hid.tmr.val < s.seq.ticks - 1) :
    (ticks k s).busy = true ∧ (ticks k s).owOe = s.owOe ∧ (ticks k s).seq = s.seq := by
  induction k generalizing s with
  | zero => exact ⟨h.1, rfl, rfl⟩
  | succ k ih =>
    have hs : s.phaseSample = s := by unfold State.phaseSample; rw [if_neg (by omega)]
    have htk : s.tick = (s.delay 1).setTmr (s.hid.tmr - 1) := by
      rw [State.Runs.tick_eq h, State.busyTick, hs]
      show (if s.hid.tmr.val = 0 then _ else _) = _
      rw [if_neg (by omega)]
      rfl
    have h1 : s.Runs i (1 + k) := by rwa [Nat.add_comm 1]
    have hv : (s.hid.tmr - 1).val = s.hid.tmr.val - 1 := by
      have := s.hid.tmr.isLt
      rw [Fin.sub_def]
      simp only [Fin.val_one]
      omega
    rw [ticks_succ, htk]
    exact ih (s := (s.delay 1).setTmr (s.hid.tmr - 1)) (State.Runs.delay h1)
      (by show k ≤ (s.hid.tmr - 1).val; omega) (by show (s.hid.tmr - 1).val < s.seq.ticks - 1; omega)

/-- In every tick of a phase `BUSY` is 1, `SEQ` is the phase and the pin is as the phase drives it (R11, R140). -/
theorem phase_inside (ph : Phase) (k : Nat) (hk : k < ph.ticks) (h : x.Runs i k) :
    (ticks k (x.enterPhase ph)).busy = true ∧
    (ticks k (x.enterPhase ph)).owOe = ph.drives (x.hid.shr.getLsbD x.hid.bitI.val) ∧
    (ticks k (x.enterPhase ph)).seq = ph := by
  cases k with
  | zero => exact ⟨h.1, rfl, rfl⟩
  | succ k =>
    have hl := ph.ticks_le
    have ht : (x.enterPhase ph).hid.tmr.val = ph.ticks - 1 := by
      show (ph.ticks - 1) % 480 = _
      omega
    have hs : (x.enterPhase ph).phaseSample = (x.enterPhase ph).takeSample := by
      unfold State.phaseSample
      rw [if_pos (by exact ht)]
      rfl
    have ho : (x.enterPhase ph).takeSample.owOe = (x.enterPhase ph).owOe := by
      unfold State.takeSample
      split <;> rfl
    obtain ⟨k1, k2, k3, k4, k5⟩ := (x.enterPhase ph).takeSample_keeps
    generalize hy : (x.enterPhase ph).takeSample = y at *
    have hr : y.Runs i (1 + k) := ⟨k1.trans h.1, by rw [k2]; exact h.2.1, by rw [k3, Nat.add_comm]; exact h.2.2⟩
    have hx : (x.enterPhase ph).Runs i (k + 1) := h
    have hyt : y.hid.tmr.val = ph.ticks - 1 := by rw [k5, ht]
    have hd : ¬ (y.delay 1).hid.tmr.val = 0 := by show ¬ y.hid.tmr.val = 0; omega
    have hv : (y.hid.tmr - 1).val = ph.ticks - 2 := by
      have := y.hid.tmr.isLt
      rw [Fin.sub_def]
      simp only [Fin.val_one]
      omega
    rw [ticks_succ, State.Runs.tick_eq hx, State.busyTick, hs]
    simp only [hd, if_false]
    have hc := countdown_inside (s := (y.delay 1).setTmr (y.hid.tmr - 1)) k (State.Runs.delay hr)
      (by show k ≤ (y.hid.tmr - 1).val; omega)
      (by show (y.hid.tmr - 1).val < y.seq.ticks - 1; rw [k4]; show _ < ph.ticks - 1; omega)
    exact ⟨hc.1, hc.2.1.trans ho, hc.2.2.trans k4⟩

/-! One slot. -/

/-- The sequencer at the end of a phase, the line done. -/
def State.park (q : Phase) (h : Hidden) (s : State) : State := { s with seq := q, hid := h }

/-- The reset slot (R64, R140). -/
theorem resetSlot_run (h : x.Runs i 960) :
    ticks 960 (x.enterPhase .rstLow) =
      ((x.afterLine resetSlotSegs [540]).park .rstRec
        { x.hid with tmr := 0, presT := !x.levelAt 0 540 }).stepEnd i := by
  have h1 : x.Runs i (480 + (60 + 420)) := h
  rw [show 960 = 480 + (60 + 420) from rfl, ticks_add, ticks_add]
  rw [show ticks 480 (x.enterPhase .rstLow) = _ from phase_run .rstLow (State.Runs.left h1)]
  generalize hx1 : (((x.enterPhase .rstLow).takeSample.setTmr 0).delay (Phase.rstLow).ticks) = x1
  have r1 : x1.Runs i (60 + 420) := hx1 ▸ State.Runs.delay (s := ((x.enterPhase .rstLow).setTmr 0)) h1
  have e1 : x1.phaseEnd i = x1.enterPhase .rstWait := by rw [← hx1]; rfl
  rw [e1, show ticks 60 (x1.enterPhase .rstWait) = _ from phase_run .rstWait (State.Runs.left r1)]
  generalize hx2 : (((x1.enterPhase .rstWait).takeSample.setTmr 0).delay (Phase.rstWait).ticks) = x2
  have r2 : x2.Runs i 420 := hx2 ▸ State.Runs.delay (s := ((x1.enterPhase .rstWait).setTmr 0)) r1
  have e2 : x2.phaseEnd i = x2.enterPhase .rstRec := by rw [← hx2]; rfl
  rw [e2, show ticks 420 (x2.enterPhase .rstRec) = _ from phase_run .rstRec r2]
  generalize hx3 : (((x2.enterPhase .rstRec).takeSample.setTmr 0).delay (Phase.rstRec).ticks) = x3
  have e3 : x3.phaseEnd i = x3.stepEnd i := by rw [← hx3]; rfl
  rw [e3]
  congr 1
  subst hx3 hx2 hx1
  have h60 : ∀ w, pushRun false 420 (pushRun false 60 w) = pushRun false 480 w := fun w => pushRun_pushRun _ _ _ w
  simp [State.takeSample, State.setTmr, State.enterPhase, State.delay, State.sample, State.afterSample,
    State.lineLevel, State.setPresT, Phase.drives, Phase.ticks, State.park, State.afterLine, resetSlotSegs, segTicks,
    State.samplesFrom, State.levelAt, Config.tRSTL, Config.tPDS, Config.tRSTR, h60, List.getD_eq_getElem?_getD,
    List.head?_eq_getElem?]

/-- A write slot (R60, R140). -/
theorem writeSlot_run (h : x.Runs i 61) :
    ticks 61 (x.enterPhase .wLow) =
      ((x.afterLine (writeSlotSegs (x.hid.shr.getLsbD x.hid.bitI.val)) []).park .wRec { x.hid with tmr := 0 }).slotEnd i := by
  have h1 : x.Runs i (1 + (59 + 1)) := h
  rw [show 61 = 1 + (59 + 1) from rfl, ticks_add, ticks_add]
  rw [show ticks 1 (x.enterPhase .wLow) = _ from phase_run .wLow (State.Runs.left h1)]
  generalize hx1 : (((x.enterPhase .wLow).takeSample.setTmr 0).delay (Phase.wLow).ticks) = x1
  have r1 : x1.Runs i (59 + 1) := hx1 ▸ State.Runs.delay (s := ((x.enterPhase .wLow).setTmr 0)) h1
  have e1 : x1.phaseEnd i = x1.enterPhase .wHold := by rw [← hx1]; rfl
  rw [e1, show ticks 59 (x1.enterPhase .wHold) = _ from phase_run .wHold (State.Runs.left r1)]
  generalize hx2 : (((x1.enterPhase .wHold).takeSample.setTmr 0).delay (Phase.wHold).ticks) = x2
  have r2 : x2.Runs i 1 := hx2 ▸ State.Runs.delay (s := ((x1.enterPhase .wHold).setTmr 0)) r1
  have e2 : x2.phaseEnd i = x2.enterPhase .wRec := by rw [← hx2]; rfl
  rw [e2, show ticks 1 (x2.enterPhase .wRec) = _ from phase_run .wRec r2]
  generalize hx3 : (((x2.enterPhase .wRec).takeSample.setTmr 0).delay (Phase.wRec).ticks) = x3
  have e3 : x3.phaseEnd i = x3.slotEnd i := by rw [← hx3]; rfl
  rw [e3]
  congr 1
  subst hx3 hx2 hx1
  simp [State.takeSample, State.setTmr, State.enterPhase, State.delay, Phase.drives, Phase.ticks, State.park,
    State.afterLine, writeSlotSegs, segTicks, State.samplesFrom, Config.tWL, Config.tWH, Config.tWREC]

/-- A read slot (R61, R140). -/
theorem readSlot_run (h : x.Runs i 61) :
    ticks 61 (x.enterPhase .rLow) =
      ((x.afterLine readSlotSegs [16]).park .rPad
        { x.hid with tmr := 0, shr := setBit x.hid.shr x.hid.bitI.val (x.levelAt 0 16) }).slotEnd i := by
  have h1 : x.Runs i (1 + (15 + 45)) := h
  rw [show 61 = 1 + (15 + 45) from rfl, ticks_add, ticks_add]
  rw [show ticks 1 (x.enterPhase .rLow) = _ from phase_run .rLow (State.Runs.left h1)]
  generalize hx1 : (((x.enterPhase .rLow).takeSample.setTmr 0).delay (Phase.rLow).ticks) = x1
  have r1 : x1.Runs i (15 + 45) := hx1 ▸ State.Runs.delay (s := ((x.enterPhase .rLow).setTmr 0)) h1
  have e1 : x1.phaseEnd i = x1.enterPhase .rWait := by rw [← hx1]; rfl
  rw [e1, show ticks 15 (x1.enterPhase .rWait) = _ from phase_run .rWait (State.Runs.left r1)]
  generalize hx2 : (((x1.enterPhase .rWait).takeSample.setTmr 0).delay (Phase.rWait).ticks) = x2
  have r2 : x2.Runs i 45 := hx2 ▸ State.Runs.delay (s := ((x1.enterPhase .rWait).setTmr 0)) r1
  have e2 : x2.phaseEnd i = x2.enterPhase .rPad := by rw [← hx2]; rfl
  rw [e2, show ticks 45 (x2.enterPhase .rPad) = _ from phase_run .rPad r2]
  generalize hx3 : (((x2.enterPhase .rPad).takeSample.setTmr 0).delay (Phase.rPad).ticks) = x3
  have e3 : x3.phaseEnd i = x3.slotEnd i := by rw [← hx3]; rfl
  rw [e3]
  congr 1
  subst hx3 hx2 hx1
  have h15 : ∀ w, pushRun false 45 (pushRun false 15 w) = pushRun false 60 w := fun w => pushRun_pushRun _ _ _ w
  simp [State.takeSample, State.setTmr, State.enterPhase, State.delay, State.sample, State.afterSample,
    State.lineLevel, Phase.drives, Phase.ticks, State.park, State.afterLine, readSlotSegs, segTicks,
    State.samplesFrom, State.levelAt, Config.tRL, Config.tRS, Config.tRP, h15, List.getD_eq_getElem?_getD,
    List.head?_eq_getElem?]

/-! One byte. -/

/-- The steps of a command depend on the parameters and the cached ROM code alone (R23, R140). -/
theorem stepsOf_congr (i : Instr) {a b : State} (hc : a.cfg = b.cfg) (hr : a.rom = b.rom) : stepsOf i a = stepsOf i b := by
  cases i <;> simp only [stepsOf, matchSteps, readRomSteps, hc, hr]

/-- The step that is running makes the transfer `tr` (R140). -/
def State.Transfers (i : Instr) (tr : Transfer) (s : State) : Prop := transferOf s.hid.step (stepsOf i s) = some tr

theorem State.Transfers.of_eq {tr : Transfer} {a b : State} (h : b.Transfers i tr) (hs : a.hid.step = b.hid.step)
    (hc : a.cfg = b.cfg) (hr : a.rom = b.rom) : a.Transfers i tr := by
  unfold State.Transfers
  rw [hs, stepsOf_congr i hc hr]
  exact h

/-! The end of a slot, case by case (R140, "Next bit"). -/

theorem slotEnd_bit {b : Bool} (h : s.Transfers i (.bitOut b)) : s.slotEnd i = s.stepEnd i := by
  unfold State.Transfers at h
  simp only [State.slotEnd, h]

theorem slotEnd_bitIn (h : s.Transfers i .bitIn) : s.slotEnd i = s.stepEnd i := by
  unfold State.Transfers at h
  simp only [State.slotEnd, h]

theorem slotEnd_out_next {bytes : List Byte} (h : s.Transfers i (.bytesOut bytes)) (hj : s.hid.bitI.val < 7) :
    s.slotEnd i = s.nextBit .wLow := by
  unfold State.Transfers at h
  simp only [State.slotEnd, h, hj, if_true]

theorem slotEnd_out_byte {bytes : List Byte} {v : Byte} (h : s.Transfers i (.bytesOut bytes))
    (hj : ¬ s.hid.bitI.val < 7) (hv : bytes[s.hid.byteI.val + 1]? = some v) :
    s.slotEnd i = s.enterByte (s.hid.byteI.val + 1) v .wLow := by
  unfold State.Transfers at h
  simp only [State.slotEnd, h, hj, if_false, hv]

theorem slotEnd_out_last {bytes : List Byte} (h : s.Transfers i (.bytesOut bytes)) (hj : ¬ s.hid.bitI.val < 7)
    (hv : bytes[s.hid.byteI.val + 1]? = none) : s.slotEnd i = s.stepEnd i := by
  unfold State.Transfers at h
  simp only [State.slotEnd, h, hj, if_false, hv]

theorem slotEnd_in_next {k : Nat} (h : s.Transfers i (.bytesIn k)) (hj : s.hid.bitI.val < 7) :
    s.slotEnd i = s.nextBit .rLow := by
  unfold State.Transfers at h
  simp only [State.slotEnd, h, hj, if_true]

theorem slotEnd_in_byte {k : Nat} (h : s.Transfers i (.bytesIn k)) (hj : ¬ s.hid.bitI.val < 7)
    (hk : s.hid.byteI.val + 1 < k) :
    s.slotEnd i = (s.stage s.hid.byteI s.hid.shr).enterByte (s.hid.byteI.val + 1) 0#8 .rLow := by
  unfold State.Transfers at h
  simp only [State.slotEnd, h, hj, if_false, State.stage, hk, if_true]

theorem slotEnd_in_last {k : Nat} (h : s.Transfers i (.bytesIn k)) (hj : ¬ s.hid.bitI.val < 7)
    (hk : ¬ s.hid.byteI.val + 1 < k) : s.slotEnd i = (s.stage s.hid.byteI s.hid.shr).stepEnd i := by
  unfold State.Transfers at h
  simp only [State.slotEnd, h, hj, if_false, State.stage, hk]

theorem State.afterLine_setHid (h : Hidden) (s : State) (gs : List (Bool × Nat)) (offs : List Nat) :
    (s.setHid h).afterLine gs offs = (s.afterLine gs offs).setHid h := by
  have hs : ∀ j l log, (s.setHid h).samplesFrom j l log = s.samplesFrom j l log := by
    intro j l
    induction l generalizing j with
    | nil => intros; rfl
    | cons o l ih => intro log; exact ih (j + 1) _
  simp only [State.afterLine, hs]
  rfl

theorem State.writeBit_setHid (h : Hidden) (b : Bool) (s : State) : (s.setHid h).writeBit b = (s.writeBit b).setHid h := by
  rw [State.writeBit_eq, State.writeBit_eq, State.afterLine_setHid]

theorem State.readBitAt_setHid (h : Hidden) (v : Byte) (s : State) (j : Nat) :
    State.readBitAt (v, s.setHid h) j = ((State.readBitAt (v, s) j).1, (State.readBitAt (v, s) j).2.setHid h) := by
  simp only [State.readBitAt, State.readBit_eq, State.afterLine_setHid]
  rfl

theorem State.foldl_readBitAt_setHid (h : Hidden) (l : List Nat) (v : Byte) (s : State) :
    l.foldl State.readBitAt (v, s.setHid h) =
      ((l.foldl State.readBitAt (v, s)).1, (l.foldl State.readBitAt (v, s)).2.setHid h) := by
  induction l generalizing v s with
  | nil => rfl
  | cons j l ih => rw [List.foldl_cons, State.readBitAt_setHid, ih, List.foldl_cons]

theorem bitI_succ {k : Fin 8} (h : k.val < 7) : (k + 1).val = k.val + 1 := by
  rw [Fin.add_def]
  simp only [Fin.val_one]
  omega

/-- A write slot that is not the last of its byte (R140, "Next bit"). -/
theorem writeSlot_next {bytes : List Byte} (hr : x.Runs i 61) (ht : x.Transfers i (.bytesOut bytes))
    (hj : x.hid.bitI.val < 7) :
    ticks 61 (x.enterPhase .wLow) =
      ((x.writeBit (x.hid.shr.getLsbD x.hid.bitI.val)).setHid { x.hid with bitI := x.hid.bitI + 1 }).enterPhase .wLow := by
  rw [writeSlot_run hr, State.writeBit_eq]
  generalize writeSlotSegs _ = gs
  exact slotEnd_out_next (State.Transfers.of_eq ht rfl rfl rfl) hj

/-- A read slot that is not the last of its byte (R140, "Next bit"). -/
theorem readSlot_next {k : Nat} (hr : x.Runs i 61) (ht : x.Transfers i (.bytesIn k)) (hj : x.hid.bitI.val < 7) :
    ticks 61 (x.enterPhase .rLow) =
      ((State.readBitAt (x.hid.shr, x) x.hid.bitI.val).2.setHid
        { x.hid with
          bitI := x.hid.bitI + 1
          shr := (State.readBitAt (x.hid.shr, x) x.hid.bitI.val).1 }).enterPhase .rLow := by
  rw [readSlot_run hr]
  simp only [State.readBitAt, State.readBit_eq]
  generalize x.levelAt 0 16 = b
  exact slotEnd_in_next (State.Transfers.of_eq ht rfl rfl rfl) hj

/-- The write slots of a byte but the last. -/
theorem writeSlots_run {bytes : List Byte} (d : Nat) (x : State) (hr : x.Runs i (61 * d))
    (ht : x.Transfers i (.bytesOut bytes)) (hj : x.hid.bitI.val + d ≤ 7) :
    ticks (61 * d) (x.enterPhase .wLow) =
      (((List.range' x.hid.bitI.val d).foldl (fun s j => s.writeBit (x.hid.shr.getLsbD j)) x).setHid
        { x.hid with bitI := Fin.ofNat 8 (x.hid.bitI.val + d) }).enterPhase .wLow := by
  induction d generalizing x with
  | zero =>
    have h0 : Fin.ofNat 8 (x.hid.bitI.val + 0) = x.hid.bitI := Fin.ext (Nat.mod_eq_of_lt x.hid.bitI.isLt)
    rw [h0]
    rfl
  | succ d ih =>
    have hr' : x.Runs i (61 + 61 * d) := by rwa [Nat.mul_succ, Nat.add_comm] at hr
    have hj' : x.hid.bitI.val < 7 := by omega
    have hb := bitI_succ hj'
    rw [Nat.mul_succ, Nat.add_comm (61 * d), ticks_add, writeSlot_next (State.Runs.left hr') ht hj']
    have hy := ih ((x.writeBit (x.hid.shr.getLsbD x.hid.bitI.val)).setHid { x.hid with bitI := x.hid.bitI + 1 })
      (by rw [State.writeBit_eq]; exact State.Runs.afterLine [] (segTicks_writeSlotSegs _) hr')
      (by rw [State.writeBit_eq]; exact State.Transfers.of_eq ht rfl rfl rfl)
      (by show (x.hid.bitI + 1).val + d ≤ 7; omega)
    rw [hy]
    have hf : ∀ (l : List Nat) (v : Byte) (s : State) (h : Hidden),
        l.foldl (fun s j => s.writeBit (v.getLsbD j)) (s.setHid h) =
          (l.foldl (fun s j => s.writeBit (v.getLsbD j)) s).setHid h := by
      intro l v
      induction l with
      | nil => intros; rfl
      | cons j l ih2 => intro s h; rw [List.foldl_cons, State.writeBit_setHid, ih2]; rfl
    rw [hf]
    have hl : List.range' x.hid.bitI.val (d + 1) = x.hid.bitI.val :: List.range' (x.hid.bitI.val + 1) d := rfl
    rw [hl, List.foldl_cons]
    have e1 : ∀ (y : State), ((y.setHid { x.hid with bitI := x.hid.bitI + 1 }).hid.bitI.val) = x.hid.bitI.val + 1 :=
      fun _ => hb
    have e2 : ∀ (y : State), (y.setHid { x.hid with bitI := x.hid.bitI + 1 }).hid.shr = x.hid.shr := fun _ => rfl
    rw [e1, e2, Nat.add_right_comm x.hid.bitI.val 1 d]
    rfl

/-- The read slots of a byte but the last. -/
theorem readSlots_run {k : Nat} (d : Nat) (x : State) (hr : x.Runs i (61 * d))
    (ht : x.Transfers i (.bytesIn k)) (hj : x.hid.bitI.val + d ≤ 7) :
    ticks (61 * d) (x.enterPhase .rLow) =
      (((List.range' x.hid.bitI.val d).foldl State.readBitAt (x.hid.shr, x)).2.setHid
        { x.hid with
          bitI := Fin.ofNat 8 (x.hid.bitI.val + d)
          shr := ((List.range' x.hid.bitI.val d).foldl State.readBitAt (x.hid.shr, x)).1 }).enterPhase .rLow := by
  induction d generalizing x with
  | zero =>
    have h0 : Fin.ofNat 8 (x.hid.bitI.val + 0) = x.hid.bitI := Fin.ext (Nat.mod_eq_of_lt x.hid.bitI.isLt)
    rw [h0]
    rfl
  | succ d ih =>
    have hr' : x.Runs i (61 + 61 * d) := by rwa [Nat.mul_succ, Nat.add_comm] at hr
    have hj' : x.hid.bitI.val < 7 := by omega
    have hb := bitI_succ hj'
    have hl : List.range' x.hid.bitI.val (d + 1) = x.hid.bitI.val :: List.range' (x.hid.bitI.val + 1) d := rfl
    rw [Nat.mul_succ, Nat.add_comm (61 * d), ticks_add, readSlot_next (State.Runs.left hr') ht hj', hl, List.foldl_cons]
    have hk : ∀ y : Byte × State, State.readBitAt (x.hid.shr, x) x.hid.bitI.val = y →
        y.2.Runs i (61 * d) ∧ y.2.cfg = x.cfg ∧ y.2.rom = x.rom ∧ y.2.hid = x.hid := by
      rintro y rfl
      simp only [State.readBitAt, State.readBit_eq]
      exact ⟨State.Runs.afterLine [16] segTicks_readSlotSegs hr', rfl, rfl, rfl⟩
    generalize hq : State.readBitAt (x.hid.shr, x) x.hid.bitI.val = y
    obtain ⟨k1, k2, k3, k4⟩ := hk y hq
    obtain ⟨v, y⟩ := y
    have hy := ih (y.setHid { x.hid with bitI := x.hid.bitI + 1, shr := v }) k1
      (State.Transfers.of_eq ht rfl k2 k3) (by show (x.hid.bitI + 1).val + d ≤ 7; omega)
    rw [hy, show (y.setHid { x.hid with bitI := x.hid.bitI + 1, shr := v }).hid.shr = v from rfl,
      State.foldl_readBitAt_setHid]
    have e1 : ((y.setHid { x.hid with bitI := x.hid.bitI + 1, shr := v }).hid.bitI.val) = x.hid.bitI.val + 1 := hb
    rw [e1, Nat.add_right_comm x.hid.bitI.val 1 d]
    rfl

/-- The first seven slots of a byte out. -/
def sevenOutSegs (v : Byte) : List (Bool × Nat) :=
  ([0, 1, 2, 3, 4, 5, 6] : List Nat).flatMap fun j => writeSlotSegs (v.getLsbD j)

theorem byteOutSegs_eq (v : Byte) : byteOutSegs v = sevenOutSegs v ++ writeSlotSegs (v.getLsbD 7) := by
  simp [byteOutSegs, sevenOutSegs, lsbFirst]

theorem foldl_writeBit_seven (v : Byte) (s : State) :
    (List.range' 0 7).foldl (fun s j => s.writeBit (v.getLsbD j)) s = s.afterLine (sevenOutSegs v) [] := by
  simp [List.range', sevenOutSegs, State.writeBit_eq, State.afterLine_afterLine]

theorem segTicks_sevenOutSegs (v : Byte) : segTicks (sevenOutSegs v) = 61 * 7 := by
  have h := segTicks_byteOutSegs v
  rw [byteOutSegs_eq, segTicks_append, segTicks_writeSlotSegs] at h
  omega

theorem State.park_setHid (q : Phase) (h g : Hidden) (s : State) : (s.setHid g).park q h = s.park q h := rfl
theorem State.hid_setHid (h : Hidden) (s : State) : (s.setHid h).hid = h := rfl

/-- The first seven slots of a byte out (R62, R140). -/
theorem sevenOut_run {bytes : List Byte} (hr : x.Runs i (61 * 7)) (ht : x.Transfers i (.bytesOut bytes))
    (h0 : x.hid.bitI = 0) :
    ticks (61 * 7) (x.enterPhase .wLow) =
      ((x.afterLine (sevenOutSegs x.hid.shr) []).setHid { x.hid with bitI := 7 }).enterPhase .wLow := by
  have h7 := writeSlots_run 7 x hr ht (by rw [h0]; exact Nat.le_refl 7)
  rw [h7, h0, show (0 : Fin 8).val = 0 from rfl, foldl_writeBit_seven]
  rfl

/-- The eight slots of a byte out (R62, R140). -/
theorem eightOut_run {bytes : List Byte} (hr : x.Runs i 488) (ht : x.Transfers i (.bytesOut bytes))
    (h0 : x.hid.bitI = 0) :
    ticks 488 (x.enterPhase .wLow) =
      ((x.afterLine (byteOutSegs x.hid.shr) []).park .wRec { x.hid with tmr := 0, bitI := 7 }).slotEnd i := by
  have hr' : x.Runs i (61 * 7 + 61) := hr
  rw [show 488 = 61 * 7 + 61 from rfl, ticks_add, sevenOut_run (State.Runs.left hr') ht h0, byteOutSegs_eq]
  have hr2 := State.Runs.afterLine [] (segTicks_sevenOutSegs x.hid.shr) hr'
  have ha := fun g => State.afterLine_afterLine x (sevenOutSegs x.hid.shr) g [] []
  generalize sevenOutSegs x.hid.shr = g at *
  rw [writeSlot_run (x := (x.afterLine g []).setHid { x.hid with bitI := 7 }) hr2, State.afterLine_setHid, ha,
    State.park_setHid]
  rfl

/-- A byte out (R62, R140). -/
theorem byteOut_run {bytes : List Byte} (k : Nat) (v : Byte) (hr : x.Runs i 488)
    (ht : x.Transfers i (.bytesOut bytes)) :
    ticks 488 (x.enterByte k v .wLow) =
      ((x.afterLine (byteOutSegs v) []).park .wRec
        { x.hid with tmr := 0, byteI := Fin.ofNat 9 k, bitI := 7, shr := v }).slotEnd i := by
  have h := eightOut_run (x := x.setHid { x.hid with byteI := Fin.ofNat 9 k, bitI := 0, shr := v }) hr
    (State.Transfers.of_eq ht rfl rfl rfl) rfl
  rw [State.afterLine_setHid, State.park_setHid] at h
  exact h

/-- The first seven samples of a byte. -/
def sevenInOffsets : List Nat := [16, 77, 138, 199, 260, 321, 382]
def sevenInSegs : List (Bool × Nat) := (List.replicate 7 readSlotSegs).flatten

theorem foldl_readBitAt_seven (v : Byte) (s : State) :
    (List.range' 0 7).foldl State.readBitAt (v, s) =
      (((List.range' 0 7).foldl State.readBitAt (v, s)).1, s.afterLine sevenInSegs sevenInOffsets) := by
  simp only [List.range', List.foldl_cons, List.foldl_nil, State.readBitAt, State.readBit_eq, State.afterLine_afterLine]
  simp [readSlotSegs, segTicks, sevenInSegs, sevenInOffsets]

/-- The eight slots of a byte in (R63, R140). -/
theorem eightIn_run {n : Nat} (hr : x.Runs i 488) (ht : x.Transfers i (.bytesIn n)) (h0 : x.hid.bitI = 0)
    (hv : x.hid.shr = 0#8) :
    ticks 488 (x.enterPhase .rLow) =
      ((x.afterLine byteInSegs (byteInOffsets 0)).park .rPad
        { x.hid with tmr := 0, bitI := 7, shr := x.byteIn 0 0 }).slotEnd i := by
  have hr' : x.Runs i (61 * 7 + 61) := hr
  have h7 := readSlots_run 7 x (State.Runs.left hr') ht (by rw [h0]; exact Nat.le_refl 7)
  rw [show 488 = 61 * 7 + 61 from rfl, ticks_add, h7, h0, hv, show (0 : Fin 8).val = 0 from rfl]
  have hb : State.readBitAt ((List.range' 0 7).foldl State.readBitAt (0#8, x)) 7 = x.readByte := rfl
  rw [State.readByte_eq] at hb
  rw [foldl_readBitAt_seven] at hb ⊢
  generalize ((List.range' 0 7).foldl State.readBitAt (0#8, x)).1 = v at *
  have hr2 : (x.afterLine sevenInSegs sevenInOffsets).Runs i 61 := State.Runs.afterLine sevenInOffsets rfl hr'
  have hh : (x.afterLine sevenInSegs sevenInOffsets).hid = x.hid := rfl
  simp only [State.readBitAt, State.readBit_eq, Prod.mk.injEq] at hb
  obtain ⟨hb1, hb2⟩ := hb
  rw [← hb1, ← hb2]
  generalize x.afterLine sevenInSegs sevenInOffsets = y at *
  rw [readSlot_run (x := y.setHid { x.hid with bitI := Fin.ofNat 8 (0 + 7), shr := v }) hr2, State.afterLine_setHid,
    State.park_setHid]
  rfl

/-- A byte in (R63, R140). -/
theorem byteIn_run {n : Nat} (k : Nat) (hr : x.Runs i 488) (ht : x.Transfers i (.bytesIn n)) :
    ticks 488 (x.enterByte k 0#8 .rLow) =
      ((x.afterLine byteInSegs (byteInOffsets 0)).park .rPad
        { x.hid with tmr := 0, byteI := Fin.ofNat 9 k, bitI := 7, shr := x.byteIn 0 0 }).slotEnd i := by
  have h := eightIn_run (x := x.setHid { x.hid with byteI := Fin.ofNat 9 k, bitI := 0, shr := 0#8 }) hr
    (State.Transfers.of_eq ht rfl rfl rfl) rfl rfl
  rw [State.afterLine_setHid, State.park_setHid] at h
  exact h

end Sys2Proof.Machine
end

