-- ==== Sys2Proof/Laws/Walk.lean ====
section
/-! SUPPORT. The reference sequencer's walk through the steps of a command (70_reset_and_hazards.md R140): each step is the waveform
of its transfer, and a walk that ends commits what the pseudocode commits. -/

namespace Sys2Proof.Machine

variable {i : Instr} {m n : Nat} {s x : State}

/-- `t` is the end of a step that started at `x` with the step `st`: the waveform and the samples are given, and so is what
the hidden buffers hold (R140). -/
def State.StepEnds (i : Instr) (st : SeqStep) (gs : List (Bool × Nat)) (offs : List Nat) (p : Bool) (stg : Vector Byte 9)
    (x t : State) : Prop :=
  ∃ q h, t = ((x.afterLine gs offs).park q h).stepEnd i ∧ h.step = st ∧ h.presT = p ∧ h.stg = stg

/-! Bytes in a row. -/

theorem not_seven : ¬ (7 : Fin 8).val < 7 := by decide

theorem stagedBytes_setHid (h : Hidden) (ks : List (Fin 9)) (j off : Nat) (s : State) :
    stagedBytes (s.setHid h) ks j off = stagedBytes s ks j off := by
  induction ks generalizing j off with
  | nil => rfl
  | cons k ks ih => rw [stagedBytes, ih, stagedBytes]; rfl

/-- A byte out that is not the last of its step (R140, "Next bit"). -/
theorem byteOut_next {bytes : List Byte} (k : Nat) (v w : Byte) (hr : x.Runs i 488) (ht : x.Transfers i (.bytesOut bytes))
    (hk : k < 9) (hn : bytes[k + 1]? = some w) :
    ticks 488 (x.enterByte k v .wLow) =
      ((x.afterLine (byteOutSegs v) []).setHid
        { x.hid with tmr := 0, byteI := Fin.ofNat 9 k, bitI := 7, shr := v }).enterByte (k + 1) w .wLow := by
  have hk9 : (Fin.ofNat 9 k).val = k := Nat.mod_eq_of_lt hk
  rw [byteOut_run k v hr ht]
  generalize byteOutSegs v = g
  have ht' : ((x.afterLine g []).park .wRec
      { x.hid with tmr := 0, byteI := Fin.ofNat 9 k, bitI := 7, shr := v }).Transfers i (.bytesOut bytes) :=
    State.Transfers.of_eq ht rfl rfl rfl
  rw [slotEnd_out_byte (v := w) ht' not_seven
    (by show bytes[(Fin.ofNat 9 k).val + 1]? = some w; rw [hk9, hn])]
  show State.enterByte ((Fin.ofNat 9 k).val + 1) w .wLow _ = _
  rw [hk9]
  rfl

/-- A byte in that is not the last of its step (R140, "Next bit"). -/
theorem byteIn_next {n : Nat} (k : Nat) (hr : x.Runs i 488) (ht : x.Transfers i (.bytesIn n)) (hk : k < 9)
    (hn : k + 1 < n) :
    ticks 488 (x.enterByte k 0#8 .rLow) =
      ((x.afterLine byteInSegs (byteInOffsets 0)).setHid
        { x.hid with
          tmr := 0, byteI := Fin.ofNat 9 k, bitI := 7, shr := x.byteIn 0 0
          stg := x.hid.stg.set (Fin.ofNat 9 k).val (x.byteIn 0 0) (Fin.ofNat 9 k).isLt }).enterByte (k + 1) 0#8 .rLow := by
  have hk9 : (Fin.ofNat 9 k).val = k := Nat.mod_eq_of_lt hk
  rw [byteIn_run k hr ht]
  generalize byteInSegs = g
  generalize byteInOffsets 0 = o
  generalize x.byteIn 0 0 = v
  have ht' : ((x.afterLine g o).park .rPad
      { x.hid with tmr := 0, byteI := Fin.ofNat 9 k, bitI := 7, shr := v }).Transfers i (.bytesIn n) :=
    State.Transfers.of_eq ht rfl rfl rfl
  rw [slotEnd_in_byte ht' not_seven (by show (Fin.ofNat 9 k).val + 1 < n; omega)]
  exact congrArg (fun j => State.enterByte (j + 1) 0#8 .rLow ((x.afterLine g o).setHid { x.hid with
    tmr := 0, byteI := Fin.ofNat 9 k, bitI := 7, shr := v
    stg := x.hid.stg.set (Fin.ofNat 9 k).val v (Fin.ofNat 9 k).isLt })) hk9

/-- The bytes of a step going out, from the `k`-th on (R140). -/
theorem bytesOut_run {bytes : List Byte} (rest : List Byte) (k : Nat) (v : Byte) (x : State)
    (hr : x.Runs i (488 * (v :: rest).length)) (ht : x.Transfers i (.bytesOut bytes))
    (hb : bytes.drop k = v :: rest) (hk : k + rest.length < 9) :
    x.StepEnds i x.hid.step (bytesOutSegs (v :: rest)) [] x.hid.presT x.hid.stg
      (ticks (488 * (v :: rest).length) (x.enterByte k v .wLow)) := by
  have hk9 : (Fin.ofNat 9 k).val = k := Nat.mod_eq_of_lt (by omega)
  have hnext : bytes[k + 1]? = rest.head? := by
    have h := congrArg (fun l => l[1]?) hb
    simp only [List.getElem?_drop] at h
    rw [h, List.head?_eq_getElem?]
    rfl
  induction rest generalizing k v x with
  | nil =>
    have hr' : x.Runs i 488 := by simpa using hr
    have hrun := byteOut_run k v hr' ht
    refine ⟨.wRec, { x.hid with tmr := 0, byteI := Fin.ofNat 9 k, bitI := 7, shr := v }, ?_, rfl, rfl, rfl⟩
    rw [show 488 * [v].length = 488 from rfl, hrun, show bytesOutSegs [v] = byteOutSegs v from List.append_nil _]
    generalize byteOutSegs v = g
    refine slotEnd_out_last (State.Transfers.of_eq ht rfl rfl rfl) not_seven ?_
    show bytes[(Fin.ofNat 9 k).val + 1]? = none
    rw [hk9, hnext]
    rfl
  | cons w rest ih =>
    have hr' : x.Runs i (488 + 488 * (w :: rest).length) := by
      rw [List.length_cons, Nat.mul_succ, Nat.add_comm] at hr
      exact hr
    have hrun := byteOut_next k v w (State.Runs.left hr') ht (by omega) (by rw [hnext]; rfl)
    have hr2 := State.Runs.afterLine [] (segTicks_byteOutSegs v) hr'
    have hcat := fun g => State.afterLine_afterLine x (byteOutSegs v) g [] []
    have hseg : bytesOutSegs (v :: w :: rest) = byteOutSegs v ++ bytesOutSegs (w :: rest) := rfl
    rw [List.length_cons, Nat.mul_succ, Nat.add_comm, ticks_add, hrun, hseg]
    generalize byteOutSegs v = g at *
    have hdrop : bytes.drop (k + 1) = w :: rest := by
      rw [Nat.add_comm k 1, ← List.drop_drop, List.drop_drop, Nat.add_comm 1 k, ← List.drop_drop, hb]
      rfl
    have hk' : k + 1 + rest.length < 9 := by
      rw [List.length_cons] at hk
      omega
    obtain ⟨q, h, e, e1, e2, e3⟩ := ih (k + 1) w
      ((x.afterLine g []).setHid { x.hid with tmr := 0, byteI := Fin.ofNat 9 k, bitI := 7, shr := v }) hr2
      (State.Transfers.of_eq ht rfl rfl rfl) hdrop hk' (Nat.mod_eq_of_lt (by omega)) (by
        have h := congrArg (fun l => l[1]?) hdrop
        simp only [List.getElem?_drop] at h
        rw [h, List.head?_eq_getElem?]
        rfl)
    rw [State.afterLine_setHid, hcat, State.park_setHid] at e
    exact ⟨q, h, e, e1, e2, e3⟩

/-- The bytes of a step coming in, from the `k`-th on (R140). -/
theorem bytesIn_run {n : Nat} (d k : Nat) (x : State) (hr : x.Runs i (488 * (d + 1))) (ht : x.Transfers i (.bytesIn n))
    (hn : k + d + 1 = n) (hk : k + d < 9) :
    x.StepEnds i x.hid.step (bytesInSegs (d + 1)) (bytesInOffsets (d + 1) 0) x.hid.presT
      (setAll (stagedBytes x ((List.range' k (d + 1)).map (Fin.ofNat 9)) 0 0) x.hid.stg)
      (ticks (488 * (d + 1)) (x.enterByte k 0#8 .rLow)) := by
  have hk9 : (Fin.ofNat 9 k).val = k := Nat.mod_eq_of_lt (by omega)
  induction d generalizing k x with
  | zero =>
    have hr' : x.Runs i 488 := by simpa using hr
    have hrun := byteIn_run k hr' ht
    refine ⟨.rPad, { x.hid with
      tmr := 0, byteI := Fin.ofNat 9 k, bitI := 7, shr := x.byteIn 0 0
      stg := x.hid.stg.set (Fin.ofNat 9 k).val (x.byteIn 0 0) (Fin.ofNat 9 k).isLt }, ?_, rfl, rfl, rfl⟩
    rw [show 488 * (0 + 1) = 488 from rfl, hrun, show bytesInSegs (0 + 1) = byteInSegs from List.append_nil _,
      show bytesInOffsets (0 + 1) 0 = byteInOffsets 0 from List.append_nil _]
    generalize byteInSegs = g
    generalize byteInOffsets 0 = o
    generalize x.byteIn 0 0 = v
    refine slotEnd_in_last (State.Transfers.of_eq ht rfl rfl rfl) not_seven ?_
    show ¬ (Fin.ofNat 9 k).val + 1 < n
    omega
  | succ d ih =>
    have hr' : x.Runs i (488 + 488 * (d + 1)) := by rwa [Nat.mul_succ, Nat.add_comm] at hr
    have hrun := byteIn_next k (State.Runs.left hr') ht (by omega) (by omega)
    have hr2 := State.Runs.afterLine (byteInOffsets 0) segTicks_byteInSegs hr'
    have hcat := State.afterLine_afterLine x byteInSegs (bytesInSegs (d + 1)) (byteInOffsets 0) (bytesInOffsets (d + 1) 0)
    rw [segTicks_byteInSegs, bytesInOffsets_map_add] at hcat
    have hstg := stagedBytes_afterLine x byteInSegs (byteInOffsets 0) ((List.range' (k + 1) (d + 1)).map (Fin.ofNat 9)) 0 0
    rw [segTicks_byteInSegs] at hstg
    have hseg : bytesInSegs (d + 1 + 1) = byteInSegs ++ bytesInSegs (d + 1) := rfl
    have hoff : bytesInOffsets (d + 1 + 1) 0 = byteInOffsets 0 ++ bytesInOffsets (d + 1) (0 + 488) := rfl
    have hlen : (byteInOffsets 0).length = 8 := rfl
    have hl : (List.range' k (d + 1 + 1)).map (Fin.ofNat 9) =
        Fin.ofNat 9 k :: (List.range' (k + 1) (d + 1)).map (Fin.ofNat 9) := rfl
    rw [Nat.mul_succ, Nat.add_comm (488 * (d + 1)) 488, ticks_add, hrun, hseg, hoff, hl, stagedBytes, setAll]
    rw [hlen] at hstg
    generalize byteInSegs = g at *
    generalize byteInOffsets 0 = o at *
    generalize x.byteIn 0 0 = v at *
    obtain ⟨q, h, e, e1, e2, e3⟩ := ih (k + 1)
      ((x.afterLine g o).setHid { x.hid with
        tmr := 0, byteI := Fin.ofNat 9 k, bitI := 7, shr := v
        stg := x.hid.stg.set (Fin.ofNat 9 k).val v (Fin.ofNat 9 k).isLt }) hr2
      (State.Transfers.of_eq ht rfl rfl rfl) (by omega) (by omega) (Nat.mod_eq_of_lt (by omega))
    rw [State.afterLine_setHid, hcat, State.park_setHid] at e
    rw [stagedBytes_setHid, hstg] at e3
    exact ⟨q, h, e, e1, e2, e3⟩

/-! Steps. -/

theorem State.transfers_setHid {h : Hidden} {tr : Transfer} (ht : transferOf h.step (stepsOf i x) = some tr) :
    (x.setHid h).Transfers i tr := by
  unfold State.Transfers
  rw [stepsOf_congr i (show (x.setHid h).cfg = x.cfg from rfl) (show (x.setHid h).rom = x.rom from rfl)]
  exact ht

theorem resetStep_run (hr : x.Runs i 960) :
    x.StepEnds i .sReset resetSlotSegs [540] (!x.levelAt 0 540) x.hid.stg
      (ticks 960 (x.enterStep (.sReset, .resetSlot))) := by
  have h := resetSlot_run (x := x.setHid { x.hid with step := .sReset, byteI := Fin.ofNat 9 0, bitI := 0, shr := 0#8 }) hr
  rw [State.afterLine_setHid, State.park_setHid] at h
  exact ⟨_, _, h, rfl, rfl, rfl⟩

theorem outStep_run {st : SeqStep} {v : Byte} {vs : List Byte} (hr : x.Runs i (488 * (v :: vs).length))
    (ht : transferOf st (stepsOf i x) = some (.bytesOut (v :: vs))) (hl : vs.length < 9) :
    x.StepEnds i st (bytesOutSegs (v :: vs)) [] x.hid.presT x.hid.stg
      (ticks (488 * (v :: vs).length) (x.enterStep (st, .bytesOut (v :: vs)))) := by
  obtain ⟨q, h, e, e1, e2, e3⟩ := bytesOut_run vs 0 v (x.setHid { x.hid with step := st }) hr
    (State.transfers_setHid ht) rfl (by omega)
  rw [State.afterLine_setHid, State.park_setHid] at e
  exact ⟨q, h, e, e1, e2, e3⟩

theorem inStep_run {st : SeqStep} {d : Nat} (hr : x.Runs i (488 * (d + 1)))
    (ht : transferOf st (stepsOf i x) = some (.bytesIn (d + 1))) (hd : d < 9) :
    x.StepEnds i st (bytesInSegs (d + 1)) (bytesInOffsets (d + 1) 0) x.hid.presT
      (setAll (stagedBytes x ((List.range' 0 (d + 1)).map (Fin.ofNat 9)) 0 0) x.hid.stg)
      (ticks (488 * (d + 1)) (x.enterStep (st, .bytesIn (d + 1)))) := by
  obtain ⟨q, h, e, e1, e2, e3⟩ := bytesIn_run d 0 (x.setHid { x.hid with step := st }) hr
    (State.transfers_setHid ht) (by omega) (by omega)
  rw [State.afterLine_setHid, State.park_setHid] at e
  rw [stagedBytes_setHid] at e3
  exact ⟨q, h, e, e1, e2, e3⟩

/-- The end of a step that is not the last (R140). -/
theorem stepEnd_next {st : SeqStep × Transfer} {rest : List (SeqStep × Transfer)}
    (hs : stepsAfter s.hid.step (stepsOf i s) = st :: rest)
    (he : endsWhenAbsent i = false ∨ s.hid.presT = true ∨ s.hid.step ≠ .sReset) : s.stepEnd i = s.enterStep st := by
  unfold State.stepEnd
  rw [if_neg, hs]
  rcases he with h | h | h <;> simp [h]

/-- The end of the last step (R140). -/
theorem stepEnd_last (hs : stepsAfter s.hid.step (stepsOf i s) = []) : s.stepEnd i = commitOf i s := by
  unfold State.stepEnd
  split
  · rfl
  · rw [hs]

/-- The end of a READ_ROM or an INIT on an empty bus (R140). -/
theorem stepEnd_absent (h1 : endsWhenAbsent i = true) (h2 : s.hid.step = .sReset) (h3 : s.hid.presT = false) :
    s.stepEnd i = commitOf i s := by
  unfold State.stepEnd
  rw [if_pos (by simp [h1, h2, h3])]

theorem State.enterStep_park (q : Phase) (h : Hidden) (st : SeqStep × Transfer) (s : State) :
    (s.park q h).enterStep st = (s.setHid h).enterStep st := by
  obtain ⟨_, tr⟩ := st
  cases tr <;> rfl

/-- A commit reads the hidden buffers only (R27). -/
theorem commitOf_park {q : Phase} {h g : Hidden} (y : State) (hp : h.presT = g.presT) (hs : h.stg = g.stg)
    (hv : i = .readBit ∨ i = .readByte → h.shr = g.shr) : commitOf i (y.park q h) = commitOf i (y.setHid g) := by
  obtain ⟨_, _, _, _, shr, _, _⟩ := h
  obtain ⟨_, _, _, _, shr', _, _⟩ := g
  simp only at hp hs hv
  subst hp hs
  cases i
  case readBit => have := hv (.inl rfl); subst this; rfl
  case readByte => have := hv (.inr rfl); subst this; rfl
  all_goals rfl

/-! Steps one after the other. -/

variable {st st' : SeqStep} {gs : List (Bool × Nat)} {offs : List Nat} {p : Bool} {stg : Vector Byte 9} {t : State}

/-- The next step starts in the tick in which a step ends (R140). -/
theorem State.StepEnds.next {tr : Transfer} {rest : List (SeqStep × Transfer)} (h : x.StepEnds i st gs offs p stg t)
    (hs : stepsAfter st (stepsOf i x) = (st', tr) :: rest)
    (he : endsWhenAbsent i = false ∨ p = true ∨ st ≠ .sReset) :
    ∃ g, t = ((x.afterLine gs offs).setHid g).enterStep (st', tr) ∧ g.presT = p ∧ g.stg = stg := by
  obtain ⟨q, g, e, e1, e2, e3⟩ := h
  refine ⟨g, ?_, e2, e3⟩
  have hs' : stepsAfter ((x.afterLine gs offs).park q g).hid.step (stepsOf i ((x.afterLine gs offs).park q g)) =
      (st', tr) :: rest := by
    rw [stepsOf_congr i (show ((x.afterLine gs offs).park q g).cfg = x.cfg from rfl)
      (show ((x.afterLine gs offs).park q g).rom = x.rom from rfl)]
    show stepsAfter g.step _ = _
    rw [e1]
    exact hs
  rw [e, stepEnd_next hs' (by show _ ∨ g.presT = true ∨ g.step ≠ _; rw [e1, e2]; exact he), State.enterStep_park]

/-- A step of bytes out after another step. -/
theorem State.StepEnds.out {v : Byte} {vs : List Byte} {rest : List (SeqStep × Transfer)}
    (h : x.StepEnds i st gs offs p stg t) (hm : segTicks gs = m) (hr : x.Runs i (m + 488 * (v :: vs).length))
    (hs : stepsAfter st (stepsOf i x) = (st', .bytesOut (v :: vs)) :: rest)
    (ht : transferOf st' (stepsOf i x) = some (.bytesOut (v :: vs)))
    (he : endsWhenAbsent i = false ∨ p = true ∨ st ≠ .sReset) (hl : vs.length < 9) :
    x.StepEnds i st' (gs ++ bytesOutSegs (v :: vs)) offs p stg (ticks (488 * (v :: vs).length) t) := by
  obtain ⟨g, e, e2, e3⟩ := h.next hs he
  have ht' : transferOf st' (stepsOf i ((x.afterLine gs offs).setHid g)) = some (.bytesOut (v :: vs)) := by
    rw [stepsOf_congr i (show ((x.afterLine gs offs).setHid g).cfg = x.cfg from rfl)
      (show ((x.afterLine gs offs).setHid g).rom = x.rom from rfl)]
    exact ht
  obtain ⟨q, h, f, f1, f2, f3⟩ := outStep_run (x := (x.afterLine gs offs).setHid g)
    (State.Runs.afterLine offs hm hr) ht' hl
  have hcat := State.afterLine_afterLine x gs (bytesOutSegs (v :: vs)) offs []
  rw [List.map_nil, List.append_nil] at hcat
  rw [State.afterLine_setHid, State.park_setHid, hcat] at f
  exact ⟨q, h, e ▸ f, f1, f2.trans e2, f3.trans e3⟩

/-- A step of bytes in after another step. -/
theorem State.StepEnds.into {d : Nat} {rest : List (SeqStep × Transfer)}
    (h : x.StepEnds i st gs offs p stg t) (hm : segTicks gs = m) (hr : x.Runs i (m + 488 * (d + 1)))
    (hs : stepsAfter st (stepsOf i x) = (st', .bytesIn (d + 1)) :: rest)
    (ht : transferOf st' (stepsOf i x) = some (.bytesIn (d + 1)))
    (he : endsWhenAbsent i = false ∨ p = true ∨ st ≠ .sReset) (hd : d < 9) :
    x.StepEnds i st' (gs ++ bytesInSegs (d + 1)) (offs ++ bytesInOffsets (d + 1) m) p
      (setAll (stagedBytes x ((List.range' 0 (d + 1)).map (Fin.ofNat 9)) offs.length m) stg)
      (ticks (488 * (d + 1)) t) := by
  obtain ⟨g, e, e2, e3⟩ := h.next hs he
  have ht' : transferOf st' (stepsOf i ((x.afterLine gs offs).setHid g)) = some (.bytesIn (d + 1)) := by
    rw [stepsOf_congr i (show ((x.afterLine gs offs).setHid g).cfg = x.cfg from rfl)
      (show ((x.afterLine gs offs).setHid g).rom = x.rom from rfl)]
    exact ht
  obtain ⟨q, h, f, f1, f2, f3⟩ := inStep_run (x := (x.afterLine gs offs).setHid g)
    (State.Runs.afterLine offs hm hr) ht' hd
  have hcat := State.afterLine_afterLine x gs (bytesInSegs (d + 1)) offs (bytesInOffsets (d + 1) 0)
  rw [hm, bytesInOffsets_map_add, Nat.zero_add] at hcat
  rw [State.afterLine_setHid, State.park_setHid, hcat] at f
  rw [stagedBytes_setHid, stagedBytes_afterLine, hm, Nat.add_zero, Nat.zero_add] at f3
  exact ⟨q, h, e ▸ f, f1, f2.trans e2, f3.trans (by rw [← e3]; rfl)⟩

/-- The end of the last step is the commit (R27, R140), whatever the other hidden registers are. -/
theorem State.StepEnds.commit {g : Hidden} (h : x.StepEnds i st gs offs p stg t) (hs : stepsAfter st (stepsOf i x) = [])
    (hp : g.presT = p) (hg : g.stg = stg) (h1 : i ≠ .readBit) (h2 : i ≠ .readByte) :
    t = commitOf i ((x.afterLine gs offs).setHid g) := by
  obtain ⟨q, k, e, e1, e2, e3⟩ := h
  have hs' : stepsAfter ((x.afterLine gs offs).park q k).hid.step (stepsOf i ((x.afterLine gs offs).park q k)) = [] := by
    rw [stepsOf_congr i (show ((x.afterLine gs offs).park q k).cfg = x.cfg from rfl)
      (show ((x.afterLine gs offs).park q k).rom = x.rom from rfl)]
    show stepsAfter k.step _ = _
    rw [e1]
    exact hs
  rw [e, stepEnd_last hs']
  exact commitOf_park _ (e2.trans hp.symm) (e3.trans hg.symm) (fun h => h.elim (absurd · h1) (absurd · h2))

/-- The early end of READ_ROM and INIT (R140). -/
theorem State.StepEnds.absent {g : Hidden} (h : x.StepEnds i .sReset gs offs false stg t)
    (he : endsWhenAbsent i = true) (hp : g.presT = false) (hg : g.stg = stg) :
    t = commitOf i ((x.afterLine gs offs).setHid g) := by
  obtain ⟨q, k, e, e1, e2, e3⟩ := h
  rw [e, stepEnd_absent he e1 e2]
  exact commitOf_park _ (e2.trans hp.symm) (e3.trans hg.symm)
    (fun h => by rcases h with rfl | rfl <;> exact absurd he (by decide))

/-- The first three steps of every command that addresses the cached device (R76, R140). -/
theorem matchSteps_run {rest : List (SeqStep × Transfer)} (hs : stepsOf i x = matchSteps x ++ rest)
    (he : endsWhenAbsent i = false) (hr : x.Runs i 5352) :
    x.StepEnds i .sRomData (matchRomSegs x) [540] (!x.levelAt 0 540) x.hid.stg
      (ticks 5352 (x.enterStep (.sReset, .resetSlot))) := by
  have hr1 : x.Runs i (960 + (488 + 3904)) := hr
  have hs' : stepsOf i x = (.sReset, .resetSlot) :: (.sRomCmd, .bytesOut [x.cfg.cmdMatchRom]) ::
      (.sRomData, .bytesOut x.rom.toList) :: rest := hs
  have hlen : x.rom.toList.length = 8 := x.rom.length_toList
  obtain ⟨v, vs, hv⟩ : ∃ v vs, x.rom.toList = v :: vs := by
    cases hl : x.rom.toList with
    | nil => rw [hl] at hlen; cases hlen
    | cons v vs => exact ⟨v, vs, rfl⟩
  have hvs : vs.length = 7 := by rw [hv, List.length_cons] at hlen; omega
  rw [hv] at hs'
  have h1 := resetStep_run (State.Runs.left hr1)
  have h2 := h1.out (v := x.cfg.cmdMatchRom) (vs := []) segTicks_resetSlotSegs
    (State.Runs.left (n := 3904) (by simpa [Nat.add_assoc] using hr1)) (by rw [hs']; rfl) (by rw [hs']; rfl)
    (.inl he) (by decide)
  have h3 := h2.out (v := v) (vs := vs) (m := 960 + 488) (by rw [segTicks_append, segTicks_bytesOutSegs]; rfl)
    (by rw [List.length_cons, hvs]; exact hr1) (by rw [hs']; rfl) (by rw [hs']; rfl) (.inl he) (by omega)
  have hg : resetSlotSegs ++ bytesOutSegs [x.cfg.cmdMatchRom] ++ bytesOutSegs (v :: vs) = matchRomSegs x := by
    rw [matchRomSegs, hv, List.append_assoc]
    rfl
  rw [hg, ← ticks_add, ← ticks_add] at h3
  simp only [List.length_cons, List.length_nil, hvs, Nat.reduceAdd, Nat.reduceMul] at h3
  exact h3

end Sys2Proof.Machine
end

