-- ==== Sys2Proof/Laws/Inside.lean ====
section
/-! SUPPORT. The ticks inside an operation (10_state.md R11, 70_reset_and_hazards.md R140): `BUSY` and the pin in every tick of
a slot, and `BUSY` in every tick of a byte, a step and a walk. At each tick only the ticks before it must be free of `rst`. -/

namespace Sys2Proof.Machine

variable {i : Instr} {m n : Nat} {s x : State}

/-! One slot. -/

/-- A slot is three phases one after the other, of which the first two take no sample: in every tick of it `BUSY` is 1 and the
pin is as its phase drives it (R60, R61, R64, R140). -/
theorem slot_inside {a b c : Phase} (ha : ∀ y : State, y.seq = a → y.phaseEnd i = y.enterPhase b)
    (hb : ∀ y : State, y.seq = b → y.phaseEnd i = y.enterPhase c)
    (ta : ∀ y : State, y.seq = a → y.takeSample = y) (tb : ∀ y : State, y.seq = b → y.takeSample = y)
    (k : Nat) (hk : k < a.ticks + (b.ticks + c.ticks)) (h : x.Runs i k) :
    (ticks k (x.enterPhase a)).busy = true ∧
    (ticks k (x.enterPhase a)).owOe =
      (if k < a.ticks then a else if k < a.ticks + b.ticks then b else c).drives
        (x.hid.shr.getLsbD x.hid.bitI.val) := by
  by_cases h1 : k < a.ticks
  · rw [if_pos h1]
    exact ⟨(phase_inside a k h1 h).1, (phase_inside a k h1 h).2.1⟩
  rw [if_neg h1]
  obtain ⟨m, rfl⟩ := Nat.exists_eq_add_of_le (Nat.le_of_not_lt h1)
  have e1 := phase_run a h.left
  rw [ta _ rfl, ha _ rfl] at e1
  rw [ticks_add, e1]
  generalize hy : ((x.enterPhase a).setTmr 0).delay a.ticks = y
  have hr : y.Runs i m := hy ▸ State.Runs.delay (s := (x.enterPhase a).setTmr 0) h
  have hd : y.hid.shr.getLsbD y.hid.bitI.val = x.hid.shr.getLsbD x.hid.bitI.val := by rw [← hy]; rfl
  rw [← hd]
  by_cases h2 : m < b.ticks
  · rw [if_pos (by omega)]
    exact ⟨(phase_inside b m h2 hr).1, (phase_inside b m h2 hr).2.1⟩
  rw [if_neg (by omega)]
  obtain ⟨l, rfl⟩ := Nat.exists_eq_add_of_le (Nat.le_of_not_lt h2)
  have e2 := phase_run b hr.left
  rw [tb _ rfl, hb _ rfl] at e2
  rw [ticks_add, e2]
  generalize hz : ((y.enterPhase b).setTmr 0).delay b.ticks = z
  have hr2 : z.Runs i l := hz ▸ State.Runs.delay (s := (y.enterPhase b).setTmr 0) hr
  have hd2 : z.hid.shr.getLsbD z.hid.bitI.val = y.hid.shr.getLsbD y.hid.bitI.val := by rw [← hz]; rfl
  rw [← hd2]
  have h3 := phase_inside c l (by omega) hr2
  exact ⟨h3.1, h3.2.1⟩

/-- The pin in every tick of the reset slot (R64). -/
theorem resetSlot_inside (k : Nat) (hk : k < 960) (h : x.Runs i k) :
    (ticks k (x.enterPhase .rstLow)).busy = true ∧ (ticks k (x.enterPhase .rstLow)).owOe = decide (k < 480) := by
  have hs := slot_inside (i := i) (x := x) (a := .rstLow) (b := .rstWait) (c := .rstRec)
    (fun y e => by simp [State.phaseEnd, e]) (fun y e => by simp [State.phaseEnd, e])
    (fun y e => by simp [State.takeSample, e]) (fun y e => by simp [State.takeSample, e]) k hk h
  refine ⟨hs.1, hs.2.trans ?_⟩
  show (if k < 480 then Phase.rstLow else if k < 480 + 60 then .rstWait else .rstRec).drives _ = _
  split
  next hlt => rw [decide_eq_true hlt]; rfl
  next hge => rw [decide_eq_false hge]; split <;> rfl

/-- The pin in every tick of a write slot (R60). -/
theorem writeSlot_inside (k : Nat) (hk : k < 61) (h : x.Runs i k) :
    (ticks k (x.enterPhase .wLow)).busy = true ∧
    (ticks k (x.enterPhase .wLow)).owOe =
      decide (k = 0 ∨ (x.hid.shr.getLsbD x.hid.bitI.val = false ∧ k < 60)) := by
  have hs := slot_inside (i := i) (x := x) (a := .wLow) (b := .wHold) (c := .wRec)
    (fun y e => by simp [State.phaseEnd, e]) (fun y e => by simp [State.phaseEnd, e])
    (fun y e => by simp [State.takeSample, e]) (fun y e => by simp [State.takeSample, e]) k hk h
  refine ⟨hs.1, hs.2.trans ?_⟩
  generalize x.hid.shr.getLsbD x.hid.bitI.val = b
  show (if k < 1 then Phase.wLow else if k < 1 + 59 then .wHold else .wRec).drives b = _
  split
  next hlt => rw [decide_eq_true (.inl (by omega))]; rfl
  next hge =>
    split
    next hlt =>
      cases b
      · rw [decide_eq_true (.inr ⟨rfl, by omega⟩)]; rfl
      · rw [decide_eq_false (by rintro (h0 | ⟨h0, _⟩); omega; cases h0)]; rfl
    next => rw [decide_eq_false (by rintro (h0 | ⟨_, h0⟩) <;> omega)]; rfl

/-- The pin in every tick of a read slot (R61). -/
theorem readSlot_inside (k : Nat) (hk : k < 61) (h : x.Runs i k) :
    (ticks k (x.enterPhase .rLow)).busy = true ∧ (ticks k (x.enterPhase .rLow)).owOe = decide (k = 0) := by
  have hs := slot_inside (i := i) (x := x) (a := .rLow) (b := .rWait) (c := .rPad)
    (fun y e => by simp [State.phaseEnd, e]) (fun y e => by simp [State.phaseEnd, e])
    (fun y e => by simp [State.takeSample, e]) (fun y e => by simp [State.takeSample, e]) k hk h
  refine ⟨hs.1, hs.2.trans ?_⟩
  show (if k < 1 then Phase.rLow else if k < 1 + 15 then .rWait else .rPad).drives _ = _
  split
  next hlt => rw [decide_eq_true (show k = 0 by omega)]; rfl
  next hge => rw [decide_eq_false (show ¬ k = 0 by omega)]; split <;> rfl

/-! Longer stretches. -/

/-- `BUSY` is 1 in the `n` ticks from `y` on, as far as no `rst` falls before them. -/
def State.BusyFor (i : Instr) (n : Nat) (y : State) : Prop := ∀ k, k < n → y.Runs i k → (ticks k y).busy = true

theorem State.BusyFor.append {y : State} (h1 : y.BusyFor i m)
    (h2 : ∀ k, y.Runs i (m + k) → ∃ z, ticks m y = z ∧ z.Runs i k ∧ z.BusyFor i n) : y.BusyFor i (m + n) := by
  intro k hk hr
  by_cases h : k < m
  · exact h1 k h hr
  obtain ⟨l, rfl⟩ := Nat.exists_eq_add_of_le (Nat.le_of_not_lt h)
  obtain ⟨z, e, hz, h3⟩ := h2 l hr
  rw [ticks_add, e]
  exact h3 l (by omega) hz

theorem resetSlot_busy : (x.enterPhase .rstLow).BusyFor i 960 := fun k hk h => (resetSlot_inside k hk h).1
theorem writeSlot_busy : (x.enterPhase .wLow).BusyFor i 61 := fun k hk h => (writeSlot_inside k hk h).1
theorem readSlot_busy : (x.enterPhase .rLow).BusyFor i 61 := fun k hk h => (readSlot_inside k hk h).1

/-- The write slots of a byte, from the one of bit `BIT_I` on (R62, R140). -/
theorem writeSlots_busy {bytes : List Byte} (d : Nat) (x : State) (ht : x.Transfers i (.bytesOut bytes))
    (hj : x.hid.bitI.val + d ≤ 7) : (x.enterPhase .wLow).BusyFor i (61 * d + 61) := by
  induction d generalizing x with
  | zero => exact writeSlot_busy
  | succ d ih =>
    have hj' : x.hid.bitI.val < 7 := by omega
    have hb := bitI_succ hj'
    rw [show 61 * (d + 1) + 61 = 61 + (61 * d + 61) by omega]
    refine State.BusyFor.append writeSlot_busy (fun k hr => ⟨_, writeSlot_next (State.Runs.left hr) ht hj', ?_,
      ih _ (by rw [State.writeBit_eq]; exact State.Transfers.of_eq ht rfl rfl rfl)
        (by show (x.hid.bitI + 1).val + d ≤ 7; omega)⟩)
    rw [State.writeBit_eq]
    exact State.Runs.afterLine [] (segTicks_writeSlotSegs _) hr

/-- The read slots of a byte, from the one of bit `BIT_I` on (R63, R140). -/
theorem readSlots_busy {b : Nat} (d : Nat) (x : State) (ht : x.Transfers i (.bytesIn b))
    (hj : x.hid.bitI.val + d ≤ 7) : (x.enterPhase .rLow).BusyFor i (61 * d + 61) := by
  induction d generalizing x with
  | zero => exact readSlot_busy
  | succ d ih =>
    have hj' : x.hid.bitI.val < 7 := by omega
    have hb := bitI_succ hj'
    rw [show 61 * (d + 1) + 61 = 61 + (61 * d + 61) by omega]
    refine State.BusyFor.append readSlot_busy (fun k hr => ⟨_, readSlot_next (State.Runs.left hr) ht hj', ?_,
      ih _ (by simp only [State.readBitAt, State.readBit_eq]; exact State.Transfers.of_eq ht rfl rfl rfl)
        (by show (x.hid.bitI + 1).val + d ≤ 7; omega)⟩)
    simp only [State.readBitAt, State.readBit_eq]
    exact State.Runs.afterLine [16] segTicks_readSlotSegs hr

/-- A byte out (R62, R140). -/
theorem byteOut_busy {bytes : List Byte} (k : Nat) (v : Byte) (ht : x.Transfers i (.bytesOut bytes)) :
    (x.enterByte k v .wLow).BusyFor i 488 :=
  writeSlots_busy 7 (x.setHid { x.hid with byteI := Fin.ofNat 9 k, bitI := 0, shr := v })
    (State.Transfers.of_eq ht rfl rfl rfl) (Nat.le_refl 7)

/-- A byte in (R63, R140). -/
theorem byteIn_busy {b : Nat} (k : Nat) (ht : x.Transfers i (.bytesIn b)) : (x.enterByte k 0#8 .rLow).BusyFor i 488 :=
  readSlots_busy 7 (x.setHid { x.hid with byteI := Fin.ofNat 9 k, bitI := 0, shr := 0#8 })
    (State.Transfers.of_eq ht rfl rfl rfl) (Nat.le_refl 7)

/-- The bytes of a step going out, from the `k`-th on (R140). -/
theorem bytesOut_busy {bytes : List Byte} (rest : List Byte) (k : Nat) (v : Byte) (x : State)
    (ht : x.Transfers i (.bytesOut bytes)) (hb : bytes.drop k = v :: rest) (hk : k + rest.length < 9) :
    (x.enterByte k v .wLow).BusyFor i (488 * (v :: rest).length) := by
  induction rest generalizing k v x with
  | nil => exact byteOut_busy k v ht
  | cons w rest ih =>
    have hn : bytes[k + 1]? = some w := by
      have h := congrArg (fun l => l[1]?) hb
      rw [List.getElem?_drop] at h
      exact h
    have hdrop : bytes.drop (k + 1) = w :: rest := by
      rw [Nat.add_comm k 1, ← List.drop_drop, List.drop_drop, Nat.add_comm 1 k, ← List.drop_drop, hb]
      rfl
    rw [List.length_cons] at hk
    rw [List.length_cons, Nat.mul_succ, Nat.add_comm]
    refine State.BusyFor.append (byteOut_busy k v ht) fun l hr => ?_
    have hrun := byteOut_next k v w (State.Runs.left hr) ht (by omega) hn
    have hr2 := State.Runs.afterLine [] (segTicks_byteOutSegs v) hr
    generalize byteOutSegs v = g at *
    exact ⟨_, hrun, hr2, ih (k + 1) w _ (State.Transfers.of_eq ht rfl rfl rfl) hdrop (by omega)⟩

/-- The bytes of a step coming in, from the `k`-th on (R140). -/
theorem bytesIn_busy {b : Nat} (d k : Nat) (x : State) (ht : x.Transfers i (.bytesIn b)) (hb : k + d + 1 = b)
    (hk : k + d < 9) : (x.enterByte k 0#8 .rLow).BusyFor i (488 * (d + 1)) := by
  induction d generalizing k x with
  | zero => exact byteIn_busy k ht
  | succ d ih =>
    rw [Nat.mul_succ, Nat.add_comm]
    refine State.BusyFor.append (byteIn_busy k ht) fun l hr => ?_
    have hrun := byteIn_next k (State.Runs.left hr) ht (by omega) (by omega)
    have hr2 := State.Runs.afterLine (byteInOffsets 0) segTicks_byteInSegs hr
    generalize byteInSegs = g at *
    generalize byteInOffsets 0 = o at *
    generalize x.byteIn 0 0 = v at *
    exact ⟨_, hrun, hr2, ih (k + 1) _ (State.Transfers.of_eq ht rfl rfl rfl) (by omega) (by omega)⟩

/-! Steps. -/

theorem resetStep_busy : (x.enterStep (.sReset, .resetSlot)).BusyFor i 960 :=
  resetSlot_busy (x := x.setHid { x.hid with step := .sReset, byteI := Fin.ofNat 9 0, bitI := 0, shr := 0#8 })

theorem outStep_busy {st : SeqStep} {v : Byte} {vs : List Byte}
    (ht : transferOf st (stepsOf i x) = some (.bytesOut (v :: vs))) (hl : vs.length < 9) :
    (x.enterStep (st, .bytesOut (v :: vs))).BusyFor i (488 * (v :: vs).length) :=
  bytesOut_busy vs 0 v (x.setHid { x.hid with step := st }) (State.transfers_setHid ht) rfl (by omega)

theorem inStep_busy {st : SeqStep} {d : Nat} (ht : transferOf st (stepsOf i x) = some (.bytesIn (d + 1))) (hd : d < 9) :
    (x.enterStep (st, .bytesIn (d + 1))).BusyFor i (488 * (d + 1)) :=
  bytesIn_busy d 0 (x.setHid { x.hid with step := st }) (State.transfers_setHid ht) (by omega) (by omega)

/-- A step that follows another: `BUSY` is 1 through both (R140). `y` starts the walk, `x` is the state it starts from. -/
theorem State.BusyFor.next {y : State} {st st' : SeqStep} {tr : Transfer} {rest : List (SeqStep × Transfer)}
    {gs : List (Bool × Nat)} {offs : List Nat} {p : Bool} {stg : Vector Byte 9} (h1 : y.BusyFor i m)
    (h2 : y.Runs i m → x.StepEnds i st gs offs p stg (ticks m y)) (hm : segTicks gs = m)
    (hy : ∀ k, y.Runs i k → x.Runs i k) (hs : stepsAfter st (stepsOf i x) = (st', tr) :: rest)
    (he : endsWhenAbsent i = false ∨ p = true ∨ st ≠ .sReset)
    (h3 : ∀ z : State, stepsOf i z = stepsOf i x → (z.enterStep (st', tr)).BusyFor i n) : y.BusyFor i (m + n) :=
  State.BusyFor.append h1 fun k hr => by
    obtain ⟨g, e, _, _⟩ := (h2 (State.Runs.left hr)).next hs he
    refine ⟨_, e, ?_, h3 _ (stepsOf_congr i rfl rfl)⟩
    have hx := State.Runs.afterLine offs hm (hy _ hr)
    cases tr <;> exact hx

/-- The first three steps of every command that addresses the cached device (R76, R140). -/
theorem matchSteps_busy {rest : List (SeqStep × Transfer)} (hs : stepsOf i x = matchSteps x ++ rest)
    (he : endsWhenAbsent i = false) : (x.enterStep (.sReset, .resetSlot)).BusyFor i 5352 := by
  have hlen : x.rom.toList.length = 8 := x.rom.length_toList
  obtain ⟨v, vs, hv⟩ : ∃ v vs, x.rom.toList = v :: vs := by
    cases hl : x.rom.toList with
    | nil => rw [hl] at hlen; cases hlen
    | cons v vs => exact ⟨v, vs, rfl⟩
  have hvs : vs.length = 7 := by rw [hv, List.length_cons] at hlen; omega
  have hs' : stepsOf i x = (.sReset, .resetSlot) :: (.sRomCmd, .bytesOut [x.cfg.cmdMatchRom]) ::
      (.sRomData, .bytesOut x.rom.toList) :: rest := hs
  rw [hv] at hs'
  have b1 : (x.enterStep (.sReset, .resetSlot)).BusyFor i (960 + 488 * [x.cfg.cmdMatchRom].length) :=
    State.BusyFor.next (x := x) resetStep_busy (fun h => resetStep_run h) segTicks_resetSlotSegs (fun _ h => h)
      (by rw [hs']; rfl) (.inl he) fun z hz => outStep_busy (by rw [hz, hs']; rfl) (by decide)
  have h12 : (x.enterStep (.sReset, .resetSlot)).Runs i (960 + 488 * [x.cfg.cmdMatchRom].length) →
      x.StepEnds i .sRomCmd (resetSlotSegs ++ bytesOutSegs [x.cfg.cmdMatchRom]) [540] (!x.levelAt 0 540) x.hid.stg
        (ticks (960 + 488 * [x.cfg.cmdMatchRom].length) (x.enterStep (.sReset, .resetSlot))) := fun h => by
    have h1 := (resetStep_run (x := x) (i := i) (State.Runs.left h)).out (v := x.cfg.cmdMatchRom) (vs := [])
      segTicks_resetSlotSegs h (by rw [hs']; rfl) (by rw [hs']; rfl) (.inl he) (by decide)
    rw [← ticks_add] at h1
    exact h1
  have b2 := State.BusyFor.next (x := x) (n := 488 * (v :: vs).length) b1 h12
    (by rw [segTicks_append, segTicks_bytesOutSegs]; rfl) (fun _ h => h) (by rw [hs']; rfl) (.inl he)
    fun z hz => outStep_busy (by rw [hz, hs']; rfl) (by omega)
  simp only [List.length_cons, List.length_nil, hvs, Nat.reduceAdd, Nat.reduceMul] at b2
  exact b2

end Sys2Proof.Machine
end

