-- ==== Sys2Proof/Laws/PerInstr.lean ====
section
/-! SUPPORT. A statement about every command, one lemma per constructor: its canonical word carries its opcode with `RSV` = 0 in
the top byte, and 0 in every bit its format ignores (30_encoding.md R46, R47, R53). -/

namespace Sys2Proof

/-- The top byte of a word put together from its fields (R46). -/
theorem topByte_wordOf (op : BitVec 4) (a2 a1 a0 : Byte) :
    wordOf op a2 a1 a0 &&& 0xFF000000#32 = op.setWidth 32 <<< 28 := by
  refine BitVec.eq_of_getLsbD_eq fun k hk => ?_
  rw [BitVec.getLsbD_and, wordOf, BitVec.getLsbD_append, BitVec.getLsbD_append, BitVec.getLsbD_append,
    BitVec.getLsbD_append]
  interval_cases k <;> simp

/-- A word with only `A0` leaves the bits of `A1` and `A2` at 0 (R46, R47). -/
theorem lowBits_wordOf (op : BitVec 4) (a0 : Byte) : wordOf op 0#8 0#8 a0 &&& 0x00FFFF00#32 = 0#32 := by
  refine BitVec.eq_of_getLsbD_eq fun k hk => ?_
  rw [BitVec.getLsbD_and, wordOf, BitVec.getLsbD_append, BitVec.getLsbD_append, BitVec.getLsbD_append,
    BitVec.getLsbD_append]
  interval_cases k <;> simp

end Sys2Proof

namespace Sys2Proof.Laws.CanonicalWord

/-- The top byte is `OP`, `RSV` = 0, and no ignored bit is set. -/
def Statement (i : Instr) : Prop :=
  encode i &&& 0xFF000000#32 = (opcode i).setWidth 32 <<< 28 ∧ encode i &&& ~~~ usedBits i = 0#32

theorem resetBus : Statement .resetBus := by unfold Statement; decide
theorem writeBit (bit : Bool) : Statement (.writeBit bit) := by
  unfold Statement; revert bit; decide
theorem readBit : Statement .readBit := by unfold Statement; decide
theorem writeByte (byte : Byte) : Statement (.writeByte byte) := by
  refine ⟨topByte_wordOf .., ?_⟩
  rw [show ~~~ usedBits (.writeByte byte) = 0x00FFFF00#32 by rw [usedBits]; rfl]
  exact lowBits_wordOf (opcode (.writeByte byte)) byte
theorem readByte : Statement .readByte := by unfold Statement; decide
theorem readRom : Statement .readRom := by unfold Statement; decide
theorem matchRom : Statement .matchRom := by unfold Statement; decide
theorem init : Statement .init := by unfold Statement; decide
theorem startConversion : Statement .startConversion := by unfold Statement; decide
theorem writeScratchpad (highAlarm lowAlarm config : Byte) :
    Statement (.writeScratchpad highAlarm lowAlarm config) :=
  ⟨topByte_wordOf .., by simp [usedBits]⟩
theorem copyScratchpad : Statement .copyScratchpad := by unfold Statement; decide
theorem readScratchpad : Statement .readScratchpad := by unfold Statement; decide
theorem readTemperature : Statement .readTemperature := by unfold Statement; decide

end Sys2Proof.Laws.CanonicalWord
end

