-- ==== Sys2Proof/Laws/Temperature.lean ====
section
/-! SUPPORT. The fields of a packed temperature (43_temperature_decoder.md R95) and the ranges of the decoder's magnitudes (R93,
R94). -/

namespace Sys2Proof.Machine

/-- The three fields of a binary64 put together from them. -/
theorem doubleExponent_fields (sg : Bool) (e : BitVec 11) (f : BitVec 52) :
    doubleExponent (BitVec.ofBool sg ++ e ++ f) = e.toNat := by
  unfold doubleExponent
  congr 1
  ext k hk
  rw [BitVec.getElem_extractLsb', BitVec.getLsbD_append, BitVec.getLsbD_append]
  simp [hk, BitVec.getLsbD_eq_getElem]

theorem doubleFraction_fields (sg : Bool) (e : BitVec 11) (f : BitVec 52) :
    doubleFraction (BitVec.ofBool sg ++ e ++ f) = f.toNat := by
  unfold doubleFraction
  congr 1
  ext k hk
  rw [BitVec.getElem_extractLsb', BitVec.getLsbD_append]
  simp [hk, BitVec.getLsbD_eq_getElem]

theorem signBit_fields (sg : Bool) (e : BitVec 11) (f : BitVec 52) :
    (BitVec.ofBool sg ++ e ++ f).getLsbD 63 = sg := by
  rw [BitVec.getLsbD_append, BitVec.getLsbD_append]
  simp

/-- The leading bit of a magnitude (R95: `p` = 0..11). -/
theorem log2_magnitude {m : Nat} (h0 : m ≠ 0) (hm : m ≤ 2048) : Nat.log2 m ≤ 11 :=
  Nat.le_of_lt_succ ((Nat.log2_lt h0).2 (by omega))

/-- The exponent field of a packed magnitude (R95, R96: 1019 to 1030). -/
theorem doubleExponent_pack (sg : Bool) {m : Nat} (h0 : m ≠ 0) (hm : m ≤ 2048) :
    doubleExponent (pack sg m) = 1019 + Nat.log2 m := by
  have hp := log2_magnitude h0 hm
  rw [pack, if_neg h0, doubleExponent_fields, BitVec.toNat_ofNat, Nat.mod_eq_of_lt (by omega)]

/-- The fraction field of a packed magnitude (R95): the bits below the leading 1, none lost. -/
theorem doubleFraction_pack (sg : Bool) {m : Nat} (h0 : m ≠ 0) (hm : m ≤ 2048) :
    doubleFraction (pack sg m) = (m - 2 ^ Nat.log2 m) * 2 ^ (52 - Nat.log2 m) := by
  have hp := log2_magnitude h0 hm
  have hlt : m < 2 ^ (Nat.log2 m + 1) := Nat.lt_log2_self
  have hle : 2 ^ Nat.log2 m ≤ m := Nat.log2_self_le h0
  have hb : (m - 2 ^ Nat.log2 m) * 2 ^ (52 - Nat.log2 m) < 2 ^ 52 := by
    have h1 : m - 2 ^ Nat.log2 m < 2 ^ Nat.log2 m := by rw [pow_succ] at hlt; omega
    calc (m - 2 ^ Nat.log2 m) * 2 ^ (52 - Nat.log2 m)
        < 2 ^ Nat.log2 m * 2 ^ (52 - Nat.log2 m) := Nat.mul_lt_mul_of_pos_right h1 (by positivity)
      _ = 2 ^ 52 := by rw [← pow_add]; congr 1; omega
  rw [pack, if_neg h0, doubleFraction_fields, BitVec.toNat_ofNat, Nat.mod_eq_of_lt hb]

theorem signBit_pack (sg : Bool) {m : Nat} (h0 : m ≠ 0) : (pack sg m).getLsbD 63 = sg := by
  rw [pack, if_neg h0, signBit_fields]

/-- R93: `N11` is at most 2047. -/
theorem n11_le (lo hi : Byte) : (n11 lo hi).toNat ≤ 2048 := by
  have := (n11 lo hi).isLt
  omega

/-- R94: bit 11 of `N12` is its sign. -/
theorem n12_sign (lo hi : Byte) : (n12 lo hi).getLsbD 11 = decide (2048 ≤ (n12 lo hi).toNat) := by
  have h := BitVec.msb_eq_decide (n12 lo hi)
  rw [BitVec.msb_eq_getLsbD_last] at h
  simpa using h

/-- R93: `N11` as a number. -/
theorem n11_toNat (lo hi : Byte) : (n11 lo hi).toNat = hi.toNat % 8 * 256 + lo.toNat := by
  rw [n11, BitVec.toNat_append, BitVec.extractLsb'_toNat, Nat.shiftRight_zero, ← Nat.shiftLeft_add_eq_or_of_lt lo.isLt,
    Nat.shiftLeft_eq]

/-- R94: `N12` as a number. -/
theorem n12_toNat (lo hi : Byte) : (n12 lo hi).toNat = hi.toNat % 16 * 256 + lo.toNat := by
  rw [n12, BitVec.toNat_append, BitVec.extractLsb'_toNat, Nat.shiftRight_zero, ← Nat.shiftLeft_add_eq_or_of_lt lo.isLt,
    Nat.shiftLeft_eq]

end Sys2Proof.Machine
end

