-- ==== Sys2Proof/Tests/Slice0.lean ====
section
/-! SUPPORT. Tests: ill-formed listing lines, words written out from the encoding, the spec's own vectors (95_test_vectors.md), and
for each obligation with hypotheses a state and operands that meet them. -/

namespace Sys2Proof.Tests

open Sys2Proof.Machine

/-! The kernel evaluates these tests one after the other. -/

set_option Elab.async false

/-! ## Helpers -/

/-- A field of the next state. -/
def result {α : Type} (f : State → α) : Host.Outcome State Fault Refusal → Option α
  | .next t => some (f t)
  | .fault _ => none
  | .refused _ => none

/-- `bits(v)` of each byte, least significant first (95_test_vectors.md section 0). -/
def bitsOf (bytes : List Byte) : List Bool := bytes.flatMap lsbFirst

/-- Fixture `ROM_A`. -/
def romA : List Byte := [0x28#8, 0xFF#8, 0x64#8, 0x1E#8, 0x0F#8, 0x00#8, 0x00#8, 0x34#8]
/-- Fixture `ROM_B`: another family. -/
def romB : List Byte := [0x10#8, 0xFF#8, 0x64#8, 0x1E#8, 0x0F#8, 0x00#8, 0x00#8, 0xD1#8]
/-- Fixture `SP_A`. -/
def spA : List Byte := [0x91#8, 0x01#8, 0x4B#8, 0x46#8, 0x7F#8, 0xFF#8, 0x0F#8, 0x10#8, 0x25#8]

/-- The reset state with levels on the line. -/
def lined (l : List Bool) : State := { State.reset with lineIn := l }

/-- A device with `ROM_A` cached, and levels on the line. -/
def cached (l : List Bool) : State :=
  { State.reset with
    rom := #v[0x28#8, 0xFF#8, 0x64#8, 0x1E#8, 0x0F#8, 0x00#8, 0x00#8, 0x34#8], romValid := true, lineIn := l }

/-- The bytes written on the line by a waveform that starts with a reset slot. -/
def sentAfterReset (bytes : List Byte) : List Run := addSegs (resetSlotSegs ++ bytesOutSegs bytes) []

/-! ## Well-formed lines (30_encoding.md R53, R54) -/

theorem test_illformed_bit : (SourceLine.command .WRITE_BIT [2]).wellFormed = false := by decide
theorem test_illformed_byte : (SourceLine.command .WRITE_BYTE [256]).wellFormed = false := by decide
theorem test_illformed_missing_operand : (SourceLine.command .WRITE_BYTE []).wellFormed = false := by decide
theorem test_illformed_extra_operand : (SourceLine.command .RESET_BUS [0]).wellFormed = false := by decide
theorem test_illformed_scratchpad :
    (SourceLine.command .WRITE_SCRATCHPAD [256, 0, 0]).wellFormed = false ∧
    (SourceLine.command .WRITE_SCRATCHPAD [0, 256, 0]).wellFormed = false ∧
    (SourceLine.command .WRITE_SCRATCHPAD [0, 0, 256]).wellFormed = false ∧
    (SourceLine.command .WRITE_SCRATCHPAD [0, 0]).wellFormed = false := by decide
theorem test_illformed_send_function : (SourceLine.sendFunction [256]).wellFormed = false := by decide
theorem test_illformed_wait : (SourceLine.wait []).wellFormed = false := by decide
theorem test_illformed_line_is_an_error : assemble (.command .WRITE_BYTE [256]) = .error .badOperands := by decide
theorem test_wellformed_boundary :
    (SourceLine.command .WRITE_BIT [1]).wellFormed = true ∧ (SourceLine.command .WRITE_BYTE [255]).wellFormed = true ∧
    (SourceLine.command .WRITE_SCRATCHPAD [255, 255, 255]).wellFormed = true := by decide

/-! ## Words written out bit by bit from R46, R47 decode as they stand -/

theorem test_decode_resetBus : decode 0b0001_0000_00000000_00000000_00000000#32 = .ok .resetBus := by decide
theorem test_decode_writeBit :
    decode 0b0010_0000_00000000_00000000_00000001#32 = .ok (.writeBit true) ∧
    decode 0b0010_0000_00000000_00000000_11111110#32 = .ok (.writeBit false) := by decide
theorem test_decode_readBit : decode 0b0011_0000_00000000_00000000_00000000#32 = .ok .readBit := by decide
theorem test_decode_writeByte : decode 0b0100_0000_10101011_11001101_10010001#32 = .ok (.writeByte 0x91#8) := by decide
theorem test_decode_readByte : decode 0b0101_0000_00000000_00000000_00000000#32 = .ok .readByte := by decide
theorem test_decode_readRom : decode 0b0110_0000_00000000_00000000_00000000#32 = .ok .readRom := by decide
theorem test_decode_matchRom : decode 0b0111_0000_00000000_00000000_00000000#32 = .ok .matchRom := by decide
theorem test_decode_init : decode 0b1000_0000_00000000_00000000_00000000#32 = .ok .init := by decide
theorem test_decode_startConversion :
    decode 0b1001_0000_00000000_00000000_00000000#32 = .ok .startConversion := by decide
theorem test_decode_writeScratchpad :
    decode 0b1010_0000_00111111_11001001_01111101#32 = .ok (.writeScratchpad 0x7D#8 0xC9#8 0x3F#8) := by decide
theorem test_decode_copyScratchpad :
    decode 0b1011_0000_00000000_00000000_00000000#32 = .ok .copyScratchpad := by decide
theorem test_decode_readScratchpad :
    decode 0b1100_0000_00000000_00000000_00000000#32 = .ok .readScratchpad := by decide
theorem test_decode_readTemperature :
    decode 0b1101_0000_00000000_00000000_00000000#32 = .ok .readTemperature := by decide
/-- V-E20 to V-E27. -/
theorem test_decode_illegal :
    decode 0x00000000#32 = .error .reservedOpcode ∧ decode 0x0FFFFFFF#32 = .error .reservedBits ∧
    decode 0xE0000000#32 = .error .reservedOpcode ∧ decode 0xF0000000#32 = .error .reservedOpcode ∧
    decode 0x11000000#32 = .error .reservedBits ∧ decode 0xD8000000#32 = .error .reservedBits ∧
    decode 0xAF00464B#32 = .error .reservedBits ∧ decode 0xFFFFFFFF#32 = .error .reservedBits := by decide
/-- The encoder against R53's formula on V-E15. -/
theorem test_encode_writeScratchpad : encode (.writeScratchpad 0x4B#8 0x46#8 0x00#8) = 0xA000464B#32 := by decide
theorem test_tableWord :
    decodeTableWord 32 0xD0000000 = some .readTemperature ∧ decodeTableWord 32 0x00000000 = none := by decide

/-! ## The assembler (R53, R54) -/

/-- 95_test_vectors.md 2.1: `WRITE_SCRATCHPAD 0x7D, 0xC9, 0x3F` is 0xA03FC97D. -/
theorem test_assemble_line :
    parseLine "WRITE_SCRATCHPAD 0x7D, 0xC9, 0x3F ; alarms".toList =
      .ok (some (.command .WRITE_SCRATCHPAD [0x7D, 0xC9, 0x3F])) := by decide +kernel
theorem test_assemble_word :
    assemble (.command .WRITE_SCRATCHPAD [0x7D, 0xC9, 0x3F]) = .ok [.word 0xA03FC97D#32] := by decide +kernel
/-- P4: `SEND_FUNCTION 0xBE`. -/
theorem test_assemble_send_function :
    assemble (.sendFunction [0xBE]) = .ok [.word 0x70000000#32, .word 0x400000BE#32] := by decide +kernel

/-! ## The vectors of 95_test_vectors.md, one command each -/

/-- V-P1, V-P2. -/
theorem test_resetBus_present :
    result (fun t => (t.present, t.err, t.wave, t.now)) (exec .resetBus (lined [false])) =
      some (true, .ok, [⟨false, 480⟩, ⟨true, 480⟩], 960) := by decide +kernel
theorem test_resetBus_absent :
    result (fun t => (t.present, t.err, t.sampled)) (exec .resetBus (lined [true])) =
      some (false, .ok, [⟨540, true⟩]) := by decide +kernel
/-- V-P3, V-P4. -/
theorem test_writeBit_one :
    result (fun t => (t.wave, t.now)) (exec (.writeBit true) (lined [])) =
      some ([⟨false, 60⟩, ⟨true, 1⟩], 61) := by decide +kernel
theorem test_writeBit_zero :
    result (fun t => (t.wave, t.now)) (exec (.writeBit false) (lined [])) =
      some ([⟨false, 1⟩, ⟨true, 60⟩], 61) := by decide +kernel
/-- V-P5, and "READ_BIT after READ_BYTE overwrites all 8 bits". -/
theorem test_readBit_high :
    result (fun t => (t.rxdata, t.wave, t.sampled)) (exec .readBit (lined [true])) =
      some (0x01#8, [⟨false, 60⟩, ⟨true, 1⟩], [⟨16, true⟩]) := by decide +kernel
theorem test_readBit_clears_the_rest :
    result (fun t => t.rxdata) (exec .readBit { lined [false] with rxdata := 0x91#8 }) = some 0x00#8 := by decide +kernel
/-- V-P7: low runs 0..0, 61..120, 122..122, 183..242, 244..244, 305..364, 366..366, 427..486. -/
theorem test_writeByte_55 :
    result (fun t => t.wave.reverse) (exec (.writeByte 0x55#8) (lined [])) =
      some [⟨true, 1⟩, ⟨false, 60⟩, ⟨true, 60⟩, ⟨false, 1⟩, ⟨true, 1⟩, ⟨false, 60⟩, ⟨true, 60⟩, ⟨false, 1⟩,
        ⟨true, 1⟩, ⟨false, 60⟩, ⟨true, 60⟩, ⟨false, 1⟩, ⟨true, 1⟩, ⟨false, 60⟩, ⟨true, 60⟩, ⟨false, 1⟩] := by
  decide +kernel
/-- V-P11, V-P14. -/
theorem test_readByte_91 :
    result (fun t => (t.rxdata, t.sampled.map SampleAt.tick))
      (exec .readByte (lined [true, false, false, false, true, false, false, true])) =
      some (0x91#8, [443, 382, 321, 260, 199, 138, 77, 16]) := by decide +kernel
theorem test_readByte_last_is_bit_7 :
    result (fun t => t.rxdata) (exec .readByte (lined [false, false, false, false, false, false, false, true])) =
      some 0x80#8 := by decide +kernel
/-- V-R1, V-R2. -/
theorem test_readRom_present :
    result (fun t => (hostRead t 0#4, hostRead t 2#4, hostRead t 3#4, t.rom, t.now))
      (exec .readRom (lined (false :: bitsOf romA))) =
      some (0x00000002#32, 0x1E64FF28#32, 0x3400000F#32, Vector.replicate 8 0x00#8, 5352) := by decide +kernel
theorem test_readRom_absent :
    result (fun t => (hostRead t 0#4, t.wave, t.now)) (exec .readRom (lined [true])) =
      some (0x00000100#32, [⟨false, 480⟩, ⟨true, 480⟩], 960) := by decide +kernel
/-- V-R5, V-R6. -/
theorem test_matchRom_frame :
    result (fun t => (t.present, t.err, t.wave)) (exec .matchRom (cached [false])) =
      some (true, .ok, sentAfterReset (0x55#8 :: romA)) := by decide +kernel
theorem test_matchRom_from_reset :
    result (fun t => (t.present, t.err, t.wave)) (exec .matchRom (lined [true])) =
      some (false, .ok, sentAfterReset (0x55#8 :: List.replicate 8 0x00#8)) := by decide +kernel
/-- S4, and V-X3: a failed INIT leaves the bytes of `ROM` and clears `ROM_VALID`. -/
theorem test_init_ok :
    result (fun t => (hostRead t 0#4, t.rom.toList, t.rbuf.toList)) (exec .init (lined (false :: bitsOf romA))) =
      some (0x00000006#32, romA, romA) := by decide +kernel
theorem test_init_mismatch :
    result (fun t => (hostRead t 0#4, t.rom.toList, t.rbuf.toList)) (exec .init (cached (false :: bitsOf romB))) =
      some (0x00000202#32, romA, romB) := by decide +kernel
/-- V-S5. -/
theorem test_startConversion :
    result (fun t => (t.present, t.err, t.now, t.wave)) (exec .startConversion (cached [false])) =
      some (true, .ok, 5840, sentAfterReset (0x55#8 :: romA ++ [0x44#8])) := by decide +kernel
/-- V-S3, V-S4: the configuration byte goes out normalised. -/
theorem test_writeScratchpad :
    result (fun t => (t.present, t.now, t.wave)) (exec (.writeScratchpad 0x4B#8 0x46#8 0x00#8) (cached [false])) =
      some (true, 7304, sentAfterReset (0x55#8 :: romA ++ [0x4E#8, 0x4B#8, 0x46#8, 0x1F#8])) := by decide +kernel
theorem test_writeScratchpad_ff :
    result (fun t => (t.scr, t.wave)) (exec (.writeScratchpad 0x7D#8 0xC9#8 0xFF#8) (cached [false])) =
      some (Vector.replicate 9 0x00#8, sentAfterReset (0x55#8 :: romA ++ [0x4E#8, 0x7D#8, 0xC9#8, 0x7F#8])) := by
  decide +kernel
/-- V-S6. -/
theorem test_copyScratchpad :
    result (fun t => (t.err, t.now, t.wave)) (exec .copyScratchpad (cached [false])) =
      some (.ok, 5840, sentAfterReset (0x55#8 :: romA ++ [0x48#8])) := by decide +kernel
/-- V-S7, V-S10. -/
theorem test_readScratchpad :
    result (fun t => (t.scr.toList, hostRead t 6#4, hostRead t 7#4, hostRead t 8#4, t.tempValid, t.now))
      (exec .readScratchpad (cached (false :: bitsOf spA))) =
      some (spA, 0x464B0191#32, 0x100FFF7F#32, 0x00000025#32, false, 10232) := by decide +kernel
theorem test_readScratchpad_stuck_low :
    result (fun t => (t.present, t.scr, t.err)) (exec .readScratchpad (lined (List.replicate 73 false))) =
      some (true, Vector.replicate 9 0x00#8, .ok) := by decide +kernel
/-- V-S8, V-S9. -/
theorem test_readTemperature :
    result (fun t => (t.temp, hostRead t 0#4)) (exec .readTemperature (cached (false :: bitsOf spA))) =
      some (0x4039100000000000#64, 0x0000001E#32) := by decide +kernel
theorem test_readTemperature_empty_bus :
    result (fun t => (t.temp, hostRead t 0#4, t.scr)) (exec .readTemperature (lined (List.replicate 73 true))) =
      some (0x405FFC0000000000#64, 0x00000018#32, Vector.replicate 9 0xFF#8) := by decide +kernel

/-! ## The decoder (V-D5 to V-D18) and the configuration byte (V-S2) -/

theorem test_decodeTemp_unsigned :
    decodeTemp false 0xF0#8 0x00#8 = 0x402E000000000000#64 ∧ decodeTemp false 0x00#8 0x04#8 = 0x4050000000000000#64 ∧
    decodeTemp false 0x91#8 0x01#8 = 0x4039100000000000#64 ∧ decodeTemp false 0xF8#8 0xFF#8 = 0x405FE00000000000#64 ∧
    decodeTemp false 0x00#8 0x08#8 = 0x0000000000000000#64 ∧ decodeTemp false 0x9F#8 0x01#8 = 0x4039F00000000000#64 := by
  decide +kernel
theorem test_decodeTemp_signed :
    decodeTemp true 0xF8#8 0xFF#8 = 0xBFE0000000000000#64 ∧ decodeTemp true 0x90#8 0xFC#8 = 0xC04B800000000000#64 ∧
    decodeTemp true 0xFF#8 0xFF#8 = 0xBFB0000000000000#64 ∧ decodeTemp true 0x00#8 0x08#8 = 0xC060000000000000#64 ∧
    decodeTemp true 0x91#8 0xF1#8 = 0x4039100000000000#64 := by decide +kernel
theorem test_normConfig :
    [0x00#8, 0x20#8, 0x40#8, 0x60#8, 0x80#8, 0x9F#8, 0xA5#8, 0x5A#8, 0xE0#8, 0xFF#8].map normConfig =
      [0x1F#8, 0x3F#8, 0x5F#8, 0x7F#8, 0x1F#8, 0x1F#8, 0x3F#8, 0x5F#8, 0x7F#8, 0x7F#8] := by decide

/-! ## Steps -/

/-- V-H1 with V-H9's `CMDR`: the first step after reset runs the word the host presents. -/
theorem test_step_runs_the_word :
    result (fun t => (t.cmdr, t.busy, t.err, t.wave.reverse, t.now)) (step (State.reset.withFetchWord 32 0x20000001)) =
      some (0x20000001#32, false, .ok, [⟨false, 1⟩, ⟨true, 1⟩, ⟨false, 60⟩], 62) := by decide +kernel
/-- V-X5: an illegal word. -/
theorem test_step_illegal_word :
    result (fun t => (t.cmdr, t.err, t.busy, t.owOe, t.now)) (step (State.reset.withFetchWord 32 0xE0000000)) =
      some (0xE0000000#32, .illegalCmd, false, false, 1) := by decide +kernel
/-- V-H8: a word presented while `rst` is 1. -/
theorem test_step_word_during_rst :
    result (fun t => (t.cmdr, t.busy)) (step { State.reset with inputs := [⟨true, true, 0x20000001#32, 0#4⟩] }) =
      some (0x00000000#32, false) := by decide +kernel
/-- V-H1, the tick after acceptance: `ow_oe(2) = 1`, `BUSY(2) = 1`, `CMDR(2)` = 0x20000001. -/
theorem test_tick_starts_the_operation :
    let t := (State.reset.presentWord 0x20000001#32).tick
    (t.owOe, t.busy, t.cmdr, t.seq) = (true, true, 0x20000001#32, .wLow) := by decide +kernel
/-- The sequencer reaches V-P4's completion tick. -/
theorem test_ticks_writeBit :
    let t := ticks 62 (State.reset.presentWord 0x20000000#32)
    (t.busy, t.err, t.wave) = (false, .ok, [⟨false, 1⟩, ⟨true, 60⟩, ⟨false, 1⟩]) := by decide +kernel

/-! ## Witnesses: states and operands that meet the hypotheses of each obligation -/

/-- The reset state with a word presented and levels on the line. -/
def presented (w : Word) (l : List Bool) : State := (lined l).presentWord w

/-- A word accepted in this tick, and a `rst` three ticks later. -/
def cutShort (w : Word) : State :=
  { State.reset with
    inputs := [⟨false, true, w, 0#4⟩, PortIn.silent, PortIn.silent, ⟨true, false, 0#32, 0#4⟩] }

/-- V-H6 on a write slot: the line is driven up to the tick of the `rst`, and the state after it is the reset state. -/
theorem test_rst_cuts_a_slot_short :
    ((ticks 3 (cutShort 0x20000000#32)).owOe, (ticks 3 (cutShort 0x20000000#32)).busy) = (true, true) ∧
    ((ticks 4 (cutShort 0x20000000#32)).owOe, (ticks 4 (cutShort 0x20000000#32)).busy,
      (ticks 4 (cutShort 0x20000000#32)).cmdr) = (false, false, 0x00000000#32) := by decide +kernel

/-- A running WRITE_BIT 1, one tick before its end, the host silent. -/
def lastTick : State :=
  { State.reset with
    busy := true, cmdr := 0x20000001#32, seq := .wRec
    hid := { Hidden.atReset with step := .sData, shr := 0x01#8 } }

/-- A running INIT with `ROM_A` received, one tick before its end. -/
def initLastTick : State :=
  { State.reset with
    busy := true, cmdr := 0x80000000#32, seq := .rPad
    hid := {
      step := .sRomData, tmr := 0, byteI := 7, bitI := 7, shr := 0x34#8, presT := true
      stg := #v[0x28#8, 0xFF#8, 0x64#8, 0x1E#8, 0x0F#8, 0x00#8, 0x00#8, 0x00#8, 0x00#8] } }

theorem witness_EncodeOfDecodeKeepsUsedBits : decode 0x40ABCD91#32 = .ok (.writeByte 0x91#8) := by decide
/-- The least and the greatest opcode. -/
theorem witness_CommandSelectedByTopByte :
    (1 ≤ (0x1#4).toNat ∧ (0x1#4).toNat ≤ 13) ∧ (1 ≤ (0xD#4).toNat ∧ (0xD#4).toNat ≤ 13) := by decide
/-- One word for each of the three clauses. -/
theorem witness_OperandsComeFromTheirFields :
    decode 0x20FFFFFF#32 = .ok (.writeBit true) ∧ decode 0x40ABCD91#32 = .ok (.writeByte 0x91#8) ∧
    decode 0xA03FC97D#32 = .ok (.writeScratchpad 0x7D#8 0xC9#8 0x3F#8) := by decide
theorem witness_StepRunsTheAcceptedCommand :
    ∃ (s t : State) (p : PortIn) (rest : List PortIn) (i : Instr),
      s.inputs = p :: rest ∧ p.rst = false ∧ p.cmdValid = true ∧ s.busy = false ∧ decode p.cmdWord = .ok i ∧
      exec i { s with
        cmdr := p.cmdWord, busy := true, now := s.now + 1, inputs := rest, wave := pushRun s.owOe 1 s.wave } = .next t ∧
      noRstWithin rest (t.now - (s.now + 1)) = true :=
  ⟨presented 0x20000001#32 [], _, ⟨false, true, 0x20000001#32, 0#4⟩, [], .writeBit true,
    rfl, rfl, rfl, rfl, by decide, rfl, rfl⟩
/-- A `rst` in the tick after acceptance. -/
theorem witness_InterruptedCommandGoesTickByTick :
    ∃ (s t : State) (i : Instr), s.acceptedCommand = some i ∧ exec i (s.accept s.port.cmdWord) = .next t ∧
      noRstWithin (s.inputs.drop 1) (t.now - (s.now + 1)) = false :=
  ⟨{ State.reset with inputs := [⟨false, true, 0x20000001#32, 0#4⟩, ⟨true, false, 0#32, 0#4⟩] }, _, .writeBit true,
    by decide, rfl, by decide +kernel⟩
/-- A word for each of the four ways to be illegal. -/
theorem witness_IllegalWordOnlySetsErr :
    (∃ (s : State) (p : PortIn) (rest : List PortIn),
      s.inputs = p :: rest ∧ p.rst = false ∧ p.cmdValid = true ∧ s.busy = false ∧ p.cmdWord.extractLsb' 28 4 = 0xE#4) ∧
    (0x00000000#32).extractLsb' 28 4 = 0x0#4 ∧ (0xF0000000#32).extractLsb' 28 4 = 0xF#4 ∧
    (0x11000000#32).extractLsb' 24 4 ≠ 0x0#4 :=
  ⟨⟨presented 0xE0000000#32 [], ⟨false, true, 0xE0000000#32, 0#4⟩, [], rfl, rfl, rfl, rfl, by decide⟩,
    by decide, by decide, by decide⟩
/-- A `rst` while a command runs. -/
theorem witness_RstGivesTheResetValues :
    ∃ s : State, s.port.rst = true ∧ s.busy = true :=
  ⟨{ lastTick with inputs := [⟨true, false, 0#32, 0#4⟩] }, rfl, rfl⟩
theorem witness_IdleTickOnlyPassesTime :
    State.reset.busy = false ∧ State.reset.port.rst = false ∧ State.reset.port.cmdValid = false := by decide
/-- Both alternatives. -/
theorem witness_DroppedWordHasNoEffect :
    (lastTick.busy = true ∧ (⟨false, true, 0x10000000#32, 0#4⟩ : PortIn).rst = (⟨false, false, 0#32, 0#4⟩ : PortIn).rst) ∧
    ((⟨true, true, 0x10000000#32, 0#4⟩ : PortIn).rst = true ∧
      (⟨true, true, 0x10000000#32, 0#4⟩ : PortIn).rst = (⟨true, false, 0#32, 0#4⟩ : PortIn).rst) := by decide
theorem witness_CommandIgnoresTheHostPorts : ∃ t, exec .resetBus (lined [false]) = .next t := ⟨_, rfl⟩
/-- The first clause at an acceptance, the second in the tick after it. -/
theorem witness_ReadsWhileBusyShowOldValues :
    (presented 0x10000000#32 [false]).acceptedCommand = some .resetBus ∧
    (presented 0x10000000#32 [false]).tick.busy = true ∧ (presented 0x10000000#32 [false]).tick.port.rst = false ∧
    (presented 0x10000000#32 [false]).tick.tick.busy = true := by decide +kernel
theorem witness_SequencerEqualsPseudocode :
    ∃ (s t : State) (i : Instr), s.acceptedCommand = some i ∧ exec i (s.accept s.port.cmdWord) = .next t ∧
      noRstWithin (s.inputs.drop 1) (t.now - (s.now + 1)) = true :=
  ⟨presented 0x20000001#32 [], _, .writeBit true, by decide, rfl, rfl⟩
/-- The first and the last tick it speaks of in a whole operation, and the last before a `rst` that cuts the operation. -/
theorem witness_BusyExactlyDuringTheOperation :
    (∃ (s t : State) (i : Instr), s.acceptedCommand = some i ∧ exec i (s.accept s.port.cmdWord) = .next t ∧
      1 < t.now - s.now ∧ noRstWithin (s.inputs.drop 1) (1 - 1) = true ∧
      61 < t.now - s.now ∧ noRstWithin (s.inputs.drop 1) (61 - 1) = true) ∧
    ∃ (s t : State) (i : Instr), s.acceptedCommand = some i ∧ exec i (s.accept s.port.cmdWord) = .next t ∧
      3 < t.now - s.now ∧ noRstWithin (s.inputs.drop 1) (3 - 1) = true ∧ noRstWithin (s.inputs.drop 1) 3 = false :=
  ⟨⟨presented 0x20000001#32 [], _, .writeBit true, by decide, rfl, by decide +kernel, rfl, by decide +kernel, rfl⟩,
    cutShort 0x20000000#32, _, .writeBit false, by decide, rfl, by decide +kernel, by decide, by decide⟩
/-- An acceptance of each of the three commands, at the ends of their slots, and one that a `rst` cuts short. -/
theorem witness_SlotsDriveThePinTickByTick :
    ((presented 0x20000000#32 []).acceptedCommand = some (.writeBit false) ∧
      noRstWithin ((presented 0x20000000#32 []).inputs.drop 1) 60 = true ∧ 60 < 61) ∧
    ((presented 0x30000000#32 []).acceptedCommand = some .readBit ∧
      noRstWithin ((presented 0x30000000#32 []).inputs.drop 1) 60 = true ∧ 60 < 61) ∧
    ((presented 0x10000000#32 []).acceptedCommand = some .resetBus ∧
      noRstWithin ((presented 0x10000000#32 []).inputs.drop 1) 959 = true ∧ 959 < 960) ∧
    ((cutShort 0x20000000#32).acceptedCommand = some (.writeBit false) ∧
      noRstWithin ((cutShort 0x20000000#32).inputs.drop 1) 2 = true ∧ 2 < 61) := by decide +kernel
/-- Also for the last clause of ReadByteStoresEightSamples. -/
theorem witness_EchoedByteComesBack : (lined (lsbFirst 0xA5#8)).lineIn.take 8 = lsbFirst 0xA5#8 := by decide
/-- A bus without a device, and one with. -/
theorem witness_ReadRomReadsTheCode : (lined [true]).levelAt 0 540 = true ∧ (lined [false]).levelAt 0 540 = false := by
  decide
/-- No device; another family; the expected family. -/
theorem witness_InitCachesTheRomCode :
    (cached [true]).levelAt 0 540 = true ∧
    ((lined (false :: bitsOf romB)).levelAt 0 540 = false ∧
      (lined (false :: bitsOf romB)).byteIn 1 1448 ≠ (lined (false :: bitsOf romB)).cfg.familyCode) ∧
    ((lined (false :: bitsOf romA)).levelAt 0 540 = false ∧
      (lined (false :: bitsOf romA)).byteIn 1 1448 = (lined (false :: bitsOf romA)).cfg.familyCode) := by decide +kernel
/-- For the encoding clause of each command, a word whose ignored bits are all 1. -/
theorem witness_commandWords :
    0x10FFFFFF#32 &&& 0xFF000000#32 = 0x10000000#32 ∧ 0x20FFFFFF#32 &&& 0xFF000000#32 = 0x20000000#32 ∧
    0x30FFFFFF#32 &&& 0xFF000000#32 = 0x30000000#32 ∧ 0x40FFFFFF#32 &&& 0xFF000000#32 = 0x40000000#32 ∧
    0x50FFFFFF#32 &&& 0xFF000000#32 = 0x50000000#32 ∧ 0x60FFFFFF#32 &&& 0xFF000000#32 = 0x60000000#32 ∧
    0x70FFFFFF#32 &&& 0xFF000000#32 = 0x70000000#32 ∧ 0x80FFFFFF#32 &&& 0xFF000000#32 = 0x80000000#32 ∧
    0x90FFFFFF#32 &&& 0xFF000000#32 = 0x90000000#32 ∧ 0xA0FFFFFF#32 &&& 0xFF000000#32 = 0xA0000000#32 ∧
    0xB0FFFFFF#32 &&& 0xFF000000#32 = 0xB0000000#32 ∧ 0xC0FFFFFF#32 &&& 0xFF000000#32 = 0xC0000000#32 ∧
    0xD0FFFFFF#32 &&& 0xFF000000#32 = 0xD0000000#32 := by decide
/-- A READ_ROM and an INIT that raise it, and a RESET_BUS on the same bus that does not. -/
theorem witness_NoDeviceRaisedByReadRomAndInit :
    (∃ t, exec .readRom (lined [true]) = .next t ∧ t.err = .noDevice) ∧
    (∃ t, exec .init (lined [true]) = .next t ∧ t.err = .noDevice) ∧
    ∃ t, exec .resetBus (lined [true]) = .next t ∧ t.err ≠ .noDevice :=
  ⟨⟨_, rfl, by decide +kernel⟩, ⟨_, rfl, by decide +kernel⟩, ⟨_, rfl, by decide +kernel⟩⟩
/-- An INIT that raises it, and a READ_ROM of the same device that does not. -/
theorem witness_DeviceMismatchRaisedByInit :
    (∃ t, exec .init (lined (false :: bitsOf romB)) = .next t ∧ t.err = .deviceMismatch) ∧
    ∃ t, exec .readRom (lined (false :: bitsOf romB)) = .next t ∧ t.err ≠ .deviceMismatch :=
  ⟨⟨_, rfl, by decide +kernel⟩, ⟨_, rfl, by decide +kernel⟩⟩
theorem witness_ReadScratchpadIsIdempotent :
    ∃ levels rest : List Bool, levels.length = 73 ∧
      (lined ((false :: bitsOf spA) ++ ((false :: bitsOf spA) ++ []))).lineIn = levels ++ (levels ++ rest) :=
  ⟨false :: bitsOf spA, [], by decide, rfl⟩
/-- The clauses of the writers' table, each on a command it speaks of. -/
theorem witness_WritersTable :
    (∃ t, exec .readRom (lined [true]) = .next t ∧ t.present = false) ∧
    (∃ t, exec .init (cached [true]) = .next t ∧ t.err ≠ .ok) ∧
    (∃ t, exec .readScratchpad (lined [true]) = .next t) ∧ (∃ t, exec .readTemperature (lined [true]) = .next t) ∧
    (∃ t, exec (.writeBit true) (lined []) = .next t) := by
  refine ⟨⟨_, rfl, by decide +kernel⟩, ⟨_, rfl, by decide +kernel⟩, ⟨_, rfl⟩, ⟨_, rfl⟩, ⟨_, rfl⟩⟩
theorem witness_FlagsGateNothing : ∃ t, exec .matchRom (lined [true]) = .next t := ⟨_, rfl⟩
/-- A tick that ends an INIT, and a step that is a whole INIT: both change `ROM`. -/
theorem witness_OnlyInitChangesRom :
    (∃ t, step initLastTick = .next t ∧ t.rom ≠ initLastTick.rom) ∧
    ∃ t, step (presented 0x80000000#32 (false :: bitsOf romA)) = .next t ∧
      t.rom ≠ (presented 0x80000000#32 (false :: bitsOf romA)).rom := by
  refine ⟨⟨_, rfl, by decide +kernel⟩, ⟨_, rfl, by decide +kernel⟩⟩
/-- Both clauses. -/
theorem witness_ValidFlagsClearedOnlyByReset :
    ∃ s t : State, step s = .next t ∧ s.port.rst = false ∧ s.scrValid = true ∧ s.tempValid = true :=
  ⟨{ presented 0x60000000#32 [true] with scrValid := true, tempValid := true }, _, rfl, rfl, rfl, rfl⟩
theorem witness_OnlyResetSlotsChangePresent :
    ∃ s t : State, step s = .next t ∧ t.present ≠ s.present :=
  ⟨presented 0x10000000#32 [false], _, rfl, by decide +kernel⟩
theorem witness_StepKeepsStatusInvariant :
    ∃ s t : State, s.statusInv = true ∧ step s = .next t ∧ s.romValid = true :=
  ⟨{ cached [false] with inputs := [⟨false, true, 0xD0000000#32, 0#4⟩] }, _, by decide +kernel, rfl, rfl⟩
theorem witness_StepKeepsPinInvariant : ∃ s t : State, s.pinInv = true ∧ step s = .next t ∧ s.busy = true :=
  ⟨(presented 0x10000000#32 [false]).tick, _, by decide +kernel, rfl, by decide +kernel⟩
theorem witness_LineReleasedWhenIdle :
    ∃ s t : State, s.pinInv = true ∧ step s = .next t ∧ t.busy = false ∧ s.busy = true :=
  ⟨lastTick, _, by decide +kernel, rfl, by decide +kernel, rfl⟩
theorem witness_StepKeepsTheRecord : ∃ s t : State, s.recordInv = true ∧ step s = .next t ∧ s.now = 1 :=
  ⟨(presented 0x10000000#32 [false]).tick, _, by decide +kernel, rfl, by decide +kernel⟩
/-- The least and the greatest magnitude. -/
theorem witness_PackEncodesTheValue : (1 ≤ 1 ∧ 1 ≤ 2048) ∧ (1 ≤ 2048 ∧ 2048 ≤ 2048) := by decide
/-- The greatest high byte without a sign bit. -/
theorem witness_SignedDecodeValue : (0x07#8).toNat < 8 := by decide
/-- The greatest operands in range, an operand and a count out of range, and the first and the last mnemonic without operands. -/
theorem witness_AssemblerTakesTheWellFormed :
    (1 < 2 ∧ 255 < 256) ∧ (SourceLine.command .WRITE_BIT [2]).wellFormed = false ∧
    (SourceLine.sendFunction [256]).wellFormed = false ∧ (SourceLine.wait [1, 2]).wellFormed = false ∧
    assemble (.command .RESET_BUS []) = .ok [.word 0x10000000#32] ∧
    assemble (.command .READ_TEMPERATURE []) = .ok [.word 0xD0000000#32] ∧
    assemble (.command .WRITE_BIT [1]) = .ok [.word 0x20000001#32] ∧
    assemble (.wait [100000]) = .ok [.wait 100000] := by decide +kernel
/-- The least and the greatest reserved index. -/
theorem witness_ReadPortMap : 12 ≤ (12#4).toNat ∧ 12 ≤ (15#4).toNat := by decide

end Sys2Proof.Tests
end

section
/-! The record of `ow_oe` (log entry 7): the record invariant looks at the record and the tick number only, every tick moves the
two as a delay of one tick does, and a whole command moves them by its waveform. -/

namespace Sys2Proof.Machine

/-! The record invariant. -/

theorem State.recordInv_iff (s : State) :
    s.recordInv = true ↔ runsAlternate s.wave = true ∧ runTicks s.wave = s.now := by
  simp [State.recordInv]

theorem State.recordInv_congr {s t : State} (hw : t.wave = s.wave) (hn : t.now = s.now) : t.recordInv = s.recordInv := by
  simp only [State.recordInv, hw, hn]

/-- Time that passes at one level of the pin is accounted for (R9, R24). -/
theorem State.recordInv_delay {s : State} (n : Nat) (h : s.recordInv = true) : (s.delay n).recordInv = true := by
  obtain ⟨ha, ht⟩ := s.recordInv_iff.mp h
  refine (s.delay n).recordInv_iff.mpr ⟨runsAlternate_pushRun s.owOe n ha, ?_⟩
  rw [State.delay_wave, runTicks_pushRun, ht, State.delay_now, Nat.add_comm]

/-- A waveform is accounted for (R142). -/
theorem State.recordInv_afterLine {s : State} (gs : List (Bool × Nat)) (offs : List Nat) (h : s.recordInv = true) :
    (s.afterLine gs offs).recordInv = true := by
  obtain ⟨ha, ht⟩ := s.recordInv_iff.mp h
  refine (s.afterLine gs offs).recordInv_iff.mpr ⟨runsAlternate_addSegs gs ha, ?_⟩
  rw [State.afterLine_wave, runTicks_addSegs, ht, State.afterLine_now, Nat.add_comm]

/-- A commit takes no time (10_state.md R27). -/
theorem recordInv_commitOf (i : Instr) (x : State) : (commitOf i x).recordInv = x.recordInv := by
  obtain ⟨-, -, -, -, -, -, -, -, hn, hw, -⟩ := commitOf_frame i x
  exact State.recordInv_congr hw hn

/-! Time in a tick. -/

/-- `t` has the record of the pin, the tick number and the coming inputs of `s`. -/
def State.SameTime (s t : State) : Prop := t.wave = s.wave ∧ t.now = s.now ∧ t.inputs = s.inputs

theorem State.SameTime.trans {s t u : State} (h : s.SameTime t) (h' : t.SameTime u) : s.SameTime u := by
  obtain ⟨hw, hn, hi⟩ := h
  obtain ⟨hw', hn', hi'⟩ := h'
  exact ⟨hw'.trans hw, hn'.trans hn, hi'.trans hi⟩

theorem State.sameTime_of_visible {s t : State} (h : t.visible = s.visible) : s.SameTime t :=
  have hw : t.visible.wave = s.visible.wave := congrArg State.wave h
  have hn : t.visible.now = s.visible.now := congrArg State.now h
  have hi : t.visible.inputs = s.visible.inputs := congrArg State.inputs h
  ⟨hw, hn, hi⟩

theorem State.sameTime_commitOf (i : Instr) (x : State) : x.SameTime (commitOf i x) := by
  obtain ⟨-, -, -, -, -, -, hi, -, hn, hw, -⟩ := commitOf_frame i x
  exact ⟨hw, hn, hi⟩

theorem State.sameTime_busyTick (s : State) : (s.delay 1).SameTime s.busyTick := by
  obtain ⟨x, hv, h⟩ := s.busyTick_cases
  have hx : (s.delay 1).SameTime x := State.sameTime_of_visible hv
  rcases h with ⟨h, -⟩ | ⟨h, -⟩ | ⟨i, -, h⟩ | h <;> rw [h]
  · exact hx
  · exact hx
  · exact hx.trans (State.sameTime_commitOf i x)
  · exact hx.trans ⟨rfl, rfl, rfl⟩

/-- A tick of any kind takes the time of `Delay(1)`, with the pin at the level it has before the tick (R5, R24). -/
theorem State.sameTime_tick (s : State) : (s.delay 1).SameTime s.tick := by
  rcases s.tick_cases with ⟨-, h⟩ | ⟨-, -, h⟩ | ⟨-, -, -, h⟩ | ⟨-, -, -, ⟨i, -, h⟩ | ⟨e, -, h⟩⟩ <;> rw [h]
  · exact ⟨rfl, rfl, rfl⟩
  · exact s.sameTime_busyTick
  · exact ⟨rfl, rfl, rfl⟩
  · obtain ⟨x, hv, hx, -⟩ := s.start_cases i s.port.cmdWord
    have ha : (s.delay 1).SameTime (s.accept s.port.cmdWord) := ⟨rfl, rfl, rfl⟩
    rw [hx]
    exact ha.trans (State.sameTime_of_visible hv)
  · exact ⟨rfl, rfl, rfl⟩

/-! The two kinds of step. -/

theorem State.recordInv_tick {s : State} (h : s.recordInv = true) : s.tick.recordInv = true := by
  obtain ⟨hw, hn, -⟩ := s.sameTime_tick
  rw [State.recordInv_congr hw hn]
  exact State.recordInv_delay 1 h

theorem recordInv_exec {i : Instr} {s t : State} (h : s.recordInv = true) (he : exec i s = .next t) :
    t.recordInv = true := by
  rw [exec_eq_commitOf] at he
  rw [← Host.Outcome.next.inj he, recordInv_commitOf]
  obtain ⟨gs, offs, hid, hb, -, -⟩ := bodyOf_line i s
  rw [hb]
  exact State.recordInv_afterLine gs offs h

/-- Settles O46: a step is a tick, which adds one tick to the record, or a whole command, which adds the acceptance tick and its
waveform. -/
theorem stepKeepsTheRecord : Obligations.StepKeepsTheRecord := by
  intro s t h hst
  rcases step_cases hst with rfl | ⟨i, -, he, -⟩
  · exact State.recordInv_tick h
  · exact recordInv_exec (s := s.accept s.port.cmdWord) (State.recordInv_delay 1 h) he

end Sys2Proof.Machine
end

section
/-! The registers of the block in a step (10_state.md R27, R28): a step leaves them as they are, gives them the reset values, sets
`ERR` to 3, or makes the commit of one command. What the registers keep in every step follows from this and from what a commit
writes. -/

namespace Sys2Proof.Machine

/-! The registers. -/

/-- The registers that only a commit, an illegal word or a `rst` writes (R12 to R21) with the parameters, all else blotted out. -/
def State.registers (s : State) : State :=
  { s.visible with busy := false, cmdr := 0#32, inputs := [], now := 0, wave := [] }

@[simp] theorem State.registers_delay (n : Nat) (s : State) : (s.delay n).registers = s.registers := rfl
@[simp] theorem State.registers_accept (w : Word) (s : State) : (s.accept w).registers = s.registers := rfl
@[simp] theorem State.registers_strayEnd (s : State) : s.strayEnd.registers = s.registers := rfl

theorem State.registers_of_visible {s x : State} (h : x.visible = s.visible) : x.registers = s.registers :=
  show x.visible.registers = s.visible.registers from congrArg State.registers h

/-- What it is to have the same registers. -/
theorem State.fields_of_registers {s t : State} (h : t.registers = s.registers) :
    t.cfg = s.cfg ∧ t.present = s.present ∧ t.romValid = s.romValid ∧ t.scrValid = s.scrValid ∧
    t.tempValid = s.tempValid ∧ t.err = s.err ∧ t.rxdata = s.rxdata ∧ t.rbuf = s.rbuf ∧ t.rom = s.rom ∧
    t.scr = s.scr ∧ t.temp = s.temp := by
  simpa [State.registers, State.visible] using h

/-- The status invariant is about the registers alone. -/
theorem State.statusInv_congr {s t : State} (h : t.registers = s.registers) : t.statusInv = s.statusInv :=
  show t.registers.statusInv = s.registers.statusInv from congrArg State.statusInv h

/-- A whole command is a commit, after its waveform has left the registers alone (R27, R52). -/
theorem exec_commits {i : Instr} {s t : State} (h : exec i s = .next t) :
    ∃ x, t = commitOf i x ∧ x.registers = s.registers ∧ x.cmdr = s.cmdr ∧
      x.now = s.now + duration (!s.levelAt 0 540) i ∧
      (hasResetSlot i = true → x.hid.presT = !s.levelAt 0 540) := by
  obtain ⟨gs, offs, hid, hb, hn, hp⟩ := bodyOf_line i s
  rw [exec_eq_commitOf, hb] at h
  refine ⟨_, (Host.Outcome.next.inj h).symm, rfl, rfl, congrArg (s.now + ·) hn, fun hi => hp _ (if_pos hi)⟩

/-! A step. -/

/-- What a step from `s` can do to the registers. -/
inductive State.RegisterStep (s : State) : State → Prop
  /-- `rst` (R28). -/
  | reset (h : s.port.rst = true) : s.RegisterStep s.resetTick
  /-- Time passes, an operation starts or goes on (R42, R49), or a walk that no run reaches ends (log entry 8). -/
  | unchanged {t : State} (h : t.registers = s.registers) : s.RegisterStep t
  /-- An illegal word is accepted (R114). -/
  | illegal (w : Word) : s.RegisterStep (s.acceptIllegal w)
  /-- The accepted or running command completes (R27). -/
  | commit {i : Instr} {x : State} (hi : s.acceptedCommand = some i ∨ s.runningCommand = some i)
      (hx : x.registers = s.registers) : s.RegisterStep (commitOf i x)

theorem State.runningCommand_of_decode {s : State} {i : Instr} (hb : s.busy = true) (hd : decode s.cmdr = .ok i) :
    s.runningCommand = some i := by
  rw [State.runningCommand, if_pos hb, hd]
  rfl

theorem State.registerStep_busyTick {s : State} (hb : s.busy = true) : s.RegisterStep s.busyTick := by
  obtain ⟨x, hv, h⟩ := s.busyTick_cases
  have hx : x.registers = s.registers := (State.registers_of_visible hv).trans (State.registers_delay 1 s)
  rcases h with ⟨h, -⟩ | ⟨h, -⟩ | ⟨i, hd, h⟩ | h <;> rw [h]
  · exact .unchanged hx
  · exact .unchanged hx
  · exact .commit (.inr (State.runningCommand_of_decode hb hd)) hx
  · exact .unchanged hx

theorem State.registerStep_tick (s : State) : s.RegisterStep s.tick := by
  rcases s.tick_cases with ⟨hr, h⟩ | ⟨-, hb, h⟩ | ⟨-, -, -, h⟩ | ⟨-, -, -, ⟨i, -, h⟩ | ⟨e, -, h⟩⟩ <;> rw [h]
  · exact .reset hr
  · exact State.registerStep_busyTick hb
  · exact .unchanged rfl
  · obtain ⟨x, hv, hx, -⟩ := s.start_cases i s.port.cmdWord
    rw [hx]
    exact .unchanged ((State.registers_of_visible hv).trans (State.registers_accept s.port.cmdWord s))
  · exact .illegal s.port.cmdWord

/-- Every step is one of the four. -/
theorem registerStep_of_step {s t : State} (h : step s = .next t) : s.RegisterStep t := by
  rcases step_cases h with rfl | ⟨i, hi, he, -⟩
  · exact s.registerStep_tick
  · obtain ⟨x, rfl, hx, -⟩ := exec_commits he
    exact .commit (.inl hi) hx

/-! The status invariant. -/

theorem plainDouble_pack (sg : Bool) {m : Nat} (hm : m ≤ 2048) : plainDouble (pack sg m) = true := by
  by_cases h0 : m = 0
  · simp [plainDouble, pack, h0]
  · have hp := log2_magnitude h0 hm
    have he := doubleExponent_pack sg h0 hm
    have hlo : 0 < doubleExponent (pack sg m) := by omega
    have hhi : doubleExponent (pack sg m) < 2047 := by omega
    simp [plainDouble, hlo, hhi]

/-- A decoded temperature is packed from a magnitude of at most 2048 (R93, R94), so it is a plain number (R96). -/
theorem plainDouble_decodeTemp (signed : Bool) (lo hi : Byte) : plainDouble (decodeTemp signed lo hi) = true := by
  cases signed with
  | false => exact plainDouble_pack false (n11_le lo hi)
  | true =>
    have hs := n12_sign lo hi
    show plainDouble (if (n12 lo hi).getLsbD 11 then _ else _) = true
    split
    next h =>
      have := of_decide_eq_true (hs.symm.trans h)
      exact plainDouble_pack true (by omega)
    next h =>
      have := of_decide_eq_false (hs.symm.trans (eq_false_of_ne_true h))
      exact plainDouble_pack false (by omega)

theorem State.statusInv_iff (s : State) :
    s.statusInv = true ↔
      (s.romValid = true → s.rom[0] = s.cfg.familyCode) ∧
      (s.err = .noDevice → s.present = false) ∧
      (s.err = .deviceMismatch → s.present = true ∧ s.romValid = false) ∧
      (s.tempValid = true → s.scrValid = true) ∧
      plainDouble s.temp = true := by
  simp only [State.statusInv, Bool.and_eq_true, Bool.or_eq_true, Bool.not_eq_true', bne_iff_ne, beq_iff_eq, and_assoc,
    ← Bool.not_eq_true, ne_eq, ← imp_iff_not_or]

theorem State.statusInv_resetTick (s : State) : s.resetTick.statusInv = true := rfl

theorem State.statusInv_acceptIllegal {s : State} (w : Word) (h : s.statusInv = true) :
    (s.acceptIllegal w).statusInv = true := by
  obtain ⟨hrom, -, -, htemp, hplain⟩ := s.statusInv_iff.mp h
  exact (s.acceptIllegal w).statusInv_iff.mpr ⟨hrom, nofun, nofun, htemp, hplain⟩

/-- READ_ROM and INIT are the commands that an absent device ends (R140). -/
theorem endsWhenAbsent_iff (i : Instr) : endsWhenAbsent i = true ↔ i = .readRom ∨ i = .init := by
  cases i <;> simp [endsWhenAbsent]

theorem hasResetSlot_of_endsWhenAbsent {i : Instr} (h : endsWhenAbsent i = true) : hasResetSlot i = true := by
  rcases (endsWhenAbsent_iff i).mp h with rfl | rfl <;> rfl

/-- `NO_DEVICE` is the error of an empty bus (R111). -/
theorem present_of_commitOf_noDevice {i : Instr} {x : State} (h : (commitOf i x).err = .noDevice) :
    (commitOf i x).present = false := by
  obtain ⟨hp, -, -, -, he⟩ := commitOf_status i x
  rw [he] at h
  split at h
  · cases h
  next ha =>
    rw [hp, if_pos (hasResetSlot_of_endsWhenAbsent (by simpa using ha))]
    split at h
    next hn => simpa using hn
    next => split at h <;> cases h

/-- `DEVICE_MISMATCH` is the error of an INIT that found another device (R113). -/
theorem flags_of_commitOf_deviceMismatch {i : Instr} {x : State} (h : (commitOf i x).err = .deviceMismatch) :
    (commitOf i x).present = true ∧ (commitOf i x).romValid = false := by
  obtain ⟨hp, hrv, -, -, he⟩ := commitOf_status i x
  rw [he] at h
  split at h
  · cases h
  · split at h
    · cases h
    next hpres =>
      split at h
      next hc =>
        obtain ⟨rfl, hf⟩ := hc
        simpa [hp, hrv, hasResetSlot, hf] using hpres
      next => cases h

/-- A commit keeps the relations: `ERR` and `ROM_VALID` are written together with what they speak of (R80, R110), and `TEMP_VALID`
together with `SCR_VALID` and a decoded `TEMP` (R87). -/
theorem statusInv_commitOf (i : Instr) {x : State} (h : x.statusInv = true) : (commitOf i x).statusInv = true := by
  obtain ⟨hrom, -, -, htemp, hplain⟩ := x.statusInv_iff.mp h
  obtain ⟨-, hrv, hsv, htv, -⟩ := commitOf_status i x
  obtain ⟨-, -, -, -, ht⟩ := commitOf_data i x
  obtain ⟨-, -, -, -, hc, -⟩ := commitOf_frame i x
  refine (commitOf i x).statusInv_iff.mpr ⟨?_, ?_, ?_, ?_, ?_⟩
  · rw [hrv, commitOf_familyCode, hc]
    by_cases hi : i = .init
    · simp +contextual [hi]
    · simpa [hi] using hrom
  · exact present_of_commitOf_noDevice
  · exact flags_of_commitOf_deviceMismatch
  · rw [htv, hsv]
    by_cases hi : i = .readTemperature
    · simp [hi]
    · by_cases hs : i = .readScratchpad
      · simp [hs]
      · simpa [hi, hs] using htemp
  · rw [ht]
    split
    · exact plainDouble_decodeTemp ..
    · exact hplain

/-- Settles O43: none of the four kinds of step breaks a relation. -/
theorem stepKeepsStatusInvariant : Obligations.StepKeepsStatusInvariant := by
  intro s t h hst
  cases registerStep_of_step hst with
  | reset _ => exact s.statusInv_resetTick
  | unchanged hr => rwa [State.statusInv_congr hr]
  | illegal w => exact State.statusInv_acceptIllegal w h
  | commit _ hx => exact statusInv_commitOf _ (by rwa [State.statusInv_congr hx])

/-- Settles O40: of the four kinds of step only a commit writes `ROM`, and of the commits only that of an INIT that succeeds. -/
theorem onlyInitChangesRom : Obligations.OnlyInitChangesRom := by
  intro s t hst hne
  cases registerStep_of_step hst with
  | reset h => exact .inl h
  | unchanged h =>
    obtain ⟨-, -, -, -, -, -, -, -, hrom, -⟩ := State.fields_of_registers h
    exact absurd hrom hne
  | illegal w => exact absurd rfl hne
  | @commit i x hi hx =>
    obtain ⟨-, hrv, -, -, he⟩ := commitOf_status i x
    obtain ⟨-, hb, hr, -, -⟩ := commitOf_data i x
    rw [hr] at hne
    obtain ⟨-, -, -, -, -, -, -, -, hx', -⟩ := State.fields_of_registers hx
    by_cases hc : i = .init ∧ x.hid.presT = true ∧ x.hid.stg[0] = x.cfg.familyCode
    · obtain ⟨rfl, hp, hf⟩ := hc
      exact .inr ⟨hi, by simp [he, hp, hf], by simp [hrv, hp, hf], by simp [hb, hr, hp, hf, endsWhenAbsent]⟩
    · rw [if_neg hc] at hne
      exact absurd hx' hne

/-- Settles O41: no commit clears either flag. -/
theorem validFlagsClearedOnlyByReset : Obligations.ValidFlagsClearedOnlyByReset := by
  intro s t hst hrst
  cases registerStep_of_step hst with
  | reset h => exact absurd h (by simp [hrst])
  | unchanged h =>
    obtain ⟨-, -, -, hs, ht, -⟩ := State.fields_of_registers h
    exact ⟨hs.trans, ht.trans⟩
  | illegal w => exact ⟨id, id⟩
  | @commit i x _ hx =>
    obtain ⟨-, -, -, hs, ht, -⟩ := State.fields_of_registers hx
    obtain ⟨-, -, hsv, htv, -⟩ := commitOf_status i x
    rw [hsv, htv, hs, ht]
    exact ⟨fun h => by simp [h], fun h => by simp [h]⟩

/-- Settles O42: only a commit writes `PRESENT`, and only that of a command with a reset slot. -/
theorem onlyResetSlotsChangePresent : Obligations.OnlyResetSlotsChangePresent := by
  intro s t hst hne
  cases registerStep_of_step hst with
  | reset h => exact .inl h
  | unchanged h =>
    obtain ⟨-, hpres, -⟩ := State.fields_of_registers h
    exact absurd hpres hne
  | illegal w => exact absurd rfl hne
  | @commit i x hi hx =>
    obtain ⟨hb, -⟩ := commitOf_frame i x
    obtain ⟨hp, -⟩ := commitOf_status i x
    obtain ⟨-, hx', -⟩ := State.fields_of_registers hx
    refine .inr ⟨i, hi, ?_, hb⟩
    by_contra hn
    rw [hp, if_neg hn] at hne
    exact hne hx'

end Sys2Proof.Machine
end

section
/-! The pin and the sequencer (10_state.md R11, R24, 70_reset_and_hazards.md R140): between steps the block is idle with the line
released, or runs a legal command with the pin as the phase drives it. -/

namespace Sys2Proof.Machine

/-- The pin invariant has two cases: the block is idle, or a legal command is running. -/
theorem State.pinInv_iff (s : State) :
    s.pinInv = true ↔
      (s.busy = false ∧ s.seq = .idle ∧ s.owOe = false) ∨ (s.busy = true ∧ s.running ∧ ∃ i, decode s.cmdr = .ok i) := by
  have hlegal : (decode s.cmdr).toOption.isSome = true ↔ ∃ i, decode s.cmdr = .ok i := by
    cases decode s.cmdr <;> simp [Except.toOption]
  cases hb : s.busy with
  | false =>
    by_cases hq : s.seq = .idle <;> simp [State.pinInv, hb, hq, Phase.drives]
  | true => simp [State.pinInv, State.running, hb, hlegal, bne_iff_ne, and_assoc]

theorem State.pinInv_of_idle {s : State} (hb : s.busy = false) (hq : s.seq = .idle) (ho : s.owOe = false) :
    s.pinInv = true :=
  s.pinInv_iff.mpr (.inl ⟨hb, hq, ho⟩)

/-- A commit leaves the block idle and the line released (R49). -/
theorem pinInv_commitOf (i : Instr) (x : State) : (commitOf i x).pinInv = true := by
  obtain ⟨hb, hq, ho, -⟩ := commitOf_frame i x
  exact State.pinInv_of_idle hb hq ho

/-- Within a phase the pin stays as the phase drives it: the one register that moves is `SHR` in `R_PAD`, where the line is
released whatever `SHR` holds. -/
theorem State.running_of_same_phase {s x : State} (h : s.running) (hq : x.seq = s.seq) (ho : x.owOe = s.owOe)
    (hbit : x.hid.bitI = s.hid.bitI) (hshr : x.hid.shr = s.hid.shr ∨ s.seq = .rPad) : x.running := by
  obtain ⟨hi, hd⟩ := h
  refine ⟨by rwa [hq], ?_⟩
  rw [ho, hq, hd]
  rcases hshr with hshr | hp
  · rw [hshr, hbit]
  · rw [hp]; rfl

/-- Which command runs, and whether one does, is visible to the host (R11, R22). -/
theorem State.busy_cmdr_of_visible {s x : State} (h : x.visible = s.visible) : x.busy = s.busy ∧ x.cmdr = s.cmdr := by
  have hb : x.visible.busy = s.visible.busy := congrArg State.busy h
  have hc : x.visible.cmdr = s.visible.cmdr := congrArg State.cmdr h
  exact ⟨hb, hc⟩

theorem State.pinInv_busyTick {s : State} (h : s.pinInv = true) (hb : s.busy = true) : s.busyTick.pinInv = true := by
  rcases s.pinInv_iff.mp h with ⟨hb', -⟩ | ⟨-, hrun, hlegal⟩
  · exact absurd (hb.symm.trans hb') Bool.noConfusion
  obtain ⟨x, hv, hx⟩ := s.busyTick_cases
  obtain ⟨hxb, hxc⟩ := State.busy_cmdr_of_visible hv
  have goesOn : x.running → x.pinInv = true := fun hr =>
    x.pinInv_iff.mpr (.inr ⟨hxb.trans hb, hr, by rw [hxc]; exact hlegal⟩)
  rcases hx with ⟨hx, hq, ho, hbit, hshr⟩ | ⟨hx, hr⟩ | ⟨i, -, hx⟩ | hx <;> rw [hx]
  · exact goesOn (State.running_of_same_phase hrun hq ho hbit hshr)
  · exact goesOn hr
  · exact pinInv_commitOf i x
  · exact State.pinInv_of_idle rfl rfl rfl

theorem State.pinInv_start {s : State} {i : Instr} {w : Word} (hd : decode w = .ok i) : (s.start i w).pinInv = true := by
  obtain ⟨x, hv, hx, hr⟩ := s.start_cases i w
  obtain ⟨hxb, hxc⟩ := State.busy_cmdr_of_visible hv
  rw [hx]
  exact x.pinInv_iff.mpr (.inr ⟨hxb, hr, i, by rw [hxc]; exact hd⟩)

/-- An idle block stays idle when nothing but time, `CMDR` and `ERR` moves. -/
theorem State.pinInv_acceptIllegal {s : State} (w : Word) (h : s.pinInv = true) (hb : s.busy = false) :
    (s.acceptIllegal w).pinInv = true := by
  rcases s.pinInv_iff.mp h with ⟨-, hq, ho⟩ | ⟨hb', -⟩
  · exact State.pinInv_of_idle hb hq ho
  · exact absurd (hb.symm.trans hb') Bool.noConfusion

theorem State.pinInv_tick {s : State} (h : s.pinInv = true) : s.tick.pinInv = true := by
  rcases s.tick_cases with ⟨-, ht⟩ | ⟨-, hb, ht⟩ | ⟨-, -, -, ht⟩ | ⟨-, hb, -, ⟨i, hd, ht⟩ | ⟨e, -, ht⟩⟩ <;> rw [ht]
  · exact State.pinInv_of_idle rfl rfl rfl
  · exact State.pinInv_busyTick h hb
  · exact h
  · exact State.pinInv_start hd
  · exact State.pinInv_acceptIllegal _ h hb

/-- Settles O44: a tick keeps the invariant whatever it is, and a whole command ends in a commit. -/
theorem stepKeepsPinInvariant : Obligations.StepKeepsPinInvariant := by
  intro s t h hst
  rcases step_cases hst with rfl | ⟨i, -, he, -⟩
  · exact State.pinInv_tick h
  · obtain ⟨x, rfl, -⟩ := exec_commits he
    exact pinInv_commitOf i x

/-- Settles O45: the state after the step meets the pin invariant, whose idle case this is. -/
theorem lineReleasedWhenIdle : Obligations.LineReleasedWhenIdle := by
  intro s t h hst hb
  rcases t.pinInv_iff.mp (stepKeepsPinInvariant s t h hst) with ⟨-, hq, ho⟩ | ⟨hb', -⟩
  · exact ⟨ho, hq⟩
  · exact absurd (hb.symm.trans hb') Bool.noConfusion

end Sys2Proof.Machine
end

section
/-! The reset values (10_state.md R28), the table of writers (R27), and the record of one tick (log entry 7). -/

namespace Sys2Proof.Machine

/-- A step with `rst` is the tick of the reset, since no word is accepted in it (R49, R130). -/
theorem step_of_rst {s : State} (h : s.port.rst = true) : step s = .next s.resetTick := by
  have hn : s.acceptedCommand = none := by simp [State.acceptedCommand, h]
  rw [step, hn, State.tick, if_pos h]

/-- Settles O10: the state after the tick of the reset has the values of the reset state. -/
theorem rstGivesTheResetValues : Obligations.RstGivesTheResetValues := fun s h =>
  ⟨s.resetTick, step_of_rst h, rfl, rfl, rfl, rfl, rfl, rfl, rfl, rfl, rfl, rfl, rfl, rfl, rfl, rfl, rfl, rfl⟩

/-- Settles O11: every register the read port shows is 0 in the reset state. -/
theorem resetStateHasTheStatedValues : Obligations.ResetStateHasTheStatedValues :=
  ⟨rfl, by decide, rfl⟩

/-- Settles O47: the flags are clear, the block is idle, and no tick is recorded. -/
theorem resetMeetsTheInvariants : Obligations.ResetMeetsTheInvariants :=
  ⟨rfl, State.pinInv_of_idle rfl rfl rfl, rfl⟩

/-- Settles O55: a tick of any kind takes the time of `Delay(1)`. -/
theorem everyTickRecordsThePin : Obligations.EveryTickRecordsThePin := fun s => s.sameTime_tick

/-- Settles O36: a whole command is a commit after a waveform that leaves the registers alone, so it writes what its commit
writes. -/
theorem writersTable : Obligations.WritersTable := by
  intro i s t he
  obtain ⟨x, rfl, hx, hxc, -, hxp⟩ := exec_commits he
  obtain ⟨ecfg, epres, erv, esv, etv, -, erx, erb, erom, escr, etemp⟩ := State.fields_of_registers hx
  obtain ⟨hb, -, ho, -, hcfg, hcmdr, -⟩ := commitOf_frame i x
  obtain ⟨hp, hrv, hsv, htv, herr⟩ := commitOf_status i x
  obtain ⟨hrx, hrb, hrom, hscr, htemp⟩ := commitOf_data i x
  rw [hp, hrv, hsv, htv, herr, hrx, hrb, hrom, hscr, htemp, epres, erv, esv, etv, erx, erb, erom, escr, etemp]
  refine ⟨?_, ?_, ?_, ?_, ?_, ?_, ?_, ?_, ?_, ?_, ?_, hb, ho, hcmdr.trans hxc, hcfg.trans ecfg⟩
  · split
    next h => exact hxp h
    next => rfl
  · intro h1 h2; simp [h1, h2]
  · intro h1 h2; simp [endsWhenAbsent_iff, h1, h2]
  · rintro h
    rw [if_neg]
    rintro ⟨h1, h2⟩
    simp [hasResetSlot_of_endsWhenAbsent h1, h2] at h
  · rintro rfl
    cases x.hid.presT <;> simp [endsWhenAbsent]
  · rintro rfl
    cases x.hid.presT
    · simp [endsWhenAbsent]
    · by_cases hf : x.hid.stg[0] = x.cfg.familyCode <;> simp [endsWhenAbsent, hf]
  · intro h; simp [h]
  · intro h; simp [h]
  · intro h1 h2; simp [h1, h2]
  · intro h; simp [h]
  · intro h; simp [h]

end Sys2Proof.Machine
end

section
/-! `BUSY` in every tick of an operation (10_state.md R11, 70_reset_and_hazards.md R140): each command's walk, put together from the
stretches of its steps, lasts as long as its row of R52 says. -/

namespace Sys2Proof.Machine

variable {i : Instr} {x : State}

/-! Walks of more than one step. -/

/-- READ_ROM and INIT with a device present (R75). -/
theorem readRomSteps_busy (hs : stepsOf i x = readRomSteps x) (hp : x.levelAt 0 540 = false) :
    (x.enterStep (.sReset, .resetSlot)).BusyFor i 5352 := by
  have hp' : (!x.levelAt 0 540) = true := by rw [hp]; rfl
  have hs' : stepsOf i x = [(.sReset, .resetSlot), (.sRomCmd, .bytesOut [x.cfg.cmdReadRom]), (.sRomData, .bytesIn 8)] := hs
  have b1 : (x.enterStep (.sReset, .resetSlot)).BusyFor i (960 + 488) :=
    State.BusyFor.next (x := x) resetStep_busy (fun h => resetStep_run h) segTicks_resetSlotSegs (fun _ h => h)
      (by rw [hs']; rfl) (.inr (.inl hp')) fun z hz =>
        outStep_busy (st := .sRomCmd) (v := x.cfg.cmdReadRom) (vs := []) (by rw [hz, hs']; rfl) (by decide)
  have r1 : (x.enterStep (.sReset, .resetSlot)).Runs i (960 + 488) →
      x.StepEnds i .sRomCmd (resetSlotSegs ++ bytesOutSegs [x.cfg.cmdReadRom]) [540] (!x.levelAt 0 540) x.hid.stg
        (ticks (960 + 488) (x.enterStep (.sReset, .resetSlot))) := fun h => by
    rw [ticks_add]
    exact (resetStep_run (x := x) (State.Runs.left h)).out segTicks_resetSlotSegs h (by rw [hs']; rfl) (by rw [hs']; rfl)
      (.inr (.inl hp')) (by decide)
  exact State.BusyFor.next (x := x) (n := 3904) b1 r1 (by rw [segTicks_append, segTicks_bytesOutSegs]; rfl) (fun _ h => h)
    (by rw [hs']; rfl) (.inr (.inl hp')) fun z hz => inStep_busy (d := 7) (by rw [hz, hs']; rfl) (by decide)

variable {c : Byte} {rest : List (SeqStep × Transfer)}

/-- The MATCH_ROM frame and a function command (R76, R140). -/
theorem functionSteps_busy (hs : stepsOf i x = matchSteps x ++ (.sFunc, .bytesOut [c]) :: rest)
    (he : endsWhenAbsent i = false) : (x.enterStep (.sReset, .resetSlot)).BusyFor i 5840 :=
  State.BusyFor.next (x := x) (n := 488) (matchSteps_busy hs he) (fun h => matchSteps_run hs he h) (segTicks_matchRomSegs x)
    (fun _ h => h) (by rw [hs]; rfl) (.inl he) fun z hz =>
      outStep_busy (st := .sFunc) (v := c) (vs := []) (by rw [hz, hs]; rfl) (by decide)

theorem functionSteps_run (hs : stepsOf i x = matchSteps x ++ (.sFunc, .bytesOut [c]) :: rest)
    (he : endsWhenAbsent i = false) (hr : x.Runs i 5840) :
    x.StepEnds i .sFunc (matchRomSegs x ++ bytesOutSegs [c]) [540] (!x.levelAt 0 540) x.hid.stg
      (ticks 5840 (x.enterStep (.sReset, .resetSlot))) := by
  rw [show 5840 = 5352 + 488 from rfl, ticks_add]
  exact (matchSteps_run hs he (State.Runs.left (n := 488) hr)).out (segTicks_matchRomSegs x) hr (by rw [hs]; rfl)
    (by rw [hs]; rfl) (.inl he) (by decide)

/-- A data step after the function command (R83, R85, R140). -/
theorem dataStep_busy {n : Nat} {tr : Transfer} (hs : stepsOf i x = matchSteps x ++ [(.sFunc, .bytesOut [c]), (.sData, tr)])
    (he : endsWhenAbsent i = false)
    (hd : ∀ z : State, stepsOf i z = stepsOf i x → (z.enterStep (.sData, tr)).BusyFor i n) :
    (x.enterStep (.sReset, .resetSlot)).BusyFor i (5840 + n) :=
  State.BusyFor.next (x := x) (functionSteps_busy hs he) (fun h => functionSteps_run hs he h)
    (by rw [segTicks_append, segTicks_matchRomSegs, segTicks_bytesOutSegs]; rfl) (fun _ h => h) (by rw [hs]; rfl) (.inl he) hd

/-! Every command. -/

/-- A command's walk keeps `BUSY` at 1 for the ticks that R52 gives it. -/
theorem walk_busy {st : SeqStep × Transfer} {rest : List (SeqStep × Transfer)} (hs : stepsOf i x = st :: rest) :
    (x.enterStep st).BusyFor i (duration (!x.levelAt 0 540) i) := by
  cases i
  all_goals obtain ⟨rfl, -⟩ := List.cons.inj hs
  case resetBus => exact resetStep_busy
  case writeBit bit =>
    exact writeSlot_busy (x := x.setHid { x.hid with step := .sData, byteI := Fin.ofNat 9 0, bitI := 0, shr := zextBit bit })
  case readBit =>
    exact readSlot_busy (x := x.setHid { x.hid with step := .sData, byteI := Fin.ofNat 9 0, bitI := 0, shr := 0#8 })
  case writeByte byte => exact outStep_busy (vs := []) rfl (by decide)
  case readByte => exact inStep_busy (d := 0) rfl (by decide)
  case readRom | init =>
    cases hp : x.levelAt 0 540 with
    | true => exact resetStep_busy
    | false => exact readRomSteps_busy rfl hp
  case matchRom => exact matchSteps_busy (rest := []) rfl rfl
  case startConversion | copyScratchpad => exact functionSteps_busy (rest := []) rfl rfl
  case writeScratchpad highAlarm lowAlarm config =>
    exact dataStep_busy (n := 1464) rfl rfl fun z hz =>
      outStep_busy (v := highAlarm) (vs := [lowAlarm, normConfig config]) rfl (show 2 < 9 by decide)
  case readScratchpad | readTemperature =>
    exact dataStep_busy (n := 4392) rfl rfl fun z hz => inStep_busy (d := 8) rfl (by decide)

theorem State.Runs.enterStep {n : Nat} (st : SeqStep × Transfer) (h : x.Runs i n) : (x.enterStep st).Runs i n := by
  obtain ⟨_, tr⟩ := st
  cases tr <;> exact h

/-- An accepted command starts its walk in the next tick (R49, R140). -/
theorem tick_of_acceptedCommand {s : State} (h : s.acceptedCommand = some i) :
    ∃ st rest, stepsOf i (s.accept s.port.cmdWord) = st :: rest ∧
      s.tick = (s.accept s.port.cmdWord).enterStep st := by
  obtain ⟨hr, hv, hb, hd⟩ := acceptedCommand_eq_some h
  have ht : s.tick = s.start i s.port.cmdWord := by simp [State.tick, hr, hv, hb, hd]
  rw [ht, State.start]
  split
  next hn => exact absurd hn (stepsOf_ne_nil i s)
  next st rest hs => exact ⟨st, rest, hs ▸ stepsOf_congr i rfl rfl, rfl⟩

/-- Settles O18: at `k` ticks after acceptance the walk is `k - 1` ticks old, and the commit that ends it clears `BUSY`. -/
theorem busyExactlyDuringTheOperation : Obligations.BusyExactlyDuringTheOperation := by
  intro s t i ha he
  obtain ⟨-, -, hb, hd⟩ := acceptedCommand_eq_some ha
  obtain ⟨x, rfl, -, -, hn, -⟩ := exec_commits he
  obtain ⟨hbt, -, -, -, -, -, -, -, hnow, -⟩ := commitOf_frame i x
  refine ⟨hb, hbt, fun k hk hlt hrst => ?_⟩
  obtain ⟨st, rest, hs, ht⟩ := tick_of_acceptedCommand ha
  obtain ⟨m, rfl⟩ := Nat.exists_eq_add_of_le' hk
  have hm : m < duration (!(s.accept s.port.cmdWord).levelAt 0 540) i := by
    rw [hnow, hn, State.accept_now] at hlt
    omega
  rw [ticks_succ, ht]
  exact walk_busy hs m hm (State.Runs.enterStep st ⟨rfl, hd, hrst⟩)

end Sys2Proof.Machine
end

section
/-! The host's ports during a command (20_memory.md R43, 30_encoding.md R50): what the host presents goes by, one input in each
tick, and the command's waveform, its samples and its commit are the same whatever it is. -/

namespace Sys2Proof.Machine

variable (ps : List PortIn) (s : State)

/-- Other inputs to come on the host's ports. -/
def State.setInputs : State := { s with inputs := ps }

@[simp] theorem State.setInputs_cfg : (s.setInputs ps).cfg = s.cfg := rfl
@[simp] theorem State.setInputs_hid : (s.setInputs ps).hid = s.hid := rfl

/-! The line does not depend on the host. -/

@[simp] theorem State.levelAt_setInputs (j off : Nat) : (s.setInputs ps).levelAt j off = s.levelAt j off := rfl

theorem State.samplesFrom_setInputs (j : Nat) (offs : List Nat) (log : List SampleAt) :
    (s.setInputs ps).samplesFrom j offs log = s.samplesFrom j offs log := by
  induction offs generalizing j log with
  | nil => rfl
  | cons off offs ih => exact ih ..

/-- During a waveform the inputs go by and nothing else depends on them (R50). -/
theorem State.afterLine_setInputs (gs : List (Bool × Nat)) (offs : List Nat) :
    (s.setInputs ps).afterLine gs offs = (s.afterLine gs offs).setInputs (ps.drop (segTicks gs)) := by
  rw [State.afterLine, State.samplesFrom_setInputs]
  rfl

/-- Before its commit a command lets as many inputs go by as its waveform has ticks (R43, R52). -/
theorem bodyOf_setInputs (i : Instr) :
    bodyOf i (s.setInputs ps) = (bodyOf i s).setInputs (ps.drop (duration (!s.levelAt 0 540) i)) := by
  cases i with
  | resetBus =>
    simp only [bodyOf, State.resetBus_eq, State.afterLine_setInputs]
    rfl
  | writeBit bit =>
    simp only [bodyOf, State.writeBit_eq, State.afterLine_setInputs, segTicks_writeSlotSegs]
    rfl
  | readBit =>
    simp only [bodyOf, State.readBit_eq, State.afterLine_setInputs]
    rfl
  | writeByte byte =>
    simp only [bodyOf, State.writeByte_eq, State.afterLine_setInputs, segTicks_byteOutSegs]
    rfl
  | readByte =>
    simp only [bodyOf, State.readByte_eq, State.afterLine_setInputs, segTicks_byteInSegs]
    rfl
  | readRom | init =>
    cases h : s.levelAt 0 540 with
    | true =>
      simp only [bodyOf, State.readRom_absent, State.levelAt_setInputs, h, State.afterLine_setInputs]
      rfl
    | false =>
      simp only [bodyOf, State.readRom_present, State.levelAt_setInputs, h, State.afterLine_setInputs, segTicks_readRomSegs]
      rfl
  | matchRom =>
    simp only [bodyOf, State.matchRom_eq, State.afterLine_setInputs, segTicks_matchRomSegs]
    rfl
  | startConversion | copyScratchpad =>
    simp only [bodyOf, State.matchRom_writeByte, State.afterLine_setInputs, segTicks_append, segTicks_matchRomSegs,
      segTicks_byteOutSegs]
    rfl
  | writeScratchpad highAlarm lowAlarm config =>
    have hn (x : State) (c : Byte) :
        segTicks (matchRomSegs x ++ bytesOutSegs (c :: scratchpadOperands highAlarm lowAlarm config)) = 7304 := by
      simp [scratchpadOperands]
    rw [bodyOf, bodyOf, State.matchRom_writeBytes, State.matchRom_writeBytes, State.afterLine_setInputs, hn]
    rfl
  | readScratchpad | readTemperature =>
    simp only [bodyOf, State.readScratchpad_eq, State.afterLine_setInputs, segTicks_append, segTicks_matchRomSegs,
      segTicks_byteOutSegs, segTicks_bytesInSegs]
    rfl

/-- A commit does not look at the host's ports (10_state.md R27). -/
theorem commitOf_setInputs (i : Instr) : commitOf i (s.setInputs ps) = (commitOf i s).setInputs ps := by
  cases i
  case readRom =>
    rw [commitOf, commitOf, State.commitReadRom, State.commitReadRom, State.setInputs_hid]
    split <;> rfl
  case init =>
    rw [commitOf, commitOf, State.commitInit, State.commitInit, State.setInputs_hid, State.setInputs_cfg]
    split
    · split <;> rfl
    · rfl
  all_goals rfl

theorem bodyOf_now (i : Instr) : (bodyOf i s).now = s.now + duration (!s.levelAt 0 540) i := by
  obtain ⟨gs, offs, hid, hb, hn, -⟩ := bodyOf_line i s
  rw [hb, ← hn]
  rfl

/-- Settles O14: a command is a waveform, which lets the inputs go by, and a commit, which does not look at them. -/
theorem commandIgnoresTheHostPorts : Obligations.CommandIgnoresTheHostPorts := by
  intro i s t ps he
  rw [exec_eq_commitOf] at he
  obtain rfl := Host.Outcome.next.inj he
  have hdur : (commitOf i (bodyOf i s)).now - s.now = duration (!s.levelAt 0 540) i := by
    obtain ⟨-, -, -, -, -, -, -, -, hnow, -⟩ := commitOf_frame i (bodyOf i s)
    rw [hnow, bodyOf_now, Nat.add_sub_cancel_left]
  have hs := exec_eq_commitOf i (s.setInputs ps)
  rw [bodyOf_setInputs, commitOf_setInputs] at hs
  rw [hdur]
  exact hs

end Sys2Proof.Machine
end

section
/-! The host's read port (20_memory.md R31, R32): what each word of it shows, and that a running operation shows through it in
`STATUS` and `CMDR` alone (R42). -/

namespace Sys2Proof.Machine

/-! `STATUS`: bits from the least significant one up, then the fields above the flags. -/

/-- `STATUS` with the flags as its lowest bits (R31). -/
theorem statusWord_eq_concat (s : State) :
    s.statusWord = (((((0#22 ++ s.err.code ++ 0#3).concat s.tempValid).concat s.scrValid).concat s.romValid).concat
      s.present).concat s.busy := by
  simp only [State.statusWord, BitVec.append_ofBool]

theorem getLsbD_statusWord (s : State) :
    s.statusWord.getLsbD 0 = s.busy ∧ s.statusWord.getLsbD 1 = s.present ∧ s.statusWord.getLsbD 2 = s.romValid ∧
      s.statusWord.getLsbD 3 = s.scrValid ∧ s.statusWord.getLsbD 4 = s.tempValid := by
  simp [statusWord_eq_concat]

theorem extractLsb'_concat_succ {n : Nat} (x : BitVec n) (b : Bool) (k len : Nat) :
    (x.concat b).extractLsb' (k + 1) len = x.extractLsb' k len := by
  rw [← BitVec.append_ofBool, BitVec.extractLsb'_append_eq_of_le (Nat.le_add_left 1 k), Nat.add_sub_cancel]

/-- Above the five flags are the reserved bits and `ERR` (R31). -/
theorem extractLsb'_statusWord (s : State) (k len : Nat) :
    s.statusWord.extractLsb' (k + 5) len = (0#22 ++ s.err.code ++ 0#3).extractLsb' k len := by
  simp only [statusWord_eq_concat, extractLsb'_concat_succ]

theorem extractLsb'_statusWord_below_err (s : State) : s.statusWord.extractLsb' 5 3 = 0#3 :=
  (extractLsb'_statusWord s 0 3).trans BitVec.extractLsb'_append_eq_right

theorem extractLsb'_statusWord_err (s : State) : s.statusWord.extractLsb' 8 2 = s.err.code := by
  refine (extractLsb'_statusWord s 3 2).trans ?_
  rw [BitVec.extractLsb'_append_eq_of_le (by decide)]
  exact BitVec.extractLsb'_append_eq_right

theorem extractLsb'_statusWord_above_err (s : State) : s.statusWord.extractLsb' 10 22 = 0#22 := by
  refine (extractLsb'_statusWord s 5 22).trans ?_
  rw [BitVec.extractLsb'_append_eq_of_le (by decide)]
  exact BitVec.extractLsb'_append_eq_left

/-- `BUSY` is bit 0 of `STATUS` (R42). -/
theorem statusWord_busy (s : State) : { s with busy := true }.statusWord = s.statusWord ||| 1#32 := by
  have h1 : 1#32 = (0#31).concat true := rfl
  rw [statusWord_eq_concat, statusWord_eq_concat, h1, BitVec.concat_or_concat, BitVec.or_zero, Bool.or_true]

/-! The other words. -/

/-- The four bytes of a word, each in its lane (R32). -/
theorem extractLsb'_packLanes (f : Fin 4 → Byte) (k : Fin 4) :
    (packLanes (f 0) (f 1) (f 2) (f 3)).extractLsb' (8 * k.val) 8 = f k := by
  have drop {m start : Nat} (x : BitVec m) (b : Byte) : (x ++ b).extractLsb' (8 + start) 8 = x.extractLsb' start 8 := by
    rw [BitVec.extractLsb'_append_eq_of_le (Nat.le_add_right 8 start), Nat.add_sub_cancel_left]
  match k with
  | 0 => exact BitVec.extractLsb'_append_eq_right
  | 1 => exact (drop (f 3 ++ f 2 ++ f 1) _).trans BitVec.extractLsb'_append_eq_right
  | 2 => exact (drop (f 3 ++ f 2 ++ f 1) _).trans ((drop (f 3 ++ f 2) _).trans BitVec.extractLsb'_append_eq_right)
  | 3 => exact (drop (f 3 ++ f 2 ++ f 1) _).trans ((drop (f 3 ++ f 2) _).trans BitVec.extractLsb'_append_eq_left)

/-- The two halves of `TEMP` (R31). -/
theorem hostRead_temp (s : State) : hostRead s 10#4 ++ hostRead s 9#4 = s.temp :=
  (BitVec.extractLsb'_append_extractLsb'_eq_extractLsb' rfl).trans BitVec.extractLsb'_eq_self

/-- Indices 12 to 15 are reserved (R31, R44). -/
theorem hostRead_reserved (s : State) {a : BitVec 4} (h : 12 ≤ a.toNat) : hostRead s a = 0#32 := by
  unfold hostRead
  split
  case h_13 => rfl
  all_goals omega

/-- Settles O53: the fields of `STATUS` and the byte lanes of the words, each by its lemma, and the words that are a register as
it is. -/
theorem readPortMap : Obligations.ReadPortMap := by
  intro s
  obtain ⟨hbusy, hpresent, hrom, hscr, htemp⟩ := getLsbD_statusWord s
  exact ⟨rfl, hbusy, hpresent, hrom, hscr, htemp, extractLsb'_statusWord_below_err s, extractLsb'_statusWord_err s,
    rfl, rfl, rfl, rfl, rfl, extractLsb'_statusWord_above_err s, rfl,
    fun k => ⟨extractLsb'_packLanes (fun j => s.rbuf[j.val]) k, extractLsb'_packLanes (fun j => s.rbuf[j.val + 4]) k,
      extractLsb'_packLanes (fun j => s.rom[j.val]) k, extractLsb'_packLanes (fun j => s.rom[j.val + 4]) k,
      extractLsb'_packLanes (fun j => s.scr[j.val]) k, extractLsb'_packLanes (fun j => s.scr[j.val + 4]) k⟩,
    rfl, hostRead_temp s, rfl, fun _ ha => hostRead_reserved s ha⟩

/-! What a read depends on. -/

/-- The host reads nothing of the pin, the sequencer and the hidden registers (R25, R31). -/
theorem hostRead_of_visible {s t : State} (h : t.visible = s.visible) (a : BitVec 4) : hostRead t a = hostRead s a :=
  show hostRead t.visible a = hostRead s.visible a from congrArg (hostRead · a) h

/-- Every word but `STATUS` and `CMDR` shows registers that only a commit, an illegal word or a `rst` writes (R27, R31). -/
theorem hostRead_of_registers {s t : State} (h : t.registers = s.registers) {a : BitVec 4} (h0 : a ≠ 0#4) (h11 : a ≠ 11#4) :
    hostRead t a = hostRead s a := by
  have blot (u : State) : hostRead u.registers a = hostRead u a := by
    unfold hostRead
    split
    case h_1 ha => exact absurd (BitVec.eq_of_toNat_eq ha) h0
    case h_12 ha => exact absurd (BitVec.eq_of_toNat_eq ha) h11
    all_goals rfl
  rw [← blot t, h, blot s]

/-! Reads during an operation. -/

/-- The start tick differs from acceptance, for the host, by `BUSY`, `CMDR` and the time (R49). -/
theorem visible_tick_of_acceptedCommand {s : State} {i : Instr} (h : s.acceptedCommand = some i) :
    s.tick.visible = (s.accept s.port.cmdWord).visible := by
  obtain ⟨st, _, -, ht⟩ := tick_of_acceptedCommand h
  rw [ht, State.visible_enterStep]

/-- A tick that does not end the operation changes, for the host, the time alone (R42). -/
theorem visible_busyTick_of_busy {s : State} (hb : s.busyTick.busy = true) : s.busyTick.visible = (s.delay 1).visible := by
  obtain ⟨x, hv, ⟨h, -⟩ | ⟨h, -⟩ | ⟨i, -, h⟩ | h⟩ := s.busyTick_cases
  · rw [h, hv]
  · rw [h, hv]
  · obtain ⟨hc, -⟩ := commitOf_frame i x
    rw [h, hc] at hb
    cases hb
  · rw [h] at hb
    cases hb

/-- A tick of a running operation without `rst` is a tick of the sequencer (R140). -/
theorem tick_of_busy {s : State} (hb : s.busy = true) (hr : s.port.rst = false) : s.tick = s.busyTick := by
  simp [State.tick, hb, hr]

/-- Settles O16: acceptance writes `BUSY` and `CMDR` and none of the other registers, and a later tick of the operation writes
nothing the host can read before the commit. -/
theorem readsWhileBusyShowOldValues : Obligations.ReadsWhileBusyShowOldValues := by
  refine ⟨fun s i h => ?_, fun s hb hr ht a => ?_⟩
  · have hv := visible_tick_of_acceptedCommand h
    have hreg : s.tick.registers = s.registers := (State.registers_of_visible hv).trans (s.registers_accept _)
    exact ⟨fun a h0 h11 => hostRead_of_registers hreg h0 h11,
      (hostRead_of_visible hv 0#4).trans (statusWord_busy s), hostRead_of_visible hv 11#4⟩
  · rw [tick_of_busy hb hr] at ht ⊢
    exact hostRead_of_visible (visible_busyTick_of_busy ht) a

end Sys2Proof.Machine
end

section
/-! The command word (30_encoding.md R45 to R48, R53): a word with `RSV` = 0 is put together from its fields, so decoding and
encoding are compared field by field. -/

namespace Sys2Proof

/-- The operand bytes `A2`, `A1` and `A0` of the canonical word of a command (R47). -/
def operandBytes : Instr → Byte × Byte × Byte
  | .writeBit bit => (0#8, 0#8, BitVec.setWidth 8 (BitVec.ofBool bit))
  | .writeByte byte => (0#8, 0#8, byte)
  | .writeScratchpad highAlarm lowAlarm config => (config, lowAlarm, highAlarm)
  | .resetBus | .readBit | .readByte | .readRom | .matchRom | .init | .startConversion
  | .copyScratchpad | .readScratchpad | .readTemperature => (0#8, 0#8, 0#8)

/-- The bits of `A2`, `A1` and `A0` that the format of a command reads (R47). -/
def operandMask : Instr → Byte × Byte × Byte
  | .writeBit _ => (0#8, 0#8, 1#8)
  | .writeByte _ => (0#8, 0#8, 0xFF#8)
  | .writeScratchpad _ _ _ => (0xFF#8, 0xFF#8, 0xFF#8)
  | .resetBus | .readBit | .readByte | .readRom | .matchRom | .init | .startConversion
  | .copyScratchpad | .readScratchpad | .readTemperature => (0#8, 0#8, 0#8)

/-- The canonical word has `RSV` = 0 and 0 in every bit its format ignores (R53). -/
theorem encode_eq_wordOf (i : Instr) :
    encode i = wordOf (opcode i) (operandBytes i).1 (operandBytes i).2.1 (operandBytes i).2.2 := by
  cases i <;> rfl

/-- The opcodes of the commands are distinct, and an operand comes back from its byte (R45, R47). -/
theorem decodeOp_operandBytes (i : Instr) :
    decodeOp (opcode i) (operandBytes i).1 (operandBytes i).2.1 (operandBytes i).2.2 = .ok i := by
  cases i with
  | writeBit bit => cases bit <;> rfl
  | _ => rfl

/-- The five fields cover the word (R46). -/
theorem eq_wordOf_fields {w : Word} (h : rsvField w = 0#4) :
    w = wordOf (opField w) (a2Field w) (a1Field w) (a0Field w) := by
  rw [wordOf, ← h, opField, rsvField, a2Field, a1Field, a0Field,
    BitVec.extractLsb'_append_extractLsb'_eq_extractLsb' (start₂ := 28) (len₁ := 4) rfl,
    BitVec.extractLsb'_append_extractLsb'_eq_extractLsb' (start₂ := 24) (len₁ := 8) rfl,
    BitVec.extractLsb'_append_extractLsb'_eq_extractLsb' (start₂ := 16) (len₁ := 8) rfl,
    BitVec.extractLsb'_append_extractLsb'_eq_extractLsb' (start₂ := 8) (len₁ := 8) rfl, BitVec.extractLsb'_eq_self]

/-- A mask that keeps the top byte acts on each operand byte by itself (R46). -/
theorem wordOf_and (op : BitVec 4) (a2 a1 a0 m2 m1 m0 : Byte) :
    wordOf op a2 a1 a0 &&& (0xF#4 ++ 0xF#4 ++ m2 ++ m1 ++ m0) = wordOf op (a2 &&& m2) (a1 &&& m1) (a0 &&& m0) := by
  have hop : op &&& 0xF#4 = op := BitVec.and_allOnes
  rw [wordOf, wordOf, BitVec.and_append, BitVec.and_append, BitVec.and_append, BitVec.and_append, hop]
  rfl

theorem usedBits_eq_append (i : Instr) :
    usedBits i = 0xF#4 ++ 0xF#4 ++ (operandMask i).1 ++ (operandMask i).2.1 ++ (operandMask i).2.2 := by
  cases i <;> (rw [usedBits, operandMask]; rfl)

/-- The operands that a format takes from a word are its operand bytes with the ignored bits cleared (R47). -/
theorem operandBytes_of_operandsFrom {a2 a1 a0 : Byte} {i : Instr} (h : operandsFrom a2 a1 a0 i) :
    operandBytes i = (a2 &&& (operandMask i).1, a1 &&& (operandMask i).2.1, a0 &&& (operandMask i).2.2) := by
  have hff (v : Byte) : v &&& 0xFF#8 = v := BitVec.and_allOnes
  cases i with
  | writeBit bit =>
    obtain rfl : bit = a0.getLsbD 0 := h
    simp [operandBytes, operandMask, BitVec.and_one_eq_setWidth_ofBool_getLsbD]
  | writeByte byte =>
    obtain rfl : byte = a0 := h
    simp [operandBytes, operandMask, hff]
  | writeScratchpad highAlarm lowAlarm config =>
    obtain ⟨rfl, rfl, rfl⟩ := h
    simp [operandBytes, operandMask, hff]
  | _ => simp [operandBytes, operandMask]

/-- Settles O2: the canonical word carries the opcode and the operand bytes in their fields, and the decoder reads them there. -/
theorem decodeOfEncodeIsTheCommand : Obligations.DecodeOfEncodeIsTheCommand := fun i => by
  rw [encode_eq_wordOf, decode_wordOf, decodeOp_operandBytes]

/-- Settles O3: a legal word is the word of its fields, and masking it masks its operand bytes. -/
theorem encodeOfDecodeKeepsUsedBits : Obligations.EncodeOfDecodeKeepsUsedBits := by
  intro w i h
  obtain ⟨hrsv, hop, hargs⟩ := decode_ok h
  rw [eq_wordOf_fields hrsv, hop, usedBits_eq_append, wordOf_and, encode_eq_wordOf, operandBytes_of_operandsFrom hargs]

/-- Settles O4: the top byte of a legal word is its opcode above a zero `RSV`, and each of the opcodes 1 to 13 has a command. -/
theorem commandSelectedByTopByte : Obligations.CommandSelectedByTopByte := by
  intro w op hlo hhi
  constructor
  · rintro ⟨i, hd, rfl⟩
    obtain ⟨hrsv, hop, -⟩ := decode_ok hd
    rw [eq_wordOf_fields hrsv, topByte_wordOf, hop]
  · intro htop
    rw [decode_of_topByte htop]
    cases hd : decodeOp op (a2Field w) (a1Field w) (a0Field w) with
    | ok i =>
      obtain ⟨hop, -⟩ := decodeOp_ok hd
      exact ⟨i, rfl, hop.symm⟩
    | error e => rcases (decodeOp_error ..).mp ⟨e, hd⟩ with rfl | rfl | rfl <;> simp at hlo hhi

/-- Settles O5: a nonzero `RSV` is refused at once, and otherwise the opcode decides. -/
theorem illegalWordsAreTheReserved : Obligations.IllegalWordsAreTheReserved := by
  intro w
  by_cases hrsv : rsvField w = 0#4
  · have hbits : w.extractLsb' 24 4 = 0#4 := hrsv
    rw [decode, if_pos hrsv, decodeOp_error]
    simp [opField, hbits]
  · rw [decode, if_neg hrsv]
    exact iff_of_true ⟨_, rfl⟩ (.inr (.inr (.inr hrsv)))

/-- Settles O6: the operands are those the format takes from the fields. -/
theorem operandsComeFromTheirFields : Obligations.OperandsComeFromTheirFields := by
  refine fun w => ⟨fun bit h => ?_, fun byte h => ?_, fun hi lo c h => ?_⟩ <;> obtain ⟨-, -, hargs⟩ := decode_ok h
  · exact hargs.trans (by simp [a0Field])
  · exact hargs
  · exact hargs

/-- Settles O1: the decoder evaluated on the words of the table. -/
theorem tableWordsDecode : Obligations.TableWordsDecode := by
  unfold Obligations.TableWordsDecode
  decide

end Sys2Proof
end

section
/-! Which steps are one tick and which a whole operation (30_encoding.md R49, R50), and how long an operation lasts (R52). -/

namespace Sys2Proof.Machine

theorem acceptedCommand_of_decode {s : State} {i : Instr} (hr : s.port.rst = false) (hv : s.port.cmdValid = true)
    (hb : s.busy = false) (hd : decode s.port.cmdWord = .ok i) : s.acceptedCommand = some i := by
  simp [State.acceptedCommand, hr, hv, hb, hd, Except.toOption]

theorem step_of_acceptedCommand_eq_none {s : State} (h : s.acceptedCommand = none) : step s = .next s.tick := by
  rw [step, h]

/-- An accepted command that no `rst` cuts short is one step (log entry 6). -/
theorem step_of_runsToCompletion {s t : State} {i : Instr} (hi : s.acceptedCommand = some i)
    (he : exec i (s.accept s.port.cmdWord) = .next t) (hr : runsToCompletion s t = true) : step s = .next t := by
  simp only [step, hi, he, if_pos hr]

/-- While `BUSY` is 1 a step without `rst` is a tick of the sequencer, since no word is accepted in it (R49, R140). -/
theorem step_of_busy {s : State} (hb : s.busy = true) (hr : s.port.rst = false) : step s = .next s.busyTick := by
  rw [step_of_acceptedCommand_eq_none (by simp [State.acceptedCommand, hb]), tick_of_busy hb hr]

@[simp] theorem State.setInputs_seq (ps : List PortIn) (s : State) : (s.setInputs ps).seq = s.seq := rfl

/-- A sample does not look at the host's ports (R24, R50). -/
theorem State.phaseSample_setInputs (ps : List PortIn) (s : State) :
    (s.setInputs ps).phaseSample = s.phaseSample.setInputs ps := by
  rw [State.phaseSample, State.phaseSample, State.setInputs_hid, State.setInputs_seq]
  split
  · split <;> rfl
  · rfl

/-- What the host presents in a tick of a running operation goes by (R50). -/
theorem State.busyTick_cons (p q : PortIn) (rest : List PortIn) (s : State) :
    (s.setInputs (p :: rest)).busyTick = (s.setInputs (q :: rest)).busyTick := by
  have hdrop (p : PortIn) : (s.setInputs (p :: rest)).phaseSample.delay 1 = (s.phaseSample.delay 1).setInputs rest := by
    rw [State.phaseSample_setInputs]
    rfl
  rw [State.busyTick, State.busyTick, hdrop p, hdrop q]

/-- Settles O13: with `rst` the step is the tick of the reset, and while busy one of the sequencer; neither looks at the word. -/
theorem droppedWordHasNoEffect : Obligations.DroppedWordHasNoEffect := by
  intro s p q rest hpq h
  show step (s.setInputs (p :: rest)) = step (s.setInputs (q :: rest))
  cases hr : p.rst with
  | true =>
    have hstep (x : PortIn) (hx : x.rst = true) :
        step (s.setInputs (x :: rest)) = .next (s.setInputs (x :: rest)).resetTick := step_of_rst hx
    rw [hstep p hr, hstep q (hpq ▸ hr)]
    rfl
  | false =>
    have hb : s.busy = true := h.resolve_right (ne_true_of_eq_false hr)
    have hstep (x : PortIn) (hx : x.rst = false) :
        step (s.setInputs (x :: rest)) = .next (s.setInputs (x :: rest)).busyTick := step_of_busy hb hx
    rw [hstep p hr, hstep q (hpq ▸ hr), State.busyTick_cons p q]

/-- Settles O7: the start tick it speaks of is the state that acceptance leaves. -/
theorem stepRunsTheAcceptedCommand : Obligations.StepRunsTheAcceptedCommand := by
  intro s t p rest i hin hr hv hb hd he hrst
  have hp : s.port = p := by rw [State.port, hin]; rfl
  have hrest : s.inputs.drop 1 = rest := by rw [hin]; rfl
  subst hp hrest
  exact step_of_runsToCompletion (acceptedCommand_of_decode hr hv hb hd) he hrst

/-- Settles O12: no command is accepted, so the step is one tick, in which only time passes. -/
theorem idleTickOnlyPassesTime : Obligations.IdleTickOnlyPassesTime := by
  intro s hb hr hv
  rw [step_of_acceptedCommand_eq_none (by simp [State.acceptedCommand, hv])]
  simp [State.tick, hb, hr, hv, State.delay]

/-- Settles O35: a command lasts as long as its waveform, since its commit takes no time. -/
theorem durationsAreAsListed : Obligations.DurationsAreAsListed := by
  intro i s
  obtain ⟨-, -, -, -, -, -, -, -, hnow, -⟩ := commitOf_frame i (bodyOf i s)
  exact ⟨_, exec_eq_commitOf i s, hnow.trans (bodyOf_now s i)⟩

end Sys2Proof.Machine
end

section
/-! The assembler (30_encoding.md R53, R54): which operands are within the bounds of a mnemonic, and the word of each mnemonic. -/

namespace Sys2Proof

/-- The word of its fields as the fields shifted into place (R46). -/
theorem wordOf_eq_or (op : BitVec 4) (a2 a1 a0 : Byte) :
    wordOf op a2 a1 a0 =
      op.setWidth 32 <<< 28 ||| a2.setWidth 32 <<< 16 ||| a1.setWidth 32 <<< 8 ||| a0.setWidth 32 := by
  refine BitVec.eq_of_getLsbD_eq fun k hk => ?_
  simp only [wordOf, BitVec.getLsbD_append, BitVec.getLsbD_or, BitVec.getLsbD_shiftLeft, BitVec.getLsbD_setWidth]
  interval_cases k <;> simp

theorem setWidth_ofNat_shiftLeft {v : Nat} (hv : v < 256) (k : Nat) :
    (BitVec.ofNat 8 v).setWidth 32 <<< k = BitVec.ofNat 32 (v * 2 ^ k) := by
  rw [BitVec.setWidth_ofNat_of_le_of_lt (by decide) hv]
  exact BitVec.eq_of_toNat_eq (by simp [Nat.shiftLeft_eq])

theorem encode_writeBit_beq {v : Nat} (hv : v < 2) :
    encode (.writeBit (v == 1)) = 0x20000000#32 ||| BitVec.ofNat 32 v := by
  interval_cases v <;> rfl

theorem encode_writeByte_ofNat {v : Nat} (hv : v < 256) :
    encode (.writeByte (BitVec.ofNat 8 v)) = 0x40000000#32 ||| BitVec.ofNat 32 v := by
  rw [encode, wordOf_eq_or, BitVec.setWidth_ofNat_of_le_of_lt (x := v) (by decide) hv]
  simp [opcode]

theorem encode_writeScratchpad_ofNat {high low c : Nat} (hh : high < 256) (hl : low < 256) (hc : c < 256) :
    encode (.writeScratchpad (BitVec.ofNat 8 high) (BitVec.ofNat 8 low) (BitVec.ofNat 8 c)) =
      0xA0000000#32 ||| BitVec.ofNat 32 (c * 2 ^ 16) ||| BitVec.ofNat 32 (low * 2 ^ 8) ||| BitVec.ofNat 32 high := by
  rw [encode, wordOf_eq_or, setWidth_ofNat_shiftLeft hc, setWidth_ofNat_shiftLeft hl,
    BitVec.setWidth_ofNat_of_le_of_lt (by decide) hh]
  simp [opcode]

/-- Each operand is below the bound in its place (R53). -/
theorem withinBounds_iff (vs bs : List Nat) : withinBounds vs bs = true ↔ List.Forall₂ (· < ·) vs bs := by
  induction vs generalizing bs with
  | nil => cases bs <;> simp [withinBounds]
  | cons v vs ih => cases bs <;> simp [withinBounds, ih]

theorem withinBounds_nil_iff (vs : List Nat) : withinBounds vs [] = true ↔ vs = [] := by
  rw [withinBounds_iff, List.forall₂_nil_right_iff]

theorem withinBounds_singleton_iff (vs : List Nat) (b : Nat) :
    withinBounds vs [b] = true ↔ ∃ v, v < b ∧ vs = [v] := by
  simp [withinBounds_iff, List.forall₂_cons_right_iff]

theorem withinBounds_triple_iff (vs : List Nat) (b₁ b₂ b₃ : Nat) :
    withinBounds vs [b₁, b₂, b₃] = true ↔ ∃ v₁ v₂ v₃, v₁ < b₁ ∧ v₂ < b₂ ∧ v₃ < b₃ ∧ vs = [v₁, v₂, v₃] := by
  rw [withinBounds_iff]
  constructor
  · rintro (_ | ⟨h₁, _ | ⟨h₂, _ | ⟨h₃, ⟨⟩⟩⟩⟩)
    exact ⟨_, _, _, h₁, h₂, h₃, rfl⟩
  · rintro ⟨v₁, v₂, v₃, h₁, h₂, h₃, rfl⟩
    exact .cons h₁ (.cons h₂ (.cons h₃ .nil))

end Sys2Proof

namespace Sys2Proof.Machine

/-- Operands within the bounds of a mnemonic make a command of it (R53). -/
theorem instrOf_of_withinBounds {m : Mnemonic} {ops : List Nat} (h : withinBounds ops m.operandBounds = true) :
    ∃ i, instrOf m ops = some i := by
  cases m
  case WRITE_BIT | WRITE_BYTE =>
    obtain ⟨_, -, rfl⟩ := (withinBounds_singleton_iff ..).mp h
    exact ⟨_, rfl⟩
  case WRITE_SCRATCHPAD =>
    obtain ⟨_, _, _, -, -, -, rfl⟩ := (withinBounds_triple_iff ..).mp h
    exact ⟨_, rfl⟩
  all_goals
    obtain rfl := (withinBounds_nil_iff ops).mp h
    exact ⟨_, rfl⟩

/-- R53: "an assembly error, not a truncation". -/
theorem assemble_eq_error {l : SourceLine} (h : l.wellFormed = false) : assemble l = .error .badOperands := by
  simp [assemble, h]

theorem wellFormed_of_assemble {l : SourceLine} {items : List ListingItem} (h : assemble l = .ok items) :
    l.wellFormed = true := by
  by_contra hw
  rw [assemble_eq_error (eq_false_of_ne_true hw)] at h
  cases h

/-- A mnemonic with operands in range stands for the canonical word of its command (R53). -/
theorem assemble_command_eq_ok_iff (m : Mnemonic) (ops : List Nat) (items : List ListingItem) :
    assemble (.command m ops) = .ok items ↔
      withinBounds ops m.operandBounds = true ∧ ∃ i, instrOf m ops = some i ∧ items = [.word (encode i)] := by
  cases hw : withinBounds ops m.operandBounds with
  | false => simp [assemble_eq_error (l := .command m ops) hw]
  | true =>
    obtain ⟨i, hi⟩ := instrOf_of_withinBounds hw
    simp [assemble, SourceLine.wellFormed, hw, hi, eq_comm]

/-- The mnemonics without operands (R53). -/
theorem assemble_noOperands {m : Mnemonic} {i : Instr} {w : Word} (hb : m.operandBounds = [])
    (hi : instrOf m [] = some i) (hw : encode i = w) (ops : List Nat) (items : List ListingItem) :
    assemble (.command m ops) = .ok items ↔ ops = [] ∧ items = [.word w] := by
  rw [assemble_command_eq_ok_iff, hb, withinBounds_nil_iff, ← hw]
  refine and_congr_right ?_
  rintro rfl
  simp [hi]

/-- The mnemonics with one operand (R53). -/
theorem assemble_oneOperand {m : Mnemonic} {n : Nat} {i : Nat → Instr} {w : Nat → Word} (hb : m.operandBounds = [n])
    (hi : ∀ v, instrOf m [v] = some (i v)) (hw : ∀ v, v < n → encode (i v) = w v) (ops : List Nat)
    (items : List ListingItem) :
    assemble (.command m ops) = .ok items ↔ ∃ v, v < n ∧ ops = [v] ∧ items = [.word (w v)] := by
  rw [assemble_command_eq_ok_iff, hb, withinBounds_singleton_iff]
  constructor
  · rintro ⟨⟨v, hv, rfl⟩, j, hj, rfl⟩
    obtain rfl : i v = j := Option.some.inj ((hi v).symm.trans hj)
    exact ⟨v, hv, rfl, by rw [hw v hv]⟩
  · rintro ⟨v, hv, rfl, rfl⟩
    exact ⟨⟨v, hv, rfl⟩, i v, hi v, by rw [hw v hv]⟩

theorem assemble_writeScratchpad_eq_ok_iff (ops : List Nat) (items : List ListingItem) :
    assemble (.command .WRITE_SCRATCHPAD ops) = .ok items ↔
      ∃ high low c, high < 256 ∧ low < 256 ∧ c < 256 ∧ ops = [high, low, c] ∧
        items = [.word (0xA0000000#32 ||| BitVec.ofNat 32 (c * 2 ^ 16) ||| BitVec.ofNat 32 (low * 2 ^ 8) |||
          BitVec.ofNat 32 high)] := by
  rw [assemble_command_eq_ok_iff, Mnemonic.operandBounds, withinBounds_triple_iff]
  constructor
  · rintro ⟨⟨high, low, c, hh, hl, hc, rfl⟩, i, hi, rfl⟩
    obtain rfl := Option.some.inj hi
    exact ⟨high, low, c, hh, hl, hc, rfl, by rw [encode_writeScratchpad_ofNat hh hl hc]⟩
  · rintro ⟨high, low, c, hh, hl, hc, rfl, rfl⟩
    exact ⟨⟨high, low, c, hh, hl, hc, rfl⟩, _, rfl, by rw [encode_writeScratchpad_ofNat hh hl hc]⟩

/-- `SEND_FUNCTION byte` is `MATCH_ROM` then `WRITE_BYTE byte` (R54). -/
theorem assemble_sendFunction_eq_ok_iff (ops : List Nat) (items : List ListingItem) :
    assemble (.sendFunction ops) = .ok items ↔
      ∃ v, v < 256 ∧ ops = [v] ∧ items = [.word 0x70000000#32, .word (0x40000000#32 ||| BitVec.ofNat 32 v)] := by
  constructor
  · intro h
    have hw := wellFormed_of_assemble h
    obtain ⟨v, hv, rfl⟩ := (withinBounds_singleton_iff ..).mp hw
    rw [assemble, if_pos hw] at h
    cases h
    exact ⟨v, hv, rfl, by rw [List.headD_cons, encode_writeByte_ofNat hv]; rfl⟩
  · rintro ⟨v, hv, rfl, rfl⟩
    have hw : (SourceLine.sendFunction [v]).wellFormed = true := (withinBounds_singleton_iff ..).mpr ⟨v, hv, rfl⟩
    rw [assemble, if_pos hw, List.headD_cons, encode_writeByte_ofNat hv]
    rfl

/-- `WAIT n` encodes to no word (R54). -/
theorem assemble_wait_eq_ok_iff (ops : List Nat) (items : List ListingItem) :
    assemble (.wait ops) = .ok items ↔ ∃ n, ops = [n] ∧ items = [.wait n] := by
  constructor
  · intro h
    obtain ⟨n, rfl⟩ := List.length_eq_one_iff.mp (beq_iff_eq.mp (wellFormed_of_assemble h))
    exact ⟨n, rfl, (Except.ok.inj h).symm⟩
  · rintro ⟨n, rfl, rfl⟩
    rfl

theorem assemble_of_wellFormed {l : SourceLine} (h : l.wellFormed = true) : ∃ items, assemble l = .ok items := by
  cases l with
  | command m ops =>
    obtain ⟨i, hi⟩ := instrOf_of_withinBounds h
    exact ⟨_, (assemble_command_eq_ok_iff ..).mpr ⟨h, i, hi, rfl⟩⟩
  | sendFunction ops => exact ⟨_, by rw [assemble, if_pos h]⟩
  | wait ops => exact ⟨_, by rw [assemble, if_pos h]⟩

/-- Settles O54: a line outside the bounds is an error, and within them each mnemonic has the word of its command. -/
theorem assemblerTakesTheWellFormed : Obligations.AssemblerTakesTheWellFormed := by
  refine ⟨fun l => ⟨fun ⟨_, h⟩ => wellFormed_of_assemble h, assemble_of_wellFormed⟩, fun l => assemble_eq_error,
    ?_, assemble_oneOperand rfl (fun _ => rfl) (fun _ => encode_writeBit_beq),
    assemble_oneOperand rfl (fun _ => rfl) (fun _ => encode_writeByte_ofNat), assemble_writeScratchpad_eq_ok_iff,
    assemble_sendFunction_eq_ok_iff, assemble_wait_eq_ok_iff⟩
  intro p hp
  fin_cases hp <;> exact assemble_noOperands rfl rfl rfl

end Sys2Proof.Machine
end

section
/-! The bus primitives (40_bus_primitives.md R60 to R69): a slot shows on the pin tick by tick, each primitive is the waveform of its
procedure and one commit, and a received byte is spelled by the levels that the line supplies. -/

namespace Sys2Proof.Machine

/-! The pin in a slot. -/

/-- An accepted command is in the first phase of its first step from the next tick on, as far as no `rst` falls in the ticks between
(R49, R140). -/
theorem ticks_succ_of_acceptedCommand {s : State} {i : Instr} (k : Nat) (h : s.acceptedCommand = some i)
    {st : SeqStep × Transfer} {rest : List (SeqStep × Transfer)}
    (hs : stepsOf i (s.accept s.port.cmdWord) = st :: rest) :
    ticks (k + 1) s = ticks k ((s.accept s.port.cmdWord).enterStep st) := by
  obtain ⟨st', rest', hs', ht⟩ := tick_of_acceptedCommand h
  obtain ⟨rfl, -⟩ := List.cons.inj (hs.symm.trans hs')
  rw [ticks_succ, ht]

theorem runs_accept {s : State} {i : Instr} {k : Nat} (h : s.acceptedCommand = some i)
    (hr : noRstWithin (s.inputs.drop 1) k = true) : (s.accept s.port.cmdWord).Runs i k := by
  obtain ⟨-, -, -, hd⟩ := acceptedCommand_eq_some h
  exact ⟨rfl, hd, hr⟩

/-- The pin in every tick of the slot that writes `b` (R60). -/
theorem writeSlot_inside_of_bit {i : Instr} {x : State} {b : Bool} (hb : x.hid.shr.getLsbD x.hid.bitI.val = b) {k : Nat}
    (hk : k < 61) (h : x.Runs i k) :
    (ticks k (x.enterPhase .wLow)).busy = true ∧
    (ticks k (x.enterPhase .wLow)).owOe = decide (k = 0 ∨ (b = false ∧ k < 60)) := by
  subst hb
  exact writeSlot_inside k hk h

theorem getLsbD_zextBit (b : Bool) : (zextBit b).getLsbD 0 = b := by cases b <;> rfl

/-- Settles O19: at offset `k` the accepted command is `k` ticks into its one slot. -/
theorem slotsDriveThePinTickByTick : Obligations.SlotsDriveThePinTickByTick := by
  intro s k hrst
  refine ⟨fun bit ha hk => ?_, fun ha hk => ?_, fun ha hk => ?_⟩ <;>
    rw [ticks_succ_of_acceptedCommand k ha rfl] <;> have hr := runs_accept ha hrst
  · exact writeSlot_inside_of_bit (x := (s.accept s.port.cmdWord).setHid
      { s.hid with step := .sData, byteI := 0, bitI := 0, shr := zextBit bit }) (getLsbD_zextBit bit) hk hr
  · exact readSlot_inside (x := (s.accept s.port.cmdWord).setHid
      { s.hid with step := .sData, byteI := 0, bitI := 0, shr := 0#8 }) k hk hr
  · exact resetSlot_inside (x := (s.accept s.port.cmdWord).setHid
      { s.hid with step := .sReset, byteI := 0, bitI := 0, shr := 0#8 }) k hk hr

/-! The primitives. -/

/-- Settles O20: `ResetBus()` keeps the complement of its sample in `PRES_T`, which the commit copies. -/
theorem resetBusReportsPresence : Obligations.ResetBusReportsPresence := by
  refine ⟨fun w h => decode_of_topByte (op := 0x1#4) h, rfl, fun s => ?_⟩
  rw [exec, execResetBus, State.resetBus_eq, State.commitPresence_eq rfl]
  exact ⟨_, rfl⟩

/-- Settles O21: `WriteBit` is one write slot, and the commit writes `ERR` alone. -/
theorem writeBitPutsOneSlot : Obligations.WriteBitPutsOneSlot := by
  refine ⟨fun w h => ?_, rfl, rfl, fun bit s => ?_⟩
  · have hbit : (a0Field w).getLsbD 0 = w.getLsbD 0 := by simp [a0Field]
    rw [← hbit]
    exact decode_of_topByte (op := 0x2#4) h
  · rw [exec, execWriteBit, State.writeBit_eq, State.commitNothing_eq rfl]
    exact ⟨_, rfl⟩

/-- A bit extended to a byte (R67). -/
theorem zextBit_eq_ite (b : Bool) : zextBit b = if b then 0x01#8 else 0x00#8 := by cases b <;> rfl

/-- Settles O22: `ReadBit` returns the level at offset 16, and the commit extends it to a byte. -/
theorem readBitStoresTheSample : Obligations.ReadBitStoresTheSample := by
  refine ⟨fun w h => decode_of_topByte (op := 0x3#4) h, rfl, fun s => ?_⟩
  rw [exec, execReadBit, State.readBit_eq, State.commitRx_eq rfl, zextBit_eq_ite]
  exact ⟨_, rfl⟩

/-- Settles O23: `WriteByte` is eight write slots, and the commit writes `ERR` alone. -/
theorem writeBytePutsEightSlots : Obligations.WriteBytePutsEightSlots := by
  refine ⟨fun w h => decode_of_topByte (op := 0x4#4) h, fun byte => ?_, fun byte s => ?_⟩
  · rw [encode, wordOf_eq_or]
    simp [opcode]
  · rw [exec, execWriteByte, State.writeByte_eq, State.commitNothing_eq rfl]
    exact ⟨_, rfl⟩

/-! A received byte. -/

/-- The eight bits of a byte spell it (R34). -/
theorem byteOfBits_getLsbD (v : Byte) :
    byteOfBits (v.getLsbD 0) (v.getLsbD 1) (v.getLsbD 2) (v.getLsbD 3) (v.getLsbD 4) (v.getLsbD 5) (v.getLsbD 6)
      (v.getLsbD 7) = v := by
  refine BitVec.eq_of_getLsbD_eq fun i hi => ?_
  rw [byteOfBits, BitVec.getLsbD_ofBoolListLE]
  interval_cases i <;> rfl

/-- The `j`-th level on the line is the `j`-th bit of the byte the line echoes, whenever it is sampled (R37, R72). -/
theorem State.levelAt_of_take_lineIn {s : State} {v : Byte} (h : s.lineIn.take 8 = lsbFirst v) {j : Nat} (hj : j < 8)
    (off : Nat) : s.levelAt j off = v.getLsbD j := by
  have hget : s.lineIn[j]? = (lsbFirst v)[j]? := by rw [← h, List.getElem?_take_of_lt hj]
  rw [State.levelAt, List.getD_eq_getElem?_getD, hget]
  interval_cases j <;> rfl

theorem State.byteIn_of_take_lineIn {s : State} {v : Byte} (h : s.lineIn.take 8 = lsbFirst v) : s.byteIn 0 0 = v := by
  have hbit {j : Nat} (hj : j < 8) (off : Nat) := State.levelAt_of_take_lineIn h hj off
  rw [State.byteIn]
  simp only [hbit, byteOfBits_getLsbD, Nat.reduceAdd, Nat.reduceLT]

/-- Settles O24: `ReadByte` returns the byte that the eight samples spell, and the commit puts it in `RXDATA`. -/
theorem readByteStoresEightSamples : Obligations.ReadByteStoresEightSamples := by
  refine ⟨fun w h => decode_of_topByte (op := 0x5#4) h, rfl, fun s => ⟨?_, fun _ => State.byteIn_of_take_lineIn⟩⟩
  rw [exec, execReadByte, State.readByte_eq, State.commitRx_eq rfl]
  exact ⟨_, rfl⟩

/-- Settles O25: READ_BYTE stores the byte that its samples spell, which are the next eight levels. -/
theorem echoedByteComesBack : Obligations.EchoedByteComesBack := by
  intro v s h
  obtain ⟨-, -, hread⟩ := readByteStoresEightSamples
  obtain ⟨⟨hid, he⟩, hbyte⟩ := hread s
  exact ⟨_, he, hbyte v h, rfl⟩

end Sys2Proof.Machine
end

section
/-! The ROM commands (41_rom_commands.md R75 to R78): READ_ROM goes on after its reset slot only with a device present, MATCH_ROM
in any case, and each ends in one commit. -/

namespace Sys2Proof.Machine

/-- Settles O26: `ReadRom()` stops after the reset slot or stages the eight bytes, and the commit takes `PRESENT`, `ERR` and `RBUF`
from what it left. -/
theorem readRomReadsTheCode : Obligations.ReadRomReadsTheCode := by
  refine ⟨fun w h => decode_of_topByte (op := 0x6#4) h, rfl, fun s => ⟨fun habsent => ?_, fun hpresent => ?_⟩⟩
  · rw [exec, execReadRom, State.readRom_absent habsent, State.commitReadRom_absent rfl]
    exact ⟨_, rfl⟩
  · rw [exec, execReadRom, State.readRom_present hpresent, State.commitReadRom_present rfl]
    exact ⟨_, rfl⟩

/-- Settles O27: `MatchRom()` sends its frame and keeps the complement of the presence sample in `PRES_T`, which the commit
copies. -/
theorem matchRomSendsTheCachedCode : Obligations.MatchRomSendsTheCachedCode := by
  refine ⟨fun w h => decode_of_topByte (op := 0x7#4) h, rfl, fun s => ?_⟩
  rw [exec, execMatchRom, State.matchRom_eq, State.commitPresence_eq rfl]
  exact ⟨_, rfl⟩

end Sys2Proof.Machine
end

section
/-! The sensor commands (42_sensor_commands.md R80 to R87): each is a walk of the ROM commands, with bytes sent or read after it, and
one commit; the configuration byte is normalised before it is sent, and nothing but the line decides what is read. -/

namespace Sys2Proof.Machine

/-! INIT. -/

/-- Settles O28: `ReadRom()` stops after the reset slot or stages the eight bytes, and the commit compares the first with the family
code. -/
theorem initCachesTheRomCode : Obligations.InitCachesTheRomCode := by
  refine ⟨fun w h => decode_of_topByte (op := 0x8#4) h, rfl, fun s =>
    ⟨fun habsent => ?_, fun hpresent hfamily => ?_, fun hpresent hfamily => ?_⟩⟩
  · rw [exec, execInit, State.readRom_absent habsent, State.commitInit_absent rfl]
    exact ⟨_, rfl⟩
  · rw [exec, execInit, State.readRom_present hpresent, State.commitInit_mismatch rfl _ _ hfamily]
    exact ⟨_, rfl⟩
  · rw [exec, execInit, State.readRom_present hpresent, State.commitInit_match rfl _ _ hfamily]
    exact ⟨_, rfl⟩

/-! Commands that send after the MATCH_ROM frame. -/

/-- Settles O29: one byte after the frame, and the commit copies the presence result. -/
theorem startConversionAddressesAndSends : Obligations.StartConversionAddressesAndSends := by
  refine ⟨fun w h => decode_of_topByte (op := 0x9#4) h, rfl, fun s => ?_⟩
  rw [exec, execStartConversion, State.matchRom_writeByte, State.commitPresence_eq rfl]
  exact ⟨_, rfl⟩

/-- Settles O31: one byte after the frame, and the commit copies the presence result. -/
theorem copyScratchpadAddressesAndSends : Obligations.CopyScratchpadAddressesAndSends := by
  refine ⟨fun w h => decode_of_topByte (op := 0xB#4) h, rfl, fun s => ?_⟩
  rw [exec, execCopyScratchpad, State.matchRom_writeByte, State.commitPresence_eq rfl]
  exact ⟨_, rfl⟩

/-- Settles O30: four bytes after the frame, the last of them the normalised configuration byte, and the commit copies the presence
result. -/
theorem writeScratchpadSendsThreeBytes : Obligations.WriteScratchpadSendsThreeBytes := by
  refine ⟨fun w h => decode_of_topByte (op := 0xA#4) h, fun high low c => ?_, fun high low c s => ?_⟩
  · rw [encode, wordOf_eq_or]
    simp [opcode]
  · rw [exec, execWriteScratchpad, State.matchRom_writeBytes, State.commitPresence_eq rfl, scratchpadOperands, normConfig]
    exact ⟨_, rfl⟩

/-- The normalised configuration byte, bit by bit from the least significant one up (R82). -/
theorem normConfig_eq_byteOfBits (c : Byte) :
    normConfig c = byteOfBits true true true true true (c.getLsbD 5) (c.getLsbD 6) false := by
  refine BitVec.eq_of_getLsbD_eq fun i hi => ?_
  rw [byteOfBits, BitVec.getLsbD_ofBoolListLE, normConfig]
  interval_cases i <;> simp

/-- Settles O48: bits 5 and 6 alone are free, which leaves four bytes. -/
theorem normConfigForcesBits : Obligations.NormConfigForcesBits := by
  intro c
  refine ⟨rfl, ?_⟩
  rw [normConfig_eq_byteOfBits]
  cases c.getLsbD 5 <;> cases c.getLsbD 6 <;> decide

/-! Commands that read after the MATCH_ROM frame. -/

/-- Settles O32: `ReadScratchpad()` stages the nine bytes, and the commit copies them with the presence result. -/
theorem readScratchpadStoresNineBytes : Obligations.ReadScratchpadStoresNineBytes := by
  refine ⟨fun w h => decode_of_topByte (op := 0xC#4) h, rfl, fun s => ?_⟩
  rw [exec, execReadScratchpad, State.readScratchpad_eq, State.commitScratchpad_eq rfl]
  exact ⟨_, rfl⟩

/-- The first two of nine bytes read in a row (R87). -/
theorem State.nineIn_getElem_zero (s : State) (j off : Nat) : (s.nineIn j off)[0] = s.byteIn j off := by
  simp [State.nineIn, State.eightIn]

theorem State.nineIn_getElem_one (s : State) (j off : Nat) :
    (s.nineIn j off)[1] = s.byteIn (j + 8) (off + 488) := by
  simp [State.nineIn, State.eightIn]

/-- Settles O33: `ReadScratchpad()` again, and the commit decodes the first two of the nine bytes as well. -/
theorem readTemperatureDecodesTwoBytes : Obligations.ReadTemperatureDecodesTwoBytes := by
  refine ⟨fun w h => decode_of_topByte (op := 0xD#4) h, rfl, fun s => ?_⟩
  rw [exec, execReadTemperature, State.readScratchpad_eq, State.commitTemperature_eq rfl,
    State.nineIn_getElem_zero, State.nineIn_getElem_one]
  exact ⟨_, rfl⟩

/-! The levels on the line decide what is read. -/

/-- A sample reads the level that the list of levels holds for it, at whatever tick it is taken (R37, R72). -/
theorem State.levelAt_of_lineIn_eq_append {s : State} {levels rest : List Bool} (h : s.lineIn = levels ++ rest) {j : Nat}
    (hj : j < levels.length) (off : Nat) : s.levelAt j off = levels[j] := by
  rw [State.levelAt, h, List.getD_append _ _ _ _ hj, List.getD_eq_getElem _ _ hj]

section

variable {s t : State} {n : Nat} (h : ∀ j < n, ∀ off, t.levelAt j off = s.levelAt j off)

include h

/-- A byte is spelled by eight levels (R63). -/
theorem State.byteIn_congr {j : Nat} (hj : j + 8 ≤ n) (off : Nat) : t.byteIn j off = s.byteIn j off := by
  simp (disch := omega) only [State.byteIn, h]

/-- Bytes read in a row are spelled by eight levels each (R63, R70). -/
theorem stagedBytes_congr (ks : List (Fin 9)) {j : Nat} (hj : j + 8 * ks.length ≤ n) (off : Nat) :
    stagedBytes t ks j off = stagedBytes s ks j off := by
  induction ks generalizing j off with
  | nil => rfl
  | cons k ks ih =>
    rw [List.length_cons] at hj
    rw [stagedBytes, stagedBytes, State.byteIn_congr h (by omega), ih (by omega)]

/-- The nine bytes of a scratchpad are spelled by 72 levels (R85). -/
theorem State.nineIn_congr {j : Nat} (hj : j + 72 ≤ n) (off : Nat) : t.nineIn j off = s.nineIn j off := by
  rw [← stagedBytes_nine t j off s.scr, ← stagedBytes_nine s j off s.scr, stagedBytes_congr h _ hj]

end

/-- The waveform of `ReadScratchpad()` (R52, R85). -/
def readScratchpadSegs (s : State) : List (Bool × Nat) :=
  matchRomSegs s ++ byteOutSegs s.cfg.cmdReadScratchpad ++ bytesInSegs 9

theorem segTicks_readScratchpadSegs (s : State) : segTicks (readScratchpadSegs s) = 10232 := by
  simp [readScratchpadSegs]

theorem readScratchpadSegs_congr {s t : State} (hcfg : t.cfg = s.cfg) (hrom : t.rom = s.rom) :
    readScratchpadSegs t = readScratchpadSegs s := by
  simp only [readScratchpadSegs, matchRomSegs, hcfg, hrom]

/-- What the commit of READ_SCRATCHPAD writes (R86), given the presence result and the nine bytes. -/
def State.withScratchpad (s : State) (p : Bool) (v : Vector Byte 9) : State :=
  { s with present := p, scr := v, scrValid := true, err := .ok }

/-- Writing the same scratchpad again changes no register. -/
theorem State.registers_withScratchpad {s t : State} {p : Bool} {v : Vector Byte 9}
    (h : t.registers = (s.withScratchpad p v).registers) : (t.withScratchpad p v).registers = t.registers :=
  (congrArg (State.withScratchpad · p v) h).trans h.symm

/-- What a waveform and that commit leave. -/
theorem State.commitScratchpad_afterLine (s : State) (gs : List (Bool × Nat)) (offs : List Nat) (p : Bool)
    (v : Vector Byte 9) :
    (((s.afterLine gs offs).setPresT p).setStg v).commitScratchpad.lineIn = s.lineIn.drop offs.length ∧
    (((s.afterLine gs offs).setPresT p).setStg v).commitScratchpad.wave = addSegs gs s.wave ∧
    (((s.afterLine gs offs).setPresT p).setStg v).commitScratchpad.registers = (s.withScratchpad p v).registers :=
  ⟨rfl, rfl, rfl⟩

/-- READ_SCRATCHPAD uses up 73 levels and is one waveform and one commit (R85, R86). -/
theorem exec_readScratchpad (s : State) : ∃ t, exec .readScratchpad s = .next t ∧ t.lineIn = s.lineIn.drop 73 ∧
    t.wave = addSegs (readScratchpadSegs s) s.wave ∧
    t.registers = (s.withScratchpad (!s.levelAt 0 540) (s.nineIn 1 5840)).registers := by
  have hlen : (540 :: bytesInOffsets 9 5840).length = 73 := by rw [List.length_cons, length_bytesInOffsets]
  refine ⟨s.readScratchpad.commitScratchpad, rfl, ?_⟩
  rw [State.readScratchpad_eq, readScratchpadSegs, ← hlen]
  exact s.commitScratchpad_afterLine ..

/-- Settles O34: a run takes exactly the 73 levels, so the next one reads the same levels again and writes what is there already. -/
theorem readScratchpadIsIdempotent : Obligations.ReadScratchpadIsIdempotent := by
  intro s levels rest hlen hs
  obtain ⟨t, ht, hline, hwave, hreg⟩ := exec_readScratchpad s
  obtain ⟨u, hu, -, hwave', hreg'⟩ := exec_readScratchpad t
  have htl : t.lineIn = levels ++ rest := by rw [hline, hs, List.drop_left' hlen]
  have hlevel : ∀ j < 73, ∀ off, t.levelAt j off = s.levelAt j off := by
    rw [← hlen]
    intro j hj off
    rw [State.levelAt_of_lineIn_eq_append hs hj, State.levelAt_of_lineIn_eq_append htl hj]
  have hsame : u.registers = t.registers := by
    rw [hreg', State.nineIn_congr hlevel le_rfl, hlevel 0 (by decide), State.registers_withScratchpad hreg]
  obtain ⟨-, hpresent, hromValid, hscrValid, htempValid, herr, hrxdata, hrbuf, hrom, hscr, htemp⟩ :=
    State.fields_of_registers hsame
  obtain ⟨hcfg', -, -, -, -, -, -, -, hrom', -⟩ := State.fields_of_registers hreg
  rw [readScratchpadSegs_congr hcfg' hrom'] at hwave'
  exact ⟨t, u, _, ht, hu, hscr, hscrValid, hpresent, hromValid, htempValid, herr, htemp, hrom, hrbuf, hrxdata,
    segTicks_readScratchpadSegs s, hwave, hwave'⟩

end Sys2Proof.Machine
end

section
/-! No flag gates a command (10_state.md R23, 42_sensor_commands.md R89): the walk on the line neither reads nor writes `PRESENT`, the
valid flags or `ERR`, and the commit writes `ERR` and the data from what the walk left. -/

namespace Sys2Proof.Machine

section

variable (s f : State)

/-- The flags and `ERR` of another state, all else unchanged. -/
def State.withFlagsOf : State :=
  { s with
    present := f.present, romValid := f.romValid, scrValid := f.scrValid, tempValid := f.tempValid, err := f.err }

@[simp] theorem State.withFlagsOf_cfg : (s.withFlagsOf f).cfg = s.cfg := rfl
@[simp] theorem State.withFlagsOf_rom : (s.withFlagsOf f).rom = s.rom := rfl
@[simp] theorem State.withFlagsOf_hid : (s.withFlagsOf f).hid = s.hid := rfl

theorem State.samplesFrom_withFlagsOf (j : Nat) (offs : List Nat) (log : List SampleAt) :
    (s.withFlagsOf f).samplesFrom j offs log = s.samplesFrom j offs log := by
  induction offs generalizing j log with
  | nil => rfl
  | cons off offs ih => exact ih ..

/-- A waveform neither reads nor writes a flag. -/
theorem State.afterLine_withFlagsOf (gs : List (Bool × Nat)) (offs : List Nat) :
    (s.withFlagsOf f).afterLine gs offs = (s.afterLine gs offs).withFlagsOf f := by
  rw [State.afterLine, State.samplesFrom_withFlagsOf]
  rfl

/-! Each procedure of a command. -/

@[simp] theorem State.writeBit_withFlagsOf (b : Bool) :
    (s.withFlagsOf f).writeBit b = (s.writeBit b).withFlagsOf f := by
  simp only [State.writeBit_eq, State.afterLine_withFlagsOf]

@[simp] theorem State.readBit_withFlagsOf :
    (s.withFlagsOf f).readBit = (s.readBit.1, s.readBit.2.withFlagsOf f) := by
  simp only [State.readBit_eq, State.afterLine_withFlagsOf]
  rfl

@[simp] theorem State.writeByte_withFlagsOf (v : Byte) :
    (s.withFlagsOf f).writeByte v = (s.writeByte v).withFlagsOf f := by
  simp only [State.writeByte_eq, State.afterLine_withFlagsOf]

@[simp] theorem State.writeBytes_withFlagsOf (vs : List Byte) :
    (s.withFlagsOf f).writeBytes vs = (s.writeBytes vs).withFlagsOf f := by
  induction vs generalizing s with
  | nil => rfl
  | cons v vs ih =>
    have hcons (x : State) : x.writeBytes (v :: vs) = (x.writeByte v).writeBytes vs := rfl
    rw [hcons, hcons, State.writeByte_withFlagsOf, ih]

@[simp] theorem State.readByte_withFlagsOf :
    (s.withFlagsOf f).readByte = (s.readByte.1, s.readByte.2.withFlagsOf f) := by
  simp only [State.readByte_eq, State.afterLine_withFlagsOf]
  rfl

@[simp] theorem State.readByteTo_withFlagsOf (k : Fin 9) :
    (s.withFlagsOf f).readByteTo k = (s.readByteTo k).withFlagsOf f := by
  rw [State.readByteTo, State.readByte_withFlagsOf]
  rfl

@[simp] theorem State.resetBus_withFlagsOf : (s.withFlagsOf f).resetBus = s.resetBus.withFlagsOf f := by
  simp only [State.resetBus_eq, State.afterLine_withFlagsOf]
  rfl

/-- `ReadRom()` looks at `PRES_T`, not at `PRESENT` (R75). -/
@[simp] theorem State.readRom_withFlagsOf : (s.withFlagsOf f).readRom = s.readRom.withFlagsOf f := by
  rw [State.readRom, State.readRom, State.resetBus_withFlagsOf, State.withFlagsOf_hid]
  split
  · simp [State.readEight]
  · rfl

/-- `MatchRom()` does not look at `ROM_VALID` (R76). -/
@[simp] theorem State.matchRom_withFlagsOf : (s.withFlagsOf f).matchRom = s.matchRom.withFlagsOf f := by
  simp [State.matchRom]

@[simp] theorem State.readScratchpad_withFlagsOf :
    (s.withFlagsOf f).readScratchpad = s.readScratchpad.withFlagsOf f := by
  simp [State.readScratchpad, State.readNine]

/-- Before its commit a command neither reads nor writes a flag. -/
theorem bodyOf_withFlagsOf (i : Instr) : bodyOf i (s.withFlagsOf f) = (bodyOf i s).withFlagsOf f := by
  cases i with
  | readBit | readByte =>
    simp only [bodyOf, State.readBit_withFlagsOf, State.readByte_withFlagsOf]
    rfl
  | _ => simp [bodyOf]

/-- What a commit writes to `ERR` and to the data registers, and the records it leaves, depend on no flag (R27). -/
theorem commitOf_withFlagsOf (i : Instr) :
    (commitOf i (s.withFlagsOf f)).wave = (commitOf i s).wave ∧
    (commitOf i (s.withFlagsOf f)).sampled = (commitOf i s).sampled ∧
    (commitOf i (s.withFlagsOf f)).lineIn = (commitOf i s).lineIn ∧
    (commitOf i (s.withFlagsOf f)).now = (commitOf i s).now ∧
    (commitOf i (s.withFlagsOf f)).err = (commitOf i s).err ∧
    (commitOf i (s.withFlagsOf f)).rxdata = (commitOf i s).rxdata ∧
    (commitOf i (s.withFlagsOf f)).rbuf = (commitOf i s).rbuf ∧
    (commitOf i (s.withFlagsOf f)).rom = (commitOf i s).rom ∧
    (commitOf i (s.withFlagsOf f)).scr = (commitOf i s).scr ∧
    (commitOf i (s.withFlagsOf f)).temp = (commitOf i s).temp := by
  obtain ⟨-, -, -, -, -, -, -, hline, hnow, hwave, hsampled⟩ := commitOf_frame i s
  obtain ⟨-, -, -, -, -, -, -, hline', hnow', hwave', hsampled'⟩ := commitOf_frame i (s.withFlagsOf f)
  obtain ⟨-, -, -, -, herr⟩ := commitOf_status i s
  obtain ⟨-, -, -, -, herr'⟩ := commitOf_status i (s.withFlagsOf f)
  obtain ⟨hrx, hrbuf, hrom, hscr, htemp⟩ := commitOf_data i s
  obtain ⟨hrx', hrbuf', hrom', hscr', htemp'⟩ := commitOf_data i (s.withFlagsOf f)
  exact ⟨hwave'.trans hwave.symm, hsampled'.trans hsampled.symm, hline'.trans hline.symm, hnow'.trans hnow.symm,
    herr'.trans herr.symm, hrx'.trans hrx.symm, hrbuf'.trans hrbuf.symm, hrom'.trans hrom.symm, hscr'.trans hscr.symm,
    htemp'.trans htemp.symm⟩

end

/-- Settles O39: neither the waveform before a commit nor what the commit writes to `ERR` and the data looks at a flag. -/
theorem flagsGateNothing : Obligations.FlagsGateNothing := by
  intro i s t present romValid scrValid tempValid err he
  rw [exec_eq_commitOf] at he
  obtain rfl := Host.Outcome.next.inj he
  have hu := exec_eq_commitOf i (s.withFlagsOf { s with
    present := present, romValid := romValid, scrValid := scrValid, tempValid := tempValid, err := err })
  rw [bodyOf_withFlagsOf] at hu
  exact ⟨_, hu, commitOf_withFlagsOf ..⟩

end Sys2Proof.Machine
end

section
/-! The temperature decoder (43_temperature_decoder.md R90 to R96): the fields of a packed magnitude stand for the magnitude over
16, and a decode packs the two bytes as one number of sixteenths. -/

namespace Sys2Proof.Machine

/-! The value of a packed magnitude. -/

theorem pack_zero (sg : Bool) : pack sg 0 = 0#64 := if_pos rfl

/-- A packed magnitude has a nonzero exponent field, so it is not +0.0. -/
theorem pack_ne_zero (sg : Bool) {m : Nat} (h0 : m ≠ 0) (hm : m ≤ 2048) : pack sg m ≠ 0#64 := by
  intro h
  have he := doubleExponent_pack sg h0 hm
  have hz : doubleExponent 0#64 = 0 := rfl
  rw [h, hz] at he
  omega

/-- The significand of a packed magnitude is the magnitude over its leading bit: no bit is lost (R95, R96). -/
theorem significand_pack (sg : Bool) {m : Nat} (h0 : m ≠ 0) (hm : m ≤ 2048) :
    (1 + (doubleFraction (pack sg m) : ℚ) / 2 ^ 52) = m / 2 ^ Nat.log2 m := by
  have hp := log2_magnitude h0 hm
  have hsplit : (2 : ℚ) ^ 52 = 2 ^ Nat.log2 m * 2 ^ (52 - Nat.log2 m) := by
    rw [← pow_add]
    congr 1
    omega
  rw [doubleFraction_pack sg h0 hm, hsplit]
  push_cast [Nat.log2_self_le h0]
  field_simp
  ring

/-- The exponent field of a packed magnitude gives the weight of its leading bit, in sixteenths (R95). -/
theorem exponentWeight_pack (sg : Bool) {m : Nat} (h0 : m ≠ 0) (hm : m ≤ 2048) :
    (2 : ℚ) ^ ((doubleExponent (pack sg m) : ℤ) - 1023) = 2 ^ Nat.log2 m / 16 := by
  have he : ((doubleExponent (pack sg m) : ℕ) : ℤ) - 1023 = (Nat.log2 m : ℤ) - 4 := by
    rw [doubleExponent_pack sg h0 hm]
    omega
  rw [he, zpow_sub₀ two_ne_zero, zpow_natCast]
  norm_num

/-- Significand times weight: the leading bit cancels (R95). -/
theorem doubleValue_pack (sg : Bool) {m : Nat} (hm : m ≤ 2048) :
    doubleValue (pack sg m) = (if sg then -1 else 1) * (m : ℚ) / 16 := by
  by_cases h0 : m = 0
  · simp [h0, pack_zero, doubleValue]
  · rw [doubleValue, if_neg (pack_ne_zero sg h0 hm), signBit_pack sg h0, significand_pack sg h0 hm,
      exponentWeight_pack sg h0 hm]
    field_simp

/-- Settles O52: the value comes from the three fields of a packed magnitude, and the examples are evaluated. -/
theorem packEncodesTheValue : Obligations.PackEncodesTheValue :=
  ⟨fun sg _ hm => doubleValue_pack sg hm, pack_zero,
    fun sg _ h1 hm =>
      have h0 := Nat.one_le_iff_ne_zero.1 h1
      ⟨signBit_pack sg h0, doubleExponent_pack sg h0 hm, doubleFraction_pack sg h0 hm⟩,
    by decide, by decide, by decide, by decide⟩

/-! The two variants of the decode. -/

/-- The reference decode packs the 11-bit number of sixteenths (R93). -/
theorem decodeTemp_false (lo hi : Byte) : decodeTemp false lo hi = pack false (hi.toNat % 8 * 256 + lo.toNat) := by
  rw [← n11_toNat]
  rfl

/-- The full-range decode packs the sign and the magnitude of the 12-bit two's-complement number (R94). -/
theorem decodeTemp_true (lo hi : Byte) :
    decodeTemp true lo hi =
      if hi.toNat % 16 * 256 + lo.toNat < 2048 then pack false (hi.toNat % 16 * 256 + lo.toNat)
      else pack true (4096 - (hi.toNat % 16 * 256 + lo.toNat)) := by
  rw [← n12_toNat]
  show packSigned (n12 lo hi) = _
  simp only [packSigned, n12_sign, decide_eq_true_eq, ← not_lt, ite_not]

/-- The packed sign and magnitude stand for the two's-complement number of sixteenths (R94). -/
theorem doubleValue_packSigned (n : BitVec 12) : doubleValue (packSigned n) = (n.toInt : ℚ) / 16 := by
  have hsign : n.getLsbD 11 = n.msb := n.msb_eq_getLsbD_last.symm
  rw [packSigned, hsign, BitVec.toInt_eq_msb_cond]
  cases h : n.msb with
  | true =>
    have hle := BitVec.le_toNat_of_msb_true h
    have hlt := n.isLt
    rw [if_pos rfl, if_pos rfl, doubleValue_pack true (by omega), Nat.cast_sub (by omega)]
    simp
  | false =>
    have hlt := BitVec.toNat_lt_of_msb_false h
    rw [if_neg Bool.false_ne_true, if_neg Bool.false_ne_true, doubleValue_pack false (by omega)]
    simp

theorem n12_toInt (lo hi : Byte) :
    (n12 lo hi).toInt =
      if hi.toNat % 16 * 256 + lo.toNat < 2048 then (hi.toNat % 16 * 256 + lo.toNat : ℤ)
      else hi.toNat % 16 * 256 + lo.toNat - 4096 := by
  rw [BitVec.toInt_eq_toNat_cond, n12_toNat]
  push_cast
  split_ifs <;> omega

/-- Settles O51: a decode packs a magnitude of at most 2048, whose exponent field is that of a normal number. -/
theorem decodedTemperatureIsPlain : Obligations.DecodedTemperatureIsPlain := plainDouble_decodeTemp

/-- Settles O49: the number of sixteenths is 16 times the integer part plus the fraction. -/
theorem unsignedDecodeValue : Obligations.UnsignedDecodeValue := by
  intro lo hi
  have hlo := lo.isLt
  have hparts : hi.toNat % 8 * 256 + lo.toNat = 16 * (hi.toNat % 8 * 16 + lo.toNat / 16) + lo.toNat % 16 := by omega
  rw [decodeTemp_false, doubleValue_pack false (by omega), hparts]
  push_cast
  ring

/-- Settles O50: the value is the two's-complement reading of `N12` over 16; with `hi[7:3]` zero that number is `N11`, below 2048,
and both variants pack it as it is. -/
theorem signedDecodeValue : Obligations.SignedDecodeValue := by
  refine ⟨decodeTemp_true, fun lo hi => ?_, fun lo hi hhi => ?_⟩
  · rw [← n12_toInt]
    exact doubleValue_packSigned (n12 lo hi)
  · have hlo := lo.isLt
    have h8 : hi.toNat % 8 = hi.toNat := Nat.mod_eq_of_lt hhi
    have h16 : hi.toNat % 16 = hi.toNat := Nat.mod_eq_of_lt (by omega)
    rw [decodeTemp_true, decodeTemp_false, h8, h16, if_pos (by omega)]

end Sys2Proof.Machine
end

section
/-! The three errors (60_exceptions.md R110 to R116): an illegal word is an answer within one tick, an absent device ends READ_ROM
and INIT at their reset slot, and a device of another family ends INIT after the eight bytes. -/

namespace Sys2Proof.Machine

/-! ILLEGAL_CMD. -/

/-- A step that takes an illegal word is the tick of its acceptance (R49, R114). -/
theorem step_of_illegal {s : State} {e : DecodeError} (hr : s.port.rst = false) (hv : s.port.cmdValid = true)
    (hb : s.busy = false) (hd : decode s.port.cmdWord = .error e) : step s = .next (s.acceptIllegal s.port.cmdWord) := by
  rw [step_of_acceptedCommand_eq_none (by simp [State.acceptedCommand, hd, Except.toOption])]
  simp [State.tick, hr, hv, hb, hd]

/-- Settles O9: the decoder refuses the word, and its acceptance writes `CMDR` and `ERR` while one tick passes. -/
theorem illegalWordOnlySetsErr : Obligations.IllegalWordOnlySetsErr := by
  intro s p rest hin hr hv hb hillegal
  obtain ⟨e, hd⟩ := (illegalWordsAreTheReserved p.cmdWord).mpr hillegal
  have hp : s.port = p := by rw [State.port, hin]; rfl
  have hrest : s.inputs.drop 1 = rest := by rw [hin]; rfl
  subst hp hrest
  exact step_of_illegal hr hv hb hd

/-! NO_DEVICE and DEVICE_MISMATCH. -/

/-- READ_ROM and INIT on an empty bus: the reset slot alone, and the commit of `NO_DEVICE` (R111). -/
theorem exec_of_absent {i : Instr} {s : State} (hi : i = .readRom ∨ i = .init) (h : s.levelAt 0 540 = true) :
    ∃ hid, exec i s = .next { s.afterLine resetSlotSegs [540] with
      present := false, romValid := if i = .init then false else s.romValid
      err := .noDevice, busy := false, seq := .idle, hid := hid } := by
  obtain rfl | rfl := hi
  · obtain ⟨-, -, hread⟩ := readRomReadsTheCode
    obtain ⟨habsent, -⟩ := hread s
    exact habsent h
  · obtain ⟨-, -, hinit⟩ := initCachesTheRomCode
    obtain ⟨habsent, -⟩ := hinit s
    exact habsent h

/-- `ERR` at the completion tick of a command, from the presence sample and the family code it has read (R110, R115). -/
theorem err_of_exec {i : Instr} {s t : State} (he : exec i s = .next t) :
    t.err = if (i = .readRom ∨ i = .init) ∧ s.levelAt 0 540 = true then .noDevice
      else if i = .init ∧ s.byteIn 1 1448 ≠ s.cfg.familyCode then .deviceMismatch
      else .ok := by
  by_cases hi : i = .readRom ∨ i = .init
  · cases hl : s.levelAt 0 540 with
    | true =>
      obtain ⟨hid, ht⟩ := exec_of_absent hi hl
      cases ht.symm.trans he
      exact (if_pos ⟨hi, rfl⟩).symm
    | false =>
      rw [if_neg (by simp)]
      obtain rfl | rfl := hi
      · obtain ⟨-, -, hread⟩ := readRomReadsTheCode
        obtain ⟨-, hpresent⟩ := hread s
        obtain ⟨hid, ht⟩ := hpresent hl
        cases ht.symm.trans he
        simp
      · obtain ⟨-, -, hinit⟩ := initCachesTheRomCode
        obtain ⟨-, hmismatch, hmatch⟩ := hinit s
        by_cases hf : s.byteIn 1 1448 = s.cfg.familyCode
        · obtain ⟨hid, ht⟩ := hmatch hl hf
          cases ht.symm.trans he
          simp [hf]
        · obtain ⟨hid, ht⟩ := hmismatch hl hf
          cases ht.symm.trans he
          simp [hf]
  · obtain ⟨hread, hinit⟩ := not_or.mp hi
    obtain ⟨-, -, hother, -⟩ := writersTable i s t he
    obtain ⟨-, hok⟩ := hother hread hinit
    simp [hok, hread, hinit]

theorem err_eq_noDevice_iff {i : Instr} {s t : State} (he : exec i s = .next t) :
    t.err = .noDevice ↔ (i = .readRom ∨ i = .init) ∧ s.levelAt 0 540 = true := by
  rw [err_of_exec he]
  split
  next h => exact iff_of_true rfl h
  next h => split <;> exact iff_of_false nofun h

theorem err_eq_deviceMismatch_iff {i : Instr} {s t : State} (he : exec i s = .next t) :
    t.err = .deviceMismatch ↔ i = .init ∧ s.levelAt 0 540 = false ∧ s.byteIn 1 1448 ≠ s.cfg.familyCode := by
  rw [err_of_exec he]
  split
  next h =>
    obtain ⟨-, habsent⟩ := h
    simp [habsent]
  next h =>
    split
    next hf =>
      obtain ⟨hi, hfamily⟩ := hf
      have hpresent : s.levelAt 0 540 = false := by simpa [hi] using h
      exact iff_of_true rfl ⟨hi, hpresent, hfamily⟩
    next hf => exact iff_of_false nofun fun ⟨hi, _, hfamily⟩ => hf ⟨hi, hfamily⟩

/-- Settles O37: the two commands end at the reset slot of an empty bus; every other one ends with `ERR` 0, and shows the absent
device in `PRESENT`. -/
theorem noDeviceRaisedByReadRomAndInit : Obligations.NoDeviceRaisedByReadRomAndInit := by
  intro i s t he
  refine ⟨err_eq_noDevice_iff he, fun herr => ?_, fun hslot hread hinit habsent => ?_⟩
  · obtain ⟨hi, habsent⟩ := (err_eq_noDevice_iff he).mp herr
    obtain ⟨hid, ht⟩ := exec_of_absent hi habsent
    cases ht.symm.trans he
    have hsample : s.samplesFrom 0 [540] s.sampled = ⟨s.now + 540, true⟩ :: s.sampled := by
      rw [← habsent]
      rfl
    exact ⟨rfl, rfl, hsample, rfl, rfl, rfl, rfl⟩
  · obtain ⟨hpresent, -, hother, -⟩ := writersTable i s t he
    obtain ⟨-, hok⟩ := hother hread hinit
    exact ⟨by simp [hpresent, hslot, habsent], hok⟩

/-- Settles O38: an INIT that finds another family has read the eight bytes, and its commit keeps `ROM`. -/
theorem deviceMismatchRaisedByInit : Obligations.DeviceMismatchRaisedByInit := by
  intro i s t he
  refine ⟨err_eq_deviceMismatch_iff he, fun herr => ?_⟩
  obtain ⟨rfl, hpresent, hfamily⟩ := (err_eq_deviceMismatch_iff he).mp herr
  obtain ⟨-, -, hinit⟩ := initCachesTheRomCode
  obtain ⟨-, hmismatch, -⟩ := hinit s
  obtain ⟨hid, ht⟩ := hmismatch hpresent hfamily
  cases ht.symm.trans he
  exact ⟨congrArg (s.now + ·) (segTicks_readRomSegs s), rfl, rfl, rfl, rfl⟩

end Sys2Proof.Machine
end

section
/-! The pseudocode and the reference sequencer (70_reset_and_hazards.md R140 to R142): each command's walk, run for as many ticks as
R52 says, ends in the commit of what its pseudocode leaves; and no step stands still (R141). -/

namespace Sys2Proof.Machine

variable {i : Instr} {x : State}

/-! A step in time. -/

/-- An accepted command that a `rst` will cut short goes on by one tick (log entry 6). -/
theorem step_of_interrupted {s t : State} (hi : s.acceptedCommand = some i)
    (he : exec i (s.accept s.port.cmdWord) = .next t) (hr : runsToCompletion s t = false) : step s = .next s.tick := by
  simp only [step, hi, he, if_neg (ne_true_of_eq_false hr)]

/-- Settles O8: `runsToCompletion` is what the statement's premise denies. -/
theorem interruptedCommandGoesTickByTick : Obligations.InterruptedCommandGoesTickByTick :=
  fun _ _ _ hi he hr => step_of_interrupted hi he hr

/-- None of the four kinds of step writes the parameters (00_scope.md R7, R8). -/
theorem cfg_of_step {s t : State} (h : step s = .next t) : t.cfg = s.cfg := by
  cases registerStep_of_step h with
  | reset _ => rfl
  | unchanged hr =>
    obtain ⟨hc, -⟩ := State.fields_of_registers hr
    exact hc
  | illegal w => rfl
  | @commit j y _ hy =>
    obtain ⟨-, -, -, -, hcommit, -⟩ := commitOf_frame j y
    obtain ⟨hc, -⟩ := State.fields_of_registers hy
    exact hcommit.trans hc

/-- A step takes one tick, or the acceptance tick and a command's duration (R52, R141). -/
theorem now_lt_of_step {s t : State} (h : step s = .next t) : s.now < t.now := by
  rcases step_cases h with rfl | ⟨j, -, he, -⟩
  · obtain ⟨-, hn, -⟩ := s.sameTime_tick
    rw [hn]
    exact Nat.lt_succ_self s.now
  · obtain ⟨y, rfl, -, -, hn, -⟩ := exec_commits he
    obtain ⟨-, -, -, -, -, -, -, -, hnow, -⟩ := commitOf_frame j y
    rw [hnow, hn, State.accept_now]
    omega

/-- Settles O15: a step answers on every state, takes time, and writes no parameter. -/
theorem stepAlwaysAdvances : Obligations.StepAlwaysAdvances := by
  intro s
  obtain ⟨t, h⟩ := step_next s
  exact ⟨t, h, now_lt_of_step h, cfg_of_step h⟩

/-! Walks of one slot or one byte. -/

/-- A waveform leaves the steps of a command as they are (R23, R140). -/
theorem State.transfers_park {q : Phase} {h : Hidden} {gs : List (Bool × Nat)} {offs : List Nat} {tr : Transfer}
    (ht : transferOf h.step (stepsOf i x) = some tr) : ((x.afterLine gs offs).park q h).Transfers i tr :=
  State.Transfers.of_eq (State.transfers_setHid ht) rfl rfl rfl

/-- A write slot of the bit `b` (R60, R140). -/
theorem writeSlot_run_of_bit {b : Bool} (hb : x.hid.shr.getLsbD x.hid.bitI.val = b) (hr : x.Runs i 61) :
    ticks 61 (x.enterPhase .wLow) =
      ((x.afterLine (writeSlotSegs b) []).park .wRec { x.hid with tmr := 0 }).slotEnd i := by
  subst hb
  exact writeSlot_run hr

/-- A step of one bit out (R60, R66, R140). -/
theorem bitOutStep_run {st : SeqStep} {b : Bool} (hr : x.Runs i 61)
    (ht : transferOf st (stepsOf i x) = some (.bitOut b)) :
    x.StepEnds i st (writeSlotSegs b) [] x.hid.presT x.hid.stg (ticks 61 (x.enterStep (st, .bitOut b))) := by
  have h := writeSlot_run_of_bit (x := x.setHid { x.hid with step := st, byteI := 0, bitI := 0, shr := zextBit b })
    (getLsbD_zextBit b) hr
  rw [State.afterLine_setHid, State.park_setHid, slotEnd_bit (State.transfers_park ht)] at h
  exact ⟨_, _, h, rfl, rfl, rfl⟩

theorem bytesOutSegs_singleton (v : Byte) : bytesOutSegs [v] = byteOutSegs v := List.append_nil _

/-- A step of one byte out (R62, R68, R140). -/
theorem byteOutStep_run {st : SeqStep} {v : Byte} (hr : x.Runs i 488)
    (ht : transferOf st (stepsOf i x) = some (.bytesOut [v])) :
    x.StepEnds i st (byteOutSegs v) [] x.hid.presT x.hid.stg (ticks 488 (x.enterStep (st, .bytesOut [v]))) := by
  rw [← bytesOutSegs_singleton]
  exact outStep_run hr ht (by decide)

/-- The end of a command that fills no hidden buffer (R66, R68). -/
theorem State.StepEnds.commit_plain {st : SeqStep} {gs : List (Bool × Nat)} {offs : List Nat} {t : State}
    (h : x.StepEnds i st gs offs x.hid.presT x.hid.stg t) (hs : stepsAfter st (stepsOf i x) = [])
    (h1 : i ≠ .readBit) (h2 : i ≠ .readByte) : t = commitOf i (x.afterLine gs offs) :=
  h.commit (g := x.hid) hs rfl rfl h1 h2

/-- The commit of a received byte reads `SHR` alone of the hidden registers (R67, R69). -/
theorem State.commitRx_park (q : Phase) (h : Hidden) (v : Byte) (s : State) : (s.park q h).commitRx v = s.commitRx v := rfl

theorem State.commitRx_stage_park (q : Phase) (h : Hidden) (k : Fin 9) (u v : Byte) (s : State) :
    ((s.park q h).stage k u).commitRx v = s.commitRx v := rfl

/-- A single bit in a cleared byte (R67, R140). -/
theorem setBit_zero_eq_zextBit (b : Bool) : setBit 0#8 0 b = zextBit b := by cases b <;> rfl

/-- READ_BIT, from its start tick on (R67, R140). -/
theorem readBitWalk_run (hr : x.Runs .readBit 61) :
    ticks 61 (x.enterStep (.sData, .bitIn)) = x.readBit.2.commitRx (zextBit x.readBit.1) := by
  have h := readSlot_run (x := x.setHid { x.hid with step := .sData, byteI := 0, bitI := 0, shr := 0#8 }) hr
  rw [State.afterLine_setHid, State.park_setHid, slotEnd_bitIn (State.transfers_park rfl), stepEnd_last rfl] at h
  rw [State.readBit_eq, ← setBit_zero_eq_zextBit]
  exact h.trans (State.commitRx_park ..)

/-- READ_BYTE, from its start tick on (R69, R140). The sequencer stages the byte too, and the commit does not look there. -/
theorem readByteWalk_run (hr : x.Runs .readByte 488) :
    ticks 488 (x.enterStep (.sData, .bytesIn 1)) = x.readByte.2.commitRx x.readByte.1 := by
  have h := byteIn_run (x := x.setHid { x.hid with step := .sData }) (n := 1) 0 hr (State.transfers_setHid rfl)
  rw [State.afterLine_setHid, State.park_setHid] at h
  rw [State.readByte_eq]
  generalize byteInSegs = gs at *
  generalize byteInOffsets 0 = offs at *
  rw [slotEnd_in_last (State.transfers_park (tr := .bytesIn 1) rfl) (by exact not_seven) (by exact Nat.lt_irrefl 1),
    stepEnd_last rfl] at h
  exact h.trans (State.commitRx_stage_park ..)

/-! Walks of more than one step. -/

/-- READ_ROM and INIT with a device present (R75, R140). -/
theorem readRomSteps_run (hs : stepsOf i x = readRomSteps x) (hp : x.levelAt 0 540 = false) (hr : x.Runs i 5352) :
    x.StepEnds i .sRomData (readRomSegs x) (540 :: bytesInOffsets 8 1448) true ((x.eightIn 1 1448).push x.hid.stg[8])
      (ticks 5352 (x.enterStep (.sReset, .resetSlot))) := by
  have hs' : stepsOf i x = [(.sReset, .resetSlot), (.sRomCmd, .bytesOut [x.cfg.cmdReadRom]), (.sRomData, .bytesIn 8)] := hs
  have hr1 : x.Runs i (960 + 488 + 3904) := hr
  have h1 := resetStep_run (x := x) (i := i) (State.Runs.left (State.Runs.left hr1))
  rw [hp] at h1
  have h2 := h1.out (v := x.cfg.cmdReadRom) (vs := []) segTicks_resetSlotSegs (State.Runs.left hr1) (by rw [hs']; rfl)
    (by rw [hs']; rfl) (.inr (.inl rfl)) (by decide)
  have h3 := h2.into (d := 7) (m := 1448) (by rw [segTicks_append, segTicks_bytesOutSegs]; rfl) hr1 (by rw [hs']; rfl)
    (by rw [hs']; rfl) (.inr (.inl rfl)) (by decide)
  rw [← ticks_add, ← ticks_add] at h3
  have hsegs : resetSlotSegs ++ bytesOutSegs [x.cfg.cmdReadRom] ++ bytesInSegs 8 = readRomSegs x := by
    rw [bytesOutSegs_singleton, readRomSegs]
  have hks : (List.range' 0 (7 + 1)).map (Fin.ofNat 9) = [0, 1, 2, 3, 4, 5, 6, 7] := rfl
  rw [hks, stagedBytes_eight, hsegs, offset_cons] at h3
  simp only [List.length_cons, List.length_nil, Nat.reduceAdd, Nat.reduceMul] at h3
  exact h3

/-- The MATCH_ROM frame and a function command last 5840 ticks (R52). -/
theorem segTicks_functionSegs (s : State) (c : Byte) : segTicks (matchRomSegs s ++ bytesOutSegs [c]) = 5840 := by
  rw [segTicks_append, segTicks_matchRomSegs, segTicks_bytesOutSegs]
  rfl

/-- WRITE_SCRATCHPAD (R83, R140). -/
theorem writeScratchpadSteps_run {highAlarm lowAlarm config : Byte}
    (hs : stepsOf i x = matchSteps x ++ [(.sFunc, .bytesOut [x.cfg.cmdWriteScratchpad]),
      (.sData, .bytesOut (scratchpadOperands highAlarm lowAlarm config))])
    (he : endsWhenAbsent i = false) (hr : x.Runs i 7304) :
    x.StepEnds i .sData
      (matchRomSegs x ++ bytesOutSegs (x.cfg.cmdWriteScratchpad :: scratchpadOperands highAlarm lowAlarm config)) [540]
      (!x.levelAt 0 540) x.hid.stg (ticks 7304 (x.enterStep (.sReset, .resetSlot))) := by
  have h1 := functionSteps_run hs he (State.Runs.left (m := 5840) (n := 1464) hr)
  have h2 := h1.out (v := highAlarm) (vs := [lowAlarm, normConfig config]) (segTicks_functionSegs ..)
    (by simpa using hr) (by rw [hs]; rfl) (by rw [hs]; rfl) (.inl he) (by decide : 2 < 9)
  rw [← ticks_add, List.append_assoc] at h2
  simp only [List.length_cons, List.length_nil, Nat.reduceAdd, Nat.reduceMul] at h2
  exact h2

/-- READ_SCRATCHPAD and READ_TEMPERATURE (R85, R140). -/
theorem readScratchpadSteps_run
    (hs : stepsOf i x = matchSteps x ++ [(.sFunc, .bytesOut [x.cfg.cmdReadScratchpad]), (.sData, .bytesIn 9)])
    (he : endsWhenAbsent i = false) (hr : x.Runs i 10232) :
    x.StepEnds i .sData (matchRomSegs x ++ byteOutSegs x.cfg.cmdReadScratchpad ++ bytesInSegs 9)
      (540 :: bytesInOffsets 9 5840) (!x.levelAt 0 540) (x.nineIn 1 5840)
      (ticks 10232 (x.enterStep (.sReset, .resetSlot))) := by
  have h1 := functionSteps_run hs he (State.Runs.left (m := 5840) (n := 4392) hr)
  have h2 := h1.into (d := 8) (segTicks_functionSegs ..) hr (by rw [hs]; rfl) (by rw [hs]; rfl) (.inl he) (by decide)
  have hks : (List.range' 0 (8 + 1)).map (Fin.ofNat 9) = [0, 1, 2, 3, 4, 5, 6, 7, 8] := rfl
  rw [← ticks_add, hks, stagedBytes_nine, bytesOutSegs_singleton, offset_cons] at h2
  exact h2

/-! Every command. -/

/-- A command's walk, run for the ticks that R52 gives it, ends in the commit of what the pseudocode leaves (R140, R142). -/
theorem walk_run {st : SeqStep × Transfer} {rest : List (SeqStep × Transfer)} (hs : stepsOf i x = st :: rest)
    (hr : x.Runs i (duration (!x.levelAt 0 540) i)) :
    ticks (duration (!x.levelAt 0 540) i) (x.enterStep st) = commitOf i (bodyOf i x) := by
  cases i
  all_goals obtain ⟨rfl, -⟩ := List.cons.inj hs
  case resetBus =>
    rw [bodyOf, State.resetBus_eq, State.setPresT_eq_setHid]
    exact (resetStep_run hr).commit rfl rfl rfl nofun nofun
  case writeBit bit =>
    rw [bodyOf, State.writeBit_eq]
    exact (bitOutStep_run hr rfl).commit_plain rfl nofun nofun
  case readBit =>
    rw [bodyOf, commitOf, State.commitRx_setShr]
    exact readBitWalk_run hr
  case writeByte byte =>
    rw [bodyOf, State.writeByte_eq]
    exact (byteOutStep_run (st := .sData) (v := byte) hr rfl).commit_plain rfl nofun nofun
  case readByte =>
    rw [bodyOf, commitOf, State.commitRx_setShr]
    exact readByteWalk_run hr
  case readRom | init =>
    rw [bodyOf]
    cases hp : x.levelAt 0 540 with
    | true =>
      rw [hp] at hr
      rw [State.readRom_absent hp, State.setPresT_eq_setHid]
      have h := resetStep_run hr
      rw [hp] at h
      exact h.absent rfl rfl rfl
    | false =>
      rw [hp] at hr
      rw [State.readRom_present hp, State.setPresT_setStg_eq_setHid]
      exact (readRomSteps_run rfl hp hr).commit rfl rfl rfl nofun nofun
  case matchRom =>
    rw [bodyOf, State.matchRom_eq, State.setPresT_eq_setHid]
    exact (matchSteps_run (rest := []) rfl rfl hr).commit rfl rfl rfl nofun nofun
  case startConversion | copyScratchpad =>
    rw [bodyOf, State.matchRom_writeByte, ← bytesOutSegs_singleton, State.setPresT_eq_setHid]
    exact (functionSteps_run (rest := []) rfl rfl hr).commit rfl rfl rfl nofun nofun
  case writeScratchpad highAlarm lowAlarm config =>
    rw [bodyOf, State.matchRom_writeBytes, State.setPresT_eq_setHid]
    exact (writeScratchpadSteps_run rfl rfl hr).commit rfl rfl rfl nofun nofun
  case readScratchpad | readTemperature =>
    rw [bodyOf, State.readScratchpad_eq, State.setPresT_setStg_eq_setHid]
    exact (readScratchpadSteps_run rfl rfl hr).commit rfl rfl rfl nofun nofun

/-- Settles O17: after the acceptance tick the walk lasts as long as the command, and both end in the same commit. -/
theorem sequencerEqualsPseudocode : Obligations.SequencerEqualsPseudocode := by
  intro s t i ha he hrst
  obtain ⟨u, hu, hn⟩ := durationsAreAsListed i (s.accept s.port.cmdWord)
  obtain rfl := Host.Outcome.next.inj (hu.symm.trans he)
  rw [exec_eq_commitOf] at he
  obtain ⟨st, rest, hs, -⟩ := tick_of_acceptedCommand ha
  rw [hn, State.accept_now, Nat.add_sub_cancel_left] at hrst
  have hlen : u.now - s.now = duration (!(s.accept s.port.cmdWord).levelAt 0 540) i + 1 := by
    rw [hn, State.accept_now]
    omega
  rw [hlen, ticks_succ_of_acceptedCommand _ ha hs, walk_run hs (runs_accept ha hrst)]
  exact Host.Outcome.next.inj he

end Sys2Proof.Machine
end
